-- ==== Sys2Proof/Word.lean ====
section
/-!
DEFINITION. The words of LZWCORE and their widths (00_scope.md R5, R6, R8).
Bit 0 is the least significant bit of every word (R6).
-/

namespace Sys2Proof

/-- A symbol, 8 bits, 0..255 (R5, R8). -/
abbrev Sym := BitVec 8

/-- A 32-bit word: a code, an operand, a pixel count, a status word (R5). -/
abbrev Word := BitVec 32

/-- An image width or height, 16 bits unsigned (R5). -/
abbrev Dim := BitVec 16

/-- A command word, 40 bits (R5, R70). -/
abbrev Cmd := BitVec 40

/-- A string of symbols, first symbol first (R8, R55). -/
abbrev Str := List Sym

end Sys2Proof
end

