-- ==== Sys2Proof/Syntax.lean ====
section
/-!
DEFINITION. The thirteen commands of 30_encoding.md R72, one constructor per row of spec/opcode_table.json, each with
the argument its operand form gives (R71). An operand's type has exactly its field's width, so a term carries every
value the encoding admits and no other.
-/

namespace Sys2Proof

/-- A legal command (R72, R73). -/
inductive Instr where
  /-- `NOP` (R113). -/
  | nop
  /-- `E_BEGIN` (R120). -/
  | eBegin
  /-- `E_SYM c` (R122): `c` is the unsigned operand, a code point, range-checked when it runs. -/
  | eSym (c : Word)
  /-- `E_END` (R124). -/
  | eEnd
  /-- `D_BEGIN` (R140). -/
  | dBegin
  /-- `D_CODE k` (R142): `k` is the unsigned operand. -/
  | dCode (k : Word)
  /-- `D_END` (R143). -/
  | dEnd
  /-- `P_BEGIN W, H` (R160). -/
  | pBegin (w h : Dim)
  /-- `P_PIX v` (R162): `v` is the operand in two's complement. -/
  | pPix (v : Word)
  /-- `P_END` (R163). -/
  | pEnd
  /-- `PD_BEGIN W, H` (R180). -/
  | pdBegin (w h : Dim)
  /-- `PD_CODE k` (R182). -/
  | pdCode (k : Word)
  /-- `PD_END` (R183). -/
  | pdEnd
  deriving DecidableEq, Repr

end Sys2Proof
end

