-- ==== Sys2Proof/WellFormed.lean ====
section
/-!
DEFINITION. Well-formedness. A term of `Instr` cannot be ill-formed: each operand's type has its field's width
(30_encoding.md R71, R75). The checks that can fail are the ones the spec makes: an assembler's literal must fit its
field (R81), and a command word must be legal (R73; `Sys2Proof.legal` in Decode.lean, beside the opcode map it reads).
-/

namespace Sys2Proof

/-- R81: a `SYM` or `CODE` literal outside `0..2^32-1` is refused. -/
abbrev WellFormed.unsignedLiteral (n : Int) : Prop := 0 ≤ n ∧ n ≤ 2 ^ 32 - 1

/-- R81: a `PIX` literal outside `-2^31..2^31-1` is refused. -/
abbrev WellFormed.pixLiteral (n : Int) : Prop := -(2 ^ 31) ≤ n ∧ n ≤ 2 ^ 31 - 1

/-- R81: a `DIM` literal outside `0..65535` is refused. -/
abbrev WellFormed.dimLiteral (n : Int) : Prop := 0 ≤ n ∧ n ≤ 65535

/-- R81: a character literal stands for a printable ASCII character only. -/
abbrev WellFormed.charLiteral (ch : Char) : Prop := 32 ≤ ch.toNat ∧ ch.toNat ≤ 126

/-- Every command is well-formed: no form has an operand value that its field cannot hold (R71), and a value out of the
command's range is an error the command raises when it runs, not an ill-formed command (R75). -/
def Instr.wellFormed : Instr → Bool
  | .nop => true
  | .eBegin => true
  | .eSym _ => true
  | .eEnd => true
  | .dBegin => true
  | .dCode _ => true
  | .dEnd => true
  | .pBegin _ _ => true
  | .pPix _ => true
  | .pEnd => true
  | .pdBegin _ _ => true
  | .pdCode _ => true
  | .pdEnd => true

end Sys2Proof
end

