-- ==== Sys2Proof/Decode.lean ====
section
/-!
DEFINITION. The command word: fields (30_encoding.md R70), the opcode map and operand forms (R71, R72), legality
(R73), the decoder and the encoder. A command is one parallel 40-bit word: it has no byte order (20_memory.md R57).
-/

namespace Sys2Proof

/-- An operand form (R71). -/
inductive Form where
  | noOperand | sym | code | pix | dim
  deriving DecidableEq, Repr

/-- Why a word is illegal (R73). -/
inductive DecodeError where
  /-- R73 case 1: the opcode is not one of the thirteen. -/
  | unassignedOpcode (op : BitVec 8)
  /-- R73 case 2: a `NONE` form with a non-zero operand. -/
  | nonzeroOperand (op : BitVec 8) (x : Word)
  deriving DecidableEq, Repr

/-- `cmd[39:32]` (R70). -/
def cmdOpcode (cmd : Cmd) : BitVec 8 := cmd.extractLsb' 32 8

/-- `cmd[31:0]` (R70). -/
def cmdOperand (cmd : Cmd) : Word := cmd.extractLsb' 0 32

/-- `W = operand[31:16]` of form `DIM` (R71). -/
def dimWidth (x : Word) : Dim := x.extractLsb' 16 16

/-- `H = operand[15:0]` of form `DIM` (R71). -/
def dimHeight (x : Word) : Dim := x.extractLsb' 0 16

/-- The opcode and form columns of the opcode map (R72). -/
def formOf (op : BitVec 8) : Option Form :=
  match op with
  | 0x00#8 => some .noOperand
  | 0x01#8 => some .noOperand
  | 0x02#8 => some .sym
  | 0x03#8 => some .noOperand
  | 0x11#8 => some .noOperand
  | 0x12#8 => some .code
  | 0x13#8 => some .noOperand
  | 0x21#8 => some .dim
  | 0x22#8 => some .pix
  | 0x23#8 => some .noOperand
  | 0x31#8 => some .dim
  | 0x32#8 => some .code
  | 0x33#8 => some .noOperand
  | _ => none

/-- `Legal(cmd)` (R73). -/
def legal (cmd : Cmd) : Bool :=
  match formOf (cmdOpcode cmd) with
  | none => false
  | some .noOperand => decide (cmdOperand cmd = 0)
  | some _ => true

/-- A `NONE` form: its operand must be 0 (R71). -/
def decodeNone (i : Instr) (op : BitVec 8) (x : Word) : Except DecodeError Instr :=
  if x = 0 then .ok i else .error (.nonzeroOperand op x)

/-- The command a word stands for, or why the word is illegal (R70 to R73). -/
def decode (cmd : Cmd) : Except DecodeError Instr :=
  let op := cmdOpcode cmd
  let x := cmdOperand cmd
  match op with
  | 0x00#8 => decodeNone .nop op x
  | 0x01#8 => decodeNone .eBegin op x
  | 0x02#8 => .ok (.eSym x)
  | 0x03#8 => decodeNone .eEnd op x
  | 0x11#8 => decodeNone .dBegin op x
  | 0x12#8 => .ok (.dCode x)
  | 0x13#8 => decodeNone .dEnd op x
  | 0x21#8 => .ok (.pBegin (dimWidth x) (dimHeight x))
  | 0x22#8 => .ok (.pPix x)
  | 0x23#8 => decodeNone .pEnd op x
  | 0x31#8 => .ok (.pdBegin (dimWidth x) (dimHeight x))
  | 0x32#8 => .ok (.pdCode x)
  | 0x33#8 => decodeNone .pdEnd op x
  | _ => .error (.unassignedOpcode op)

/-- The opcode byte of a command (R72). -/
def Instr.opcode : Instr → BitVec 8
  | .nop => 0x00
  | .eBegin => 0x01
  | .eSym _ => 0x02
  | .eEnd => 0x03
  | .dBegin => 0x11
  | .dCode _ => 0x12
  | .dEnd => 0x13
  | .pBegin _ _ => 0x21
  | .pPix _ => 0x22
  | .pEnd => 0x23
  | .pdBegin _ _ => 0x31
  | .pdCode _ => 0x32
  | .pdEnd => 0x33

/-- The operand field of a command: 0 for `NONE`, the argument for `SYM`, `CODE` and `PIX`, `W` above `H` for `DIM`
(R71, R81). -/
def Instr.operand : Instr → Word
  | .nop => 0
  | .eBegin => 0
  | .eSym c => c
  | .eEnd => 0
  | .dBegin => 0
  | .dCode k => k
  | .dEnd => 0
  | .pBegin w h => w ++ h
  | .pPix v => v
  | .pEnd => 0
  | .pdBegin w h => w ++ h
  | .pdCode k => k
  | .pdEnd => 0

/-- The word of a command: opcode above operand (R70, R81). -/
def encode (i : Instr) : Cmd := i.opcode ++ i.operand

/-- The command the decoder reads from a word given as a number, bit 0 the least significant bit of the one 40-bit word;
only the low `nbits` bits are taken, the rest are 0. -/
def decodeTableWord (nbits w : Nat) : Option Instr :=
  (decode (BitVec.ofNat 40 (w % 2 ^ nbits))).toOption

end Sys2Proof
end

