-- ==== Sys2Proof/Config.lean ====
section
/-!
DEFINITION. The parameters of an instance (00_scope.md R5, 93_implementation_defined.md section 2).
They are a field of State that no step writes, so a statement about every state holds for every parameter value
(log entry 2). LZWCORE needs no free value: each value a command leaves is stated by a rule.
-/

namespace Sys2Proof

/-- The parameters of one instance (R5). `N_INST` is the length of a `Machine.System` (`Config.LegalSystem`). -/
structure Config where
  /-- `DICT_DEPTH`, the number of dictionary codes. -/
  dictDepth : Nat
  /-- `OUT_DEPTH`, the capacity of `OUTQ` in items. -/
  outDepth : Nat
  deriving DecidableEq, Repr

/-- The legal range of R5: `256 <= DICT_DEPTH <= 2^32 - 2` and `OUT_DEPTH >= 1`. -/
abbrev Config.Legal (c : Config) : Prop :=
  256 ≤ c.dictDepth ∧ c.dictDepth ≤ 2 ^ 32 - 2 ∧ 1 ≤ c.outDepth

/-- The recommended values of R5 (DESIGN CHOICE: the spec leaves the parameters open; log entry 2). -/
def Config.recommended : Config := { dictDepth := 4096, outDepth := 16 }

/-- The parameters of a system, one instance each: `N_INST >= 1` instances, each in its legal range (R5). -/
abbrev Config.LegalSystem (cfgs : List Config) : Prop := 1 ≤ cfgs.length ∧ ∀ c ∈ cfgs, c.Legal

/-- R5's recommended system: `N_INST = 1` (log entry 2). -/
def Config.recommendedSystem : List Config := [Config.recommended]

/-- `CODE_W = ceil(log2(DICT_DEPTH))` (R5), the bits an emitted code needs. -/
def Config.codeW (c : Config) : Nat := Nat.log2 (c.dictDepth - 1) + 1

/-- `MAX_ENTRY_LEN = DICT_DEPTH - 255` (R5, R98), the longest string an entry can hold. -/
def Config.maxEntryLen (c : Config) : Nat := c.dictDepth - 255

end Sys2Proof
end

