-- ==== Sys2Proof/Machine/State.lean ====
section
/-!
DEFINITION. The state of LZWCORE as plain data: `Block` has exactly the sixteen fields of 10_state.md R20; `State` adds
the instance's parameters and the host's and environment's side (log entries 1 and 2). The reset values are R38's.
-/

namespace Sys2Proof.Machine

/-- `MODE` (R21). The values 5 and 6 are never held (R21, U7) and have no constructor (log entry 9). -/
inductive Mode where
  | idle | enc | dec | penc | pdec | error
  deriving DecidableEq, Repr

/-- The error codes of `ERR` (60_exceptions.md R200). The values 12 to 15 are never held and have no constructor (log
entry 9). -/
inductive ErrCode where
  /-- 0 `NONE`. -/
  | noError
  /-- 1 `EmptyInputError` (R201). -/
  | emptyInput
  /-- 2 `UnknownCodeError` (R202). -/
  | unknownCode
  /-- 3 `CorruptStreamError` (R203). -/
  | corruptStream
  /-- 4 `PixelRangeError` (R204). -/
  | pixelRange
  /-- 5 `MalformedDigitStreamError` (R205). -/
  | malformedDigitStream
  /-- 6 `SizeMismatchError` (R206). -/
  | sizeMismatch
  /-- 7 `MalformedFileError` (R207): the host adapter's; the block never latches it. -/
  | malformedFile
  /-- 8 `DictFullError` (R208). -/
  | dictFull
  /-- 9 `ProtocolError` (R209). -/
  | protocol
  /-- 10 `IllegalCommandError` (R211). -/
  | illegalCommand
  /-- 11 `SymbolRangeError` (R210). -/
  | symbolRange
  deriving DecidableEq, Repr

/-- One `DMEM` entry (20_memory.md R50). -/
structure Entry where
  /-- `PARENT`: the code of the entry's string without its last symbol. -/
  parent : Word
  /-- `SUFFIX`: the entry's last symbol. -/
  suffix : Sym
  deriving DecidableEq, Repr

/-- `DMEM` (R50): the written entries as (code, entry) pairs, codes strictly rising. A code that is not listed holds no
value (R38, R40). -/
abbrev Memory := List (Nat × Entry)

/-- The kind of an output item (30_encoding.md R76); kind 3 is never produced and has no constructor (log entry 9). -/
inductive Kind where
  | code | sym | pix
  deriving DecidableEq, Repr

/-- One output item (R76). -/
structure Item where
  kind : Kind
  data : Word
  deriving DecidableEq, Repr

/-- The state of one instance: exactly the fields of 10_state.md R20, in its order. -/
structure Block where
  /-- `MODE` (R21). -/
  mode : Mode
  /-- `ERR` (R22). -/
  err : ErrCode
  /-- `ERR_OP` (R22). -/
  errOp : BitVec 8
  /-- `ERR_ARG` (R22). -/
  errArg : Word
  /-- `NEXT_CODE` (R23). -/
  nextCode : Word
  /-- `W_VALID` (R24). -/
  wValid : Bool
  /-- `W_CODE` (R24). -/
  wCode : Word
  /-- `FIRST_SEEN` (R25). -/
  firstSeen : Bool
  /-- `IMG_W` (R26). -/
  imgW : Dim
  /-- `IMG_H` (R26). -/
  imgH : Dim
  /-- `PIX_COUNT` (R27). -/
  pixCount : Word
  /-- `DIG_BUF` (R28), in arrival order. -/
  digBuf : List Sym
  /-- `DIG_ERR` (R28). -/
  digErr : Bool
  /-- `DMEM` (R50). -/
  dmem : Memory
  /-- `PEND` (R29), oldest first. -/
  pend : List Item
  /-- `OUTQ` (R30), head first. -/
  outq : List Item
  deriving DecidableEq, Repr

/-- The steps of 41_control.md R110, as the environment may take them next. -/
inductive Event where
  /-- The host issues a command word. -/
  | issue (cmd : Cmd)
  /-- The core moves one item to `OUTQ` (R114). -/
  | drain
  /-- The host takes the head of `OUTQ` (R115). -/
  | pop
  /-- The host reads a status word (R117). -/
  | read (raddr : BitVec 3)
  /-- The environment asserts reset (R118). -/
  | reset
  deriving DecidableEq, Repr

/-- The machine: the block's state, and beside it what R20 says is not state: the parameters, and the inputs and
observations of the host and the environment (log entries 1 and 2). -/
structure State extends Block where
  /-- The parameters of R5; no step writes them. -/
  cfg : Config
  /-- The model's own: the steps host and environment take next, first first. -/
  agenda : List Event
  /-- The model's own: the items `pop` has returned (R115), oldest first. -/
  taken : List Item
  /-- The model's own: what the status port has returned (R117) and at which address, oldest first. -/
  reads : List (BitVec 3 × Word)
  deriving DecidableEq, Repr

/-- Why the machine stops. The spec gives the block no addressing fault (20_memory.md R53); these name what R53 calls
undefined. No step from a state that meets `Safety.Inv` raises one, so none occurs in a run from reset. -/
inductive Fault where
  /-- Raised by `dmemWrite` for a code outside `256..DICT_DEPTH-1`, which R53 leaves undefined. Safe: the machine stops. -/
  | dmemAddress (c : Nat)
  /-- Raised by `dmemRead` for a code whose entry nothing has written, which holds no value (R40). Safe: the machine
  stops. -/
  | dmemUnwritten (c : Nat)
  /-- Raised by `dictStr` and `dictFirst` where an entry's parent is not below its own code, against R39 item 4, so that
  R91's recursion would not end. Safe: the machine stops. -/
  | chainNotDescending (c : Nat)
  deriving DecidableEq, Repr

/-- Why a command has no meaning. -/
inductive Refusal where
  /-- Raised by an arm of `exec` whose command has no meaning yet. Safe: the machine stops. No arm raises it now. -/
  | notModelled (mnemonic : String)
  deriving DecidableEq, Repr

/-- Every element of the block at its reset value (10_state.md R38, 70_reset_and_hazards.md R230). `DMEM` holds no value
after reset: nothing is listed (R40; log entry 6). -/
def Block.reset : Block :=
  { mode := .idle, err := .noError, errOp := 0, errArg := 0, nextCode := 256, wValid := false, wCode := 0,
    firstSeen := false, imgW := 0, imgH := 0, pixCount := 0, digBuf := [], digErr := false, dmem := [], pend := [],
    outq := [] }

/-- An instance with parameters `cfg` right after reset, before host or environment has acted. -/
def State.resetWith (cfg : Config) : State :=
  { toBlock := Block.reset, cfg := cfg, agenda := [], taken := [], reads := [] }

/-- The machine right after reset, at R5's recommended parameters (log entry 2). -/
def State.reset : State := State.resetWith Config.recommended

end Sys2Proof.Machine
end

