-- ==== Sys2Proof/Machine/Ops.lean ====
section
/-!
DEFINITION. The named operations every command is built from: the result of a procedure, the dictionary memory (20_memory.md),
emission (R9), the error entry (R212) and its exit (R216, R119), and the dispatch checks every command shares (R111).
-/

namespace Sys2Proof.Machine

/-- What a procedure of a command gives: a value, a raised error with its recorded value (R9), or a model fault. -/
inductive Res (α : Type) where
  | ok (a : α)
  | raise (e : ErrCode) (arg : Word)
  | fault (f : Fault)
  deriving DecidableEq, Repr

/-- A raise ends the command at once (R9): what follows it does not run. -/
def Res.bind {α β : Type} (r : Res α) (f : α → Res β) : Res β :=
  match r with
  | .ok a => f a
  | .raise e arg => .raise e arg
  | .fault x => .fault x

/-- Apply a function to the value of a procedure that neither raised nor stopped. -/
def Res.map {α β : Type} (f : α → β) (r : Res α) : Res β :=
  match r with
  | .ok a => .ok (f a)
  | .raise e arg => .raise e arg
  | .fault x => .fault x

/-! ### The dictionary memory (R50, R53) -/

/-- The entry at a code, or none where nothing is written. -/
def Memory.read : Memory → Nat → Option Entry
  | [], _ => none
  | (a, e) :: m, c => if a = c then some e else Memory.read m c

/-- Write an entry, keeping the codes strictly rising. -/
def Memory.write : Memory → Nat → Entry → Memory
  | [], c, e => [(c, e)]
  | (a, x) :: m, c, e =>
    if c < a then (c, e) :: (a, x) :: m
    else if c = a then (c, e) :: m
    else (a, x) :: Memory.write m c e

/-- The one canonical form: codes strictly rising, each in `256..DICT_DEPTH-1` (R50). An unlisted code reads as no value,
so no entry can equal what an unlisted code reads as. -/
abbrev Memory.wf (depth : Nat) (m : Memory) : Prop :=
  m.Pairwise (fun x y => x.1 < y.1) ∧ ∀ x ∈ m, 256 ≤ x.1 ∧ x.1 < depth

/-- The lowest code in `256..next-1` whose entry is `(p, s)` (R92). -/
def Memory.find : Memory → Nat → Word → Sym → Option Nat
  | [], _, _, _ => none
  | (a, e) :: m, next, p, s =>
    if 256 ≤ a ∧ a < next ∧ e = { parent := p, suffix := s } then some a else Memory.find m next p s

/-- `MemRead(c, 1)` (R53). An entry nothing has written holds no value (R40): log entry 7. -/
def dmemRead (m : Memory) (c : Nat) : Res Entry :=
  match Memory.read m c with
  | some e => .ok e
  | none => .fault (.dmemUnwritten c)

/-- `MemWrite(c, 1, e)` (R53), for the codes R50 gives an entry. -/
def dmemWrite (depth : Nat) (m : Memory) (c : Nat) (e : Entry) : Res Memory :=
  if 256 ≤ c ∧ c < depth then .ok (Memory.write m c e) else .fault (.dmemAddress c)

/-! ### Emission (R9, R29) -/

/-- `emit(kind, value)`: append an item to `PEND`. -/
def emit (kind : Kind) (value : Word) (b : Block) : Block :=
  { b with pend := b.pend ++ [{ kind := kind, data := value }] }

/-- `for s in str: emit(SYM, s)` (R142), first symbol first. -/
def emitSyms (str : Str) (b : Block) : Block :=
  { b with pend := b.pend ++ str.map (fun s => { kind := .sym, data := s.setWidth 32 }) }

/-! ### Taking an error, and leaving it (R212, R216) -/

/-- `ErrorEntry(s, E, op, a)` (R212): from the state before the command, `MODE`, `ERR`, `ERR_OP` and `ERR_ARG` are written
and nothing else. -/
def errorEntry (e : ErrCode) (op : BitVec 8) (arg : Word) (b : Block) : Block :=
  { b with mode := .error, err := e, errOp := op, errArg := arg }

/-- `DictInit()` (R90): `NEXT_CODE <- 256`, and no entry is written. -/
def dictInit (b : Block) : Block := { b with nextCode := 256 }

/-- `OpInit()` (R119), the part every BEGIN shares; it is also the exit from an error (R216). It touches neither `PEND` nor
`OUTQ`. -/
def opInit (b : Block) : Block :=
  { dictInit b with
    wValid := false, wCode := 0, firstSeen := false, imgW := 0, imgH := 0, pixCount := 0, digBuf := [],
    digErr := false, err := .noError, errOp := 0, errArg := 0 }

/-! ### Dispatch of a legal command (R111) -/

/-- Give the block of a machine a new state; parameters and host side stay. -/
def withBlock (s : State) (b : Block) : State := { s with toBlock := b }

/-- `raise` before any write of the command: the error entry (R212). -/
def raiseError (e : ErrCode) (op : BitVec 8) (arg : Word) (s : State) : State :=
  withBlock s (errorEntry e op arg s.toBlock)

/-- The end of a command (R10, R213): all its writes, or the error entry on the state before it. -/
def finish (op : BitVec 8) (s : State) : Res Block → Host.Outcome State Fault Refusal
  | .ok b => .next (withBlock s b)
  | .raise e arg => .next (raiseError e op arg s)
  | .fault f => .fault f

/-- A stream or END command, legal in mode `m` only (R111): dropped in `ERROR`, `ProtocolError` in every other mode. -/
def inOperation (m : Mode) (op : BitVec 8) (x : Word) (body : Block → Res Block) (s : State) :
    Host.Outcome State Fault Refusal :=
  if s.mode = .error then .next s
  else if s.mode = m then finish op s (body s.toBlock)
  else .next (raiseError .protocol op x s)

/-- A BEGIN command, legal in `IDLE` and `ERROR` (R111): `ProtocolError` while an operation is in progress. -/
def beginOperation (op : BitVec 8) (x : Word) (body : Block → Block) (s : State) : Host.Outcome State Fault Refusal :=
  if s.mode = .idle ∨ s.mode = .error then .next (withBlock s (body s.toBlock))
  else .next (raiseError .protocol op x s)

end Sys2Proof.Machine
end

