-- ==== Sys2Proof/Machine/Flags.lean ====
section
/-!
DEFINITION. The status flags and the status read port (10_state.md R29, R31 to R35), the numbers of `MODE` (R21) and `ERR`
(R200), and the output item as a word (30_encoding.md R76).
-/

namespace Sys2Proof.Machine

/-- The 3-bit value of `MODE` (R21). -/
def modeBits : Mode → BitVec 3
  | .idle => 0
  | .enc => 1
  | .dec => 2
  | .penc => 3
  | .pdec => 4
  | .error => 7

/-- `code(E)`, the 4-bit value of `ERR` (R200). -/
def errBits : ErrCode → BitVec 4
  | .noError => 0
  | .emptyInput => 1
  | .unknownCode => 2
  | .corruptStream => 3
  | .pixelRange => 4
  | .malformedDigitStream => 5
  | .sizeMismatch => 6
  | .malformedFile => 7
  | .dictFull => 8
  | .protocol => 9
  | .illegalCommand => 10
  | .symbolRange => 11

/-- The 2-bit value of an item's kind (R76). -/
def kindBits : Kind → BitVec 2
  | .code => 0
  | .sym => 1
  | .pix => 2

/-- An output item as its 34-bit word: kind above data (R76). -/
def itemWord (i : Item) : BitVec 34 := kindBits i.kind ++ i.data

/-- `READY = (PEND = [])` (R29). -/
def ready (b : Block) : Bool := b.pend.isEmpty

/-- `OUT_EMPTY`: `OUTQ` is empty (R34). -/
def outEmpty (b : Block) : Bool := b.outq.isEmpty

/-- `DIG_PHASE = len(DIG_BUF)`, 0, 1 or 2 (R34). -/
def digPhase (b : Block) : BitVec 2 := BitVec.ofNat 2 b.digBuf.length

/-- The `STATUS` word (R34): bits 31..14 reserved and 0, then `OUT_EMPTY`, `DIG_PHASE`, `DIG_ERR`, `FIRST_SEEN`, `W_VALID`,
`ERR`, `READY`, `MODE`. -/
def statusWord (b : Block) : Word :=
  0#18 ++ BitVec.ofBool (outEmpty b) ++ digPhase b ++ BitVec.ofBool b.digErr ++ BitVec.ofBool b.firstSeen ++
    BitVec.ofBool b.wValid ++ errBits b.err ++ BitVec.ofBool (ready b) ++ modeBits b.mode

/-- The word the status port returns at an address (R32, R33). -/
def statusRead (cfg : Config) (raddr : BitVec 3) (b : Block) : Word :=
  match raddr.toNat with
  | 0 => statusWord b
  | 1 => b.nextCode
  | 2 => b.wCode
  | 3 => b.imgW ++ b.imgH
  | 4 => b.pixCount
  | 5 => b.errOp.setWidth 32
  | 6 => b.errArg
  | _ => BitVec.ofNat 32 cfg.dictDepth

end Sys2Proof.Machine
end

