-- ==== Sys2Proof/Machine/Control.lean ====
section
/-!
DEFINITION. Control (41_control.md): `NOP` (R113), an illegal word (R111, R73), the output drain (R114), and the steps of host
and environment (R115, R117, R118).
-/

namespace Sys2Proof.Machine

/-- `NOP` (R113): no effect, in every mode. -/
def execNop (s : State) : Host.Outcome State Fault Refusal := .next s

/-- An accepted word that is not legal (R111): dropped in `ERROR`, else `IllegalCommandError` with the word's operand field
and opcode field (R211). -/
def illegalWord (cmd : Cmd) (s : State) : Host.Outcome State Fault Refusal :=
  if s.mode = .error then .next s else .next (raiseError .illegalCommand (cmdOpcode cmd) (cmdOperand cmd) s)

/-- `drain` is enabled iff `PEND != []` and `len(OUTQ) < OUT_DEPTH` (R110). -/
def drainEnabled (cfg : Config) (b : Block) : Bool := !b.pend.isEmpty && decide (b.outq.length < cfg.outDepth)

/-- `drain` (R114): the head of `PEND` goes to the tail of `OUTQ`; nothing where it is not enabled. -/
def drainBlock (cfg : Config) (b : Block) : Block :=
  if drainEnabled cfg b then { b with outq := b.outq ++ b.pend.take 1, pend := b.pend.drop 1 } else b

/-- The core's autonomous step (R110): `drain` where it is enabled; else the block holds its state (R225, R235). -/
def drainStep (s : State) : State := withBlock s (drainBlock s.cfg s.toBlock)

/-- `pop` (R115): the host takes the head of `OUTQ`; nothing where `OUTQ` is empty. -/
def popStep (s : State) : State :=
  { s with outq := s.outq.drop 1, taken := s.taken ++ s.outq.take 1 }

/-- `read(raddr)` (R117): the host gets the status word of the current state; the block changes no state. -/
def readStep (raddr : BitVec 3) (s : State) : State :=
  { s with reads := s.reads ++ [(raddr, statusRead s.cfg raddr s.toBlock)] }

/-- Reset (R118, R230): every element of the block takes its reset value; items in `PEND` and `OUTQ` are lost (R231). What
the host already holds is the host's. -/
def resetStep (s : State) : State := withBlock s Block.reset

/-- The host waits until `READY` and takes every item (R83, 95_test_vectors.md "the host pops every item as soon as it
appears"): drains and pops until both queues are empty, as one operation. -/
def settle (s : State) : State :=
  { s with pend := [], outq := [], taken := s.taken ++ s.outq ++ s.pend }

end Sys2Proof.Machine
end

