-- ==== Sys2Proof/Machine/Operands.lean ====
section
/-!
DEFINITION. Operands and the numbers built from them: `signed32`, `sat32` (00_scope.md R7), the range checks of forms `SYM`
and `PIX` (30_encoding.md R71), and the digits of a pixel (R79, R181). Form `DIM` is assembled in Decode.lean.
-/

namespace Sys2Proof.Machine

/-- `signed32(x)` (R7): the integer whose 32-bit two's-complement form is `x`. -/
def signed32 (x : Word) : Int := x.toInt

/-- `sat32(n) = min(n, 2^32 - 1)` (R7). -/
def sat32 (n : Nat) : Word := BitVec.ofNat 32 (min n (2 ^ 32 - 1))

/-- `zext_32(s)` of a symbol (R7). -/
def symWord (s : Sym) : Word := s.setWidth 32

/-- The range check of form `SYM` (R71): a symbol is below 256. -/
abbrev symInRange (c : Word) : Prop := c.toNat < 256

/-- The symbol of an operand in range. -/
def wordSym (c : Word) : Sym := c.setWidth 8

/-- The range check of form `PIX` (R71): `0 <= v <= 255`. -/
abbrev pixInRange (v : Word) : Prop := 0 ≤ signed32 v ∧ signed32 v ≤ 255

/-- The symbol of a decimal digit: digit `d` is code point `48 + d` (R79, G1). -/
def digitSym (d : Nat) : Sym := BitVec.ofNat 8 (48 + d)

/-- `PixDigits(v)` (R79): hundreds, tens, units (R56). -/
def pixDigits (v : Nat) : Str := [digitSym (v / 100), digitSym (v / 10 % 10), digitSym (v % 10)]

/-- A decimal digit character (R181, D15): code points 48 to 57. -/
abbrev isDigit (s : Sym) : Prop := 48 ≤ s.toNat ∧ s.toNat ≤ 57

/-- The value of three digit symbols (R181), 0 to 999. -/
def chunkValue (x y z : Sym) : Nat := 100 * (x.toNat - 48) + 10 * (y.toNat - 48) + (z.toNat - 48)

/-- A valid chunk (R181): three digits whose value is at most 255. -/
abbrev chunkValid (x y z : Sym) : Prop := (isDigit x ∧ isDigit y ∧ isDigit z) ∧ chunkValue x y z ≤ 255

end Sys2Proof.Machine
end

