-- ==== Sys2Proof/Machine/Dictionary.lean ====
section
/-!
DEFINITION. The dictionary core both codecs share (40_dictionary.md): the entry functions (R91), the encoder's lookup (R92), the
insert (R93) and the growth states (R94). `DictInit` (R90) stands in Ops.lean beside `OpInit`.
-/

namespace Sys2Proof.Machine

/-- `Str(c)` (R91) with fuel for the recursion on the parent: a chain descends (R39 item 4), so `c + 1` steps suffice. -/
def dictStrFuel (m : Memory) : Nat → Nat → Res Str
  | 0, c => .fault (.chainNotDescending c)
  | fuel + 1, c =>
    if c < 256 then .ok [BitVec.ofNat 8 c]
    else
      (dmemRead m c).bind fun e =>
        if e.parent.toNat < c then (dictStrFuel m fuel e.parent.toNat).map (fun str => str ++ [e.suffix])
        else .fault (.chainNotDescending c)

/-- `Str(c)` (R91): the string a code denotes. -/
def dictStr (m : Memory) (c : Nat) : Res Str := dictStrFuel m (c + 1) c

/-- `First(c)` (R91) with fuel, as `dictStrFuel`. -/
def dictFirstFuel (m : Memory) : Nat → Nat → Res Sym
  | 0, c => .fault (.chainNotDescending c)
  | fuel + 1, c =>
    if c < 256 then .ok (BitVec.ofNat 8 c)
    else
      (dmemRead m c).bind fun e =>
        if e.parent.toNat < c then dictFirstFuel m fuel e.parent.toNat else .fault (.chainNotDescending c)

/-- `First(c)` (R91): the first symbol of a code's string. -/
def dictFirst (m : Memory) (c : Nat) : Res Sym := dictFirstFuel m (c + 1) c

/-- `DictFind(p, s)` (R92): the code of `Str(p) ++ [s]`, if that string is a key. Only codes below `NEXT_CODE` are looked at
(R52, R102). -/
def dictFind (p : Word) (s : Sym) (b : Block) : Option Word :=
  (Memory.find b.dmem b.nextCode.toNat p s).map (BitVec.ofNat 32)

/-- `DictInsert(p, s)` (R93), under capacity `depth`; `operand` is `cmd[31:0]` of the current command. -/
def dictInsert (depth : Nat) (operand p : Word) (s : Sym) (b : Block) : Res Block :=
  if b.nextCode.toNat = depth then .raise .dictFull operand
  else
    (dmemWrite depth b.dmem b.nextCode.toNat { parent := p, suffix := s }).map fun m =>
      { b with dmem := m, nextCode := b.nextCode + 1 }

/-- The states of the dictionary growth FSM (R94). -/
inductive Growth where
  | seed | growing | full
  deriving DecidableEq, Repr

/-- The growth state, a view of `NEXT_CODE` (R94). -/
def growth (depth : Nat) (b : Block) : Growth :=
  if b.nextCode.toNat = depth then .full else if b.nextCode.toNat = 256 then .seed else .growing

end Sys2Proof.Machine
end

