-- ==== Sys2Proof/Machine/GenericDecode.lean ====
section
/-!
DEFINITION. The generic LZW decoder (43_generic_decode.md): `DecStep` (R141), `D_BEGIN` (R140), `D_CODE` (R142), `D_END` (R143).
-/

namespace Sys2Proof.Machine

/-- The classification of a later code (R141): `first_symbol(entry)` for a known key, `first_symbol(w)` in the
self-reference case, else `CorruptStreamError`. -/
def decClassify (k : Word) (b : Block) : Res Sym :=
  if k.toNat < b.nextCode.toNat then dictFirst b.dmem k.toNat
  else if k = b.nextCode then dictFirst b.dmem b.wCode.toNat
  else .raise .corruptStream k

/-- The first code of an operation (R141, step 3 of the source). -/
def decFirstCode (k : Word) (b : Block) : Res (Block × Str) :=
  if k.toNat < 256 then .ok ({ b with firstSeen := true, wCode := k }, [wordSym k]) else .raise .unknownCode k

/-- A later code of an operation (R141, step 4 of the source): classify, insert `w + first_symbol(entry)`, set `w` to the
entry, and give the entry's string. -/
def decLaterCode (depth : Nat) (k : Word) (b : Block) : Res (Block × Str) :=
  (decClassify k b).bind fun f =>
    (dictInsert depth k b.wCode f b).bind fun b' =>
      (dictStr b'.dmem k.toNat).map fun str => ({ b' with wCode := k }, str)

/-- `DecStep(k)` (R141): the block after it, and the string `k` stands for. -/
def decStep (depth : Nat) (k : Word) (b : Block) : Res (Block × Str) :=
  if b.firstSeen then decLaterCode depth k b else decFirstCode k b

/-- The rule of `D_BEGIN` (R140). -/
def dBeginBody (b : Block) : Block := { opInit b with mode := .dec }

/-- The rule of `D_CODE k` (R142). -/
def dCodeBody (depth : Nat) (k : Word) (b : Block) : Res Block :=
  (decStep depth k b).map fun r => emitSyms r.2 r.1

/-- The rule of `D_END` (R143). -/
def dEndBody (b : Block) : Res Block :=
  if b.firstSeen then .ok { b with mode := .idle } else .raise .emptyInput 0

/-- `D_BEGIN` (R140, R111). -/
def execDBegin (s : State) : Host.Outcome State Fault Refusal :=
  beginOperation (Instr.opcode .dBegin) (Instr.operand .dBegin) dBeginBody s

/-- `D_CODE k` (R142, R111). -/
def execDCode (k : Word) (s : State) : Host.Outcome State Fault Refusal :=
  inOperation .dec (Instr.opcode (.dCode k)) (Instr.operand (.dCode k)) (dCodeBody s.cfg.dictDepth k) s

/-- `D_END` (R143, R111). -/
def execDEnd (s : State) : Host.Outcome State Fault Refusal :=
  inOperation .dec (Instr.opcode .dEnd) (Instr.operand .dEnd) dEndBody s

end Sys2Proof.Machine
end

