-- ==== Sys2Proof/Machine/GenericEncode.lean ====
section
/-!
DEFINITION. The generic LZW encoder (42_generic_encode.md): `EncStep` (R121), `EncFlush` (R123), `E_BEGIN` (R120), `E_SYM`
(R122), `E_END` (R124).
-/

namespace Sys2Proof.Machine

/-- `EncStep(c)` (R121). `operand` is what `DictFullError` records (R93). -/
def encStep (depth : Nat) (operand : Word) (c : Sym) (b : Block) : Res Block :=
  if b.wValid then
    match dictFind b.wCode c b with
    | some e => .ok { b with wCode := e }
    | none =>
      (dictInsert depth operand b.wCode c (emit .code b.wCode b)).map fun b' => { b' with wCode := symWord c }
  else .ok { b with wCode := symWord c, wValid := true }

/-- `EncStep` of each symbol of a string in turn, inside one command (R161). -/
def encSteps (depth : Nat) (operand : Word) : Str → Block → Res Block
  | [], b => .ok b
  | c :: cs, b => (encStep depth operand c b).bind (encSteps depth operand cs)

/-- `EncFlush()` (R123). -/
def encFlush (b : Block) : Block := if b.wValid then emit .code b.wCode b else b

/-- The rule of `E_BEGIN` (R120). -/
def eBeginBody (b : Block) : Block := { opInit b with mode := .enc }

/-- The rule of `E_SYM c` (R122). -/
def eSymBody (depth : Nat) (c : Word) (b : Block) : Res Block :=
  if symInRange c then encStep depth c (wordSym c) b else .raise .symbolRange c

/-- The rule of `E_END` (R124). -/
def eEndBody (b : Block) : Block := { encFlush b with mode := .idle }

/-- `E_BEGIN` (R120, R111). -/
def execEBegin (s : State) : Host.Outcome State Fault Refusal :=
  beginOperation (Instr.opcode .eBegin) (Instr.operand .eBegin) eBeginBody s

/-- `E_SYM c` (R122, R111). -/
def execESym (c : Word) (s : State) : Host.Outcome State Fault Refusal :=
  inOperation .enc (Instr.opcode (.eSym c)) (Instr.operand (.eSym c)) (eSymBody s.cfg.dictDepth c) s

/-- `E_END` (R124, R111). -/
def execEEnd (s : State) : Host.Outcome State Fault Refusal :=
  inOperation .enc (Instr.opcode .eEnd) (Instr.operand .eEnd) (fun b => .ok (eEndBody b)) s

end Sys2Proof.Machine
end

