-- ==== Sys2Proof/Machine/PixelEncode.lean ====
section
/-!
DEFINITION. The fixed-width pixel encoder (44_pixel_encode.md): `SerializePixel` (R161), `P_BEGIN` (R160), `P_PIX` (R162),
`P_END` (R163).
-/

namespace Sys2Proof.Machine

/-- `SerializePixel(v)` (R161): `EncStep` of the three digits, hundreds first. -/
def serializePixel (depth : Nat) (operand : Word) (v : Nat) (b : Block) : Res Block :=
  encSteps depth operand (pixDigits v) b

/-- `PIX_COUNT <- sat32(PIX_COUNT + 1)` (R27). -/
def countPixel (b : Block) : Block := { b with pixCount := sat32 (b.pixCount.toNat + 1) }

/-- The rule of `P_BEGIN W, H` (R160). -/
def pBeginBody (w h : Dim) (b : Block) : Block := { opInit b with imgW := w, imgH := h, mode := .penc }

/-- The rule of `P_PIX v` (R162). -/
def pPixBody (depth : Nat) (v : Word) (b : Block) : Res Block :=
  if pixInRange v then (serializePixel depth v (signed32 v).toNat b).map countPixel else .raise .pixelRange v

/-- The rule of `P_END` (R163). -/
def pEndBody (b : Block) : Block := { encFlush b with mode := .idle }

/-- `P_BEGIN W, H` (R160, R111). -/
def execPBegin (w h : Dim) (s : State) : Host.Outcome State Fault Refusal :=
  beginOperation (Instr.opcode (.pBegin w h)) (Instr.operand (.pBegin w h)) (pBeginBody w h) s

/-- `P_PIX v` (R162, R111). -/
def execPPix (v : Word) (s : State) : Host.Outcome State Fault Refusal :=
  inOperation .penc (Instr.opcode (.pPix v)) (Instr.operand (.pPix v)) (pPixBody s.cfg.dictDepth v) s

/-- `P_END` (R163, R111). -/
def execPEnd (s : State) : Host.Outcome State Fault Refusal :=
  inOperation .penc (Instr.opcode .pEnd) (Instr.operand .pEnd) (fun b => .ok (pEndBody b)) s

end Sys2Proof.Machine
end

