-- ==== Sys2Proof/Machine/PixelDecode.lean ====
section
/-!
DEFINITION. The fixed-width pixel decoder (45_pixel_decode.md): `DigitPush` (R181), `PD_BEGIN` (R180), `PD_CODE` (R182),
`PD_END` (R183).
-/

namespace Sys2Proof.Machine

/-- A completed chunk (R181): counted; emitted as a pixel if it is valid, else `DIG_ERR <- 1`. -/
def completeChunk (x y z : Sym) (b : Block) : Block :=
  if chunkValid x y z then emit .pix (BitVec.ofNat 32 (chunkValue x y z)) (countPixel { b with digBuf := [] })
  else { countPixel { b with digBuf := [] } with digErr := true }

/-- `DigitPush(s)` (R181). -/
def digitPush (s : Sym) (b : Block) : Block :=
  match b.digBuf ++ [s] with
  | [x, y, z] => completeChunk x y z b
  | buf => { b with digBuf := buf }

/-- `for s in str: DigitPush(s)` (R182), first symbol first. -/
def digitPushes : Str → Block → Block
  | [], b => b
  | s :: str, b => digitPushes str (digitPush s b)

/-- The value `MalformedDigitStreamError` records: bit 0 is `DIG_ERR`, bits 2..1 are `len(DIG_BUF)` (R183, R205). -/
def malformedArg (b : Block) : Word := BitVec.ofNat 32 (b.digErr.toNat + 2 * b.digBuf.length)

/-- The rule of `PD_BEGIN W, H` (R180). -/
def pdBeginBody (w h : Dim) (b : Block) : Block := { opInit b with imgW := w, imgH := h, mode := .pdec }

/-- The rule of `PD_CODE k` (R182). -/
def pdCodeBody (depth : Nat) (k : Word) (b : Block) : Res Block :=
  (decStep depth k b).map fun r => digitPushes r.2 r.1

/-- The rule of `PD_END` (R183): the three checks in order. -/
def pdEndBody (b : Block) : Res Block :=
  if b.firstSeen = false then .raise .emptyInput 0
  else if b.digErr = true ∨ b.digBuf.length ≠ 0 then .raise .malformedDigitStream (malformedArg b)
  else if b.pixCount.toNat ≠ b.imgW.toNat * b.imgH.toNat then .raise .sizeMismatch b.pixCount
  else .ok { b with mode := .idle }

/-- `PD_BEGIN W, H` (R180, R111). -/
def execPDBegin (w h : Dim) (s : State) : Host.Outcome State Fault Refusal :=
  beginOperation (Instr.opcode (.pdBegin w h)) (Instr.operand (.pdBegin w h)) (pdBeginBody w h) s

/-- `PD_CODE k` (R182, R111). -/
def execPDCode (k : Word) (s : State) : Host.Outcome State Fault Refusal :=
  inOperation .pdec (Instr.opcode (.pdCode k)) (Instr.operand (.pdCode k)) (pdCodeBody s.cfg.dictDepth k) s

/-- `PD_END` (R183, R111). -/
def execPDEnd (s : State) : Host.Outcome State Fault Refusal :=
  inOperation .pdec (Instr.opcode .pdEnd) (Instr.operand .pdEnd) pdEndBody s

end Sys2Proof.Machine
end

