-- ==== Sys2Proof/Machine/Dispatch.lean ====
section
/-!
DEFINITION. One arm per command: what an accepted legal command does (41_control.md R111).
-/

namespace Sys2Proof.Machine

def exec (i : Instr) (s : State) : Host.Outcome State Fault Refusal :=
  match i with
  | .nop => Sys2Proof.Machine.execNop s
  | .eBegin => Sys2Proof.Machine.execEBegin s
  | .eSym c => Sys2Proof.Machine.execESym c s
  | .eEnd => Sys2Proof.Machine.execEEnd s
  | .dBegin => Sys2Proof.Machine.execDBegin s
  | .dCode k => Sys2Proof.Machine.execDCode k s
  | .dEnd => Sys2Proof.Machine.execDEnd s
  | .pBegin w h => Sys2Proof.Machine.execPBegin w h s
  | .pPix v => Sys2Proof.Machine.execPPix v s
  | .pEnd => Sys2Proof.Machine.execPEnd s
  | .pdBegin w h => Sys2Proof.Machine.execPDBegin w h s
  | .pdCode k => Sys2Proof.Machine.execPDCode k s
  | .pdEnd => Sys2Proof.Machine.execPDEnd s

end Sys2Proof.Machine
end

