-- ==== Sys2Proof/Machine/Accept.lean ====
section
/-!
DEFINITION. Accepting a command word and taking the next step of the agenda (41_control.md R110, R111). This is the fetch of a
block that fetches nothing: a command is an input on the channel (R36, R63).
-/

namespace Sys2Proof.Machine

/-- `Exec(cmd)` (R111): a legal word runs its command, an illegal one is dropped or raises. -/
def execWord (cmd : Cmd) (s : State) : Host.Outcome State Fault Refusal :=
  match decode cmd with
  | .ok i => exec i s
  | .error _ => illegalWord cmd s

/-- The command channel (R110): with `READY` the word at the head is accepted and leaves the channel; else it waits, and the
core drains if it can (R234). -/
def issueStep (cmd : Cmd) (rest : List Event) (s : State) : Host.Outcome State Fault Refusal :=
  if ready s.toBlock then execWord cmd { s with agenda := rest } else .next (drainStep s)

/-- The next step of the system (R110), as the agenda has it. With nothing on the agenda the core takes its own step. -/
def agendaStep (s : State) : Host.Outcome State Fault Refusal :=
  match s.agenda with
  | [] => .next (drainStep s)
  | .issue cmd :: rest => issueStep cmd rest s
  | .drain :: rest => .next (drainStep { s with agenda := rest })
  | .pop :: rest => .next (popStep { s with agenda := rest })
  | .read raddr :: rest => .next (readStep raddr { s with agenda := rest })
  | .reset :: rest => .next (resetStep { s with agenda := rest })

/-- Put a command word at the head of the channel of a `READY` block, so that the next step accepts it. A block that is not
`READY` is first waited for (`settle`): no item is lost, all go to the host in order. -/
def presentWord (cmd : Cmd) (s : State) : State :=
  let s' := if ready s.toBlock then s else settle s
  { s' with agenda := .issue cmd :: s'.agenda }

end Sys2Proof.Machine
end

