-- ==== Sys2Proof/Machine/Step.lean ====
section
/-!
DEFINITION. One step of the machine, and where its next command is placed (41_control.md R110; log entries 3 and 4).
-/

namespace Sys2Proof.Machine

/-- One step: the next of the agenda, or the core's own. -/
def step (s : State) : Host.Outcome State Fault Refusal := agendaStep s

/-- `s` with the command word `w`, its bits above `nbits` 0, presented so that the very next step accepts it. -/
def State.withFetchWord (s : State) (nbits w : Nat) : State := presentWord (BitVec.ofNat 40 (w % 2 ^ nbits)) s

end Sys2Proof.Machine
end

