-- ==== Sys2Proof/Machine/Operation.lean ====
section
/-!
DEFINITION. Operations (41_control.md R116): when one starts and ends, its verdict and its items along a run of steps; commands issued
one after another, each followed by the host's wait and pop; and the host's reading of the result (70_reset_and_hazards.md R231,
R232, R236, R238).
-/

namespace Sys2Proof.Machine

/-- Issue commands in order; after each the host waits until `READY` and takes every item (R83, R222). -/
def issueAll : List Instr → State → Host.Outcome State Fault Refusal
  | [], s => .next s
  | i :: is, s =>
    match exec i s with
    | .next s' => issueAll is (settle s')
    | .fault f => .fault f
    | .refused r => .refused r

/-- A generic encode of a string (R126). -/
def encodeOperation (str : Str) : List Instr := .eBegin :: str.map (fun c => .eSym (c.setWidth 32)) ++ [.eEnd]

/-- A generic decode of a code sequence (R145). -/
def decodeOperation (codes : List Word) : List Instr := .dBegin :: codes.map .dCode ++ [.dEnd]

/-- A pixel encode of pixels in the order given (R164). -/
def pixelEncodeOperation (w h : Dim) (pixels : List Word) : List Instr :=
  .pBegin w h :: pixels.map .pPix ++ [.pEnd]

/-- A pixel decode of a code sequence (R186). -/
def pixelDecodeOperation (w h : Dim) (codes : List Word) : List Instr :=
  .pdBegin w h :: codes.map .pdCode ++ [.pdEnd]

/-- An operation is in progress: its BEGIN has run and no later command has left `MODE` in `IDLE` or `ERROR` (R116). -/
def inProgress (b : Block) : Bool :=
  match b.mode with
  | .enc => true
  | .dec => true
  | .penc => true
  | .pdec => true
  | .idle => false
  | .error => false

/-- The command word that the next step accepts (R110): the head of the channel, if the block is `READY`. -/
def acceptedWord (s : State) : Option Cmd :=
  match s.agenda with
  | .issue cmd :: _ => if ready s.toBlock then some cmd else none
  | _ => none

/-- The next step is a reset (R118). -/
def resetNext (s : State) : Bool :=
  match s.agenda with
  | .reset :: _ => true
  | _ => false

/-- An operation starts where an accepted word is a BEGIN command whose rule runs (R116, R111): from `IDLE` or `ERROR`. A BEGIN
accepted while an operation is in progress raises `ProtocolError`, which ends that operation and starts none (log entry 21). -/
def startsOperation (cmd : Cmd) (b : Block) : Bool :=
  match decode cmd with
  | .ok .eBegin => !inProgress b
  | .ok .dBegin => !inProgress b
  | .ok (.pBegin _ _) => !inProgress b
  | .ok (.pdBegin _ _) => !inProgress b
  | _ => false

/-- How an operation stands (R116, R232). -/
inductive Verdict where
  /-- Started and not ended. -/
  | running
  /-- Ended in `IDLE` by its END command. -/
  | succeeded
  /-- Ended in `ERROR` by a command that raised this error. -/
  | failed (e : ErrCode)
  /-- A reset came before it ended, or before the host had popped all its items: it has no result (R231, R232). -/
  | aborted
  deriving DecidableEq, Repr

/-- An operation: how it stands, and the items its commands have emitted, in emission order (R116). -/
structure Operation where
  verdict : Verdict
  items : List Item
  deriving DecidableEq, Repr

/-- How an operation in progress stands after an accepted command that leaves the block `b` (R116). -/
def verdictAfter (b : Block) : Verdict :=
  match b.mode with
  | .idle => .succeeded
  | .error => .failed b.err
  | .enc => .running
  | .dec => .running
  | .penc => .running
  | .pdec => .running

/-- An operation after a command is accepted that leaves the block `b`: while it runs, the command's items are its own, all of `PEND`,
which was empty at the acceptance (R110). Once it has ended, no later command is its own. -/
def Operation.accept (op : Operation) (b : Block) : Operation :=
  match op.verdict with
  | .running => { verdict := verdictAfter b, items := op.items ++ b.pend }
  | .succeeded => op
  | .failed _ => op
  | .aborted => op

/-- The host has popped every item of an operation that has ended: it emitted none, or both queues are empty. No later operation has
started, so the items in the queues are its own or, before them, an earlier one's; where it emitted any, the last of them is its own. -/
def Operation.fullyPopped (op : Operation) (b : Block) : Bool := op.items.isEmpty || ready b && outEmpty b

/-- An operation after a reset in block state `b` (R231, R232): one that was in progress, or not fully popped, has no result. -/
def Operation.reset (op : Operation) (b : Block) : Operation :=
  if op.verdict = .running ∨ op.fullyPopped b = false then { op with verdict := .aborted } else op

/-- The last operation started, after a step from `s` to `t` (R116): a BEGIN starts a new one, any other accepted command goes to the
one in progress, a reset meets it (`Operation.reset`), and no other step touches it. -/
def trackOperation (s t : State) (op : Option Operation) : Option Operation :=
  match acceptedWord s with
  | some cmd =>
    if startsOperation cmd s.toBlock then some { verdict := .running, items := [] }
    else op.map (fun o => o.accept t.toBlock)
  | none => if resetNext s then op.map (fun o => o.reset s.toBlock) else op

/-- What the host makes of an operation, looking in state `s` (R116, R236, R238): nothing while it runs, while `READY` or `OUT_EMPTY`
is 0, or after a reset that took its result (R231); else its result, the data of its items, or, of a failed one, its error and no item
(log entry 21). -/
def operationResult (op : Operation) (s : State) : Option (Except ErrCode (List Word)) :=
  if ready s.toBlock = true ∧ outEmpty s.toBlock = true then
    match op.verdict with
    | .running => none
    | .succeeded => some (.ok (op.items.map (·.data)))
    | .failed e => some (.error e)
    | .aborted => none
  else none

end Sys2Proof.Machine
end

