-- ==== Sys2Proof/Machine/Adapter.lean ====
section
/-!
DEFINITION. The host adapter's functions the spec states (60_exceptions.md R222 to R224; 30_encoding.md R80; 44_pixel_encode.md R165;
45_pixel_decode.md R184). They are outside the block (00_scope.md R4): no step calls them. Text is a list of characters. Integer
spelling and white space are log entry 13's.
-/

namespace Sys2Proof.Machine

/-- R224: a code or a symbol code point `>= 2^32` is presented as `0xFFFFFFFF`. -/
def saturateUnsigned (n : Nat) : Word := BitVec.ofNat 32 (min n (2 ^ 32 - 1))

/-- R224: a pixel value outside 32-bit two's complement is presented as the nearest value inside. -/
def saturatePixel (v : Int) : Word := BitVec.ofInt 32 (max (-(2 ^ 31)) (min v (2 ^ 31 - 1)))

/-- The pixels of a grid in row-major order (R165). -/
def rowMajor {α : Type} (grid : List (List α)) : List α := grid.flatten

/-- `h` rows of width `w` from a flat pixel sequence (R184): item `i` stands at row `i div W`, column `i mod W`. -/
def reshape {α : Type} (w : Nat) : Nat → List α → List (List α)
  | 0, _ => []
  | h + 1, pixels => pixels.take w :: reshape w h (pixels.drop w)

/-! ### Text -/

/-- White space inside a line (log entry 13, the model's choice): blank, tab and carriage return. -/
def isBlank (ch : Char) : Bool := ch == ' ' || ch == '\t' || ch == '\r'

/-- Split text at every character that meets `p`; the pieces between may be empty. -/
def splitText (p : Char → Bool) : List Char → List (List Char)
  | [] => [[]]
  | ch :: rest =>
    match splitText p rest with
    | [] => [[ch]]
    | piece :: pieces => if p ch then [] :: piece :: pieces else (ch :: piece) :: pieces

/-- The non-empty pieces of a line split on white space. -/
def splitBlanks (line : List Char) : List (List Char) := (splitText isBlank line).filter (fun w => !w.isEmpty)

/-- The value of a decimal digit character. -/
def digitValue (ch : Char) : Option Nat := if 48 ≤ ch.toNat ∧ ch.toNat ≤ 57 then some (ch.toNat - 48) else none

/-- Decimal digits read left to right, after the value `acc`. -/
def readDigits (acc : Nat) : List Char → Option Nat
  | [] => some acc
  | ch :: rest =>
    match digitValue ch with
    | none => none
    | some d => readDigits (10 * acc + d) rest

/-- A decimal natural: one digit or more. -/
def readNat : List Char → Option Nat
  | [] => none
  | ch :: rest => readDigits 0 (ch :: rest)

/-- A decimal integer (log entry 13, the model's choice): an optional minus sign and a natural, with nothing beside them. -/
def readInt : List Char → Option Int
  | '-' :: rest => (readNat rest).map (fun n => -(n : Int))
  | text => (readNat text).map (fun n => (n : Int))

/-- A width or height of a file (R223): an integer in `0..65535`. -/
def readDim (text : List Char) : Option Dim :=
  match readInt text with
  | none => none
  | some n => if 0 ≤ n ∧ n ≤ 65535 then some (BitVec.ofInt 16 n) else none

/-- A code of a file (R223): a non-negative integer, saturated for the command channel (R224). -/
def readCode (text : List Char) : Option Word :=
  match readInt text with
  | none => none
  | some n => if 0 ≤ n then some (saturateUnsigned n.toNat) else none

/-- Every piece read, or none if one fails. -/
def readCodes : List (List Char) → Option (List Word)
  | [] => some []
  | piece :: rest =>
    match readCode piece, readCodes rest with
    | some k, some ks => some (k :: ks)
    | _, _ => none

/-- The lines of a file; one empty line at its end is the file's last line break (log entry 13, the model's choice). -/
def fileLines (text : List Char) : List (List Char) :=
  let lines := splitText (fun ch => ch == '\n') text
  if lines.getLast? = some [] then lines.dropLast else lines

/-- A pixel codec file (R80): line 1 width and height, line 2 the codes; any parse failure is `MalformedFileError` (R223).
Log entry 13, the model's choice: an empty line 2, or none, is one piece that is no integer, so a file with no code is malformed; and
a file with anything after line 2 but one line break is malformed. -/
def parsePixelFile (text : List Char) : Except ErrCode (Dim × Dim × List Word) :=
  match fileLines text with
  | [line1, line2] =>
    match (splitBlanks line1).map readDim, readCodes (splitText (fun ch => ch == ',') line2) with
    | [some w, some h], some codes => .ok (w, h, codes)
    | _, _ => .error .malformedFile
  | _ => .error .malformedFile

/-- A generic codec file (R80): one line of codes separated by white space. Log entry 13, the model's choice: an empty file or line has no
codes, and a file with anything after its one line but one line break is malformed. -/
def parseGenericFile (text : List Char) : Except ErrCode (List Word) :=
  match fileLines text with
  | [] => .ok []
  | [line] =>
    match readCodes (splitBlanks line) with
    | some codes => .ok codes
    | none => .error .malformedFile
  | _ => .error .malformedFile

/-- Pieces of text joined by a separator. -/
def joinText (sep : List Char) : List (List Char) → List Char
  | [] => []
  | [piece] => piece
  | piece :: rest => piece ++ sep ++ joinText sep rest

/-- A natural in decimal, written with no leading zero (log entry 13, the model's choice). -/
def writeNat (n : Nat) : List Char := Nat.toDigits 10 n

/-- The pixel codec file of an encode (R80, R222): `IMG_W`, `IMG_H` and the codes. Log entry 13, the
model's choice: no blank beside a comma and no line break after line 2, so the file of an encode with no code is
line 1 and its line break. -/
def writePixelFile (w h : Dim) (codes : List Word) : List Char :=
  writeNat w.toNat ++ [' '] ++ writeNat h.toNat ++ ['\n'] ++ joinText [','] (codes.map (fun k => writeNat k.toNat))

/-- The generic codec file of an encode (R80). Log entry 13, the model's choice: one blank between two codes, no white space before the
first or after the last, and no line break at the end, so the file of an encode with no code is empty. -/
def writeGenericFile (codes : List Word) : List Char := joinText [' '] (codes.map (fun k => writeNat k.toNat))

/-- The commands the host issues to decode a pixel file; none for a file that does not parse (R223). -/
def pixelFileCommands (text : List Char) : Except ErrCode (List Instr) :=
  match parsePixelFile text with
  | .ok (w, h, codes) => .ok (pixelDecodeOperation w h codes)
  | .error e => .error e

/-- The commands the host issues to decode a generic file; none for a file that does not parse (R223). -/
def genericFileCommands (text : List Char) : Except ErrCode (List Instr) :=
  match parseGenericFile text with
  | .ok codes => .ok (decodeOperation codes)
  | .error e => .error e

/-- The commands the host issues to encode a grid of width `w` and height `h` (R164, R165, R224). -/
def gridCommands (w h : Dim) (grid : List (List Int)) : List Instr :=
  pixelEncodeOperation w h ((rowMajor grid).map saturatePixel)

/-- The commands the host issues to encode a text given as code points (R126, R224). -/
def textCommands (codePoints : List Nat) : List Instr :=
  .eBegin :: codePoints.map (fun c => .eSym (saturateUnsigned c)) ++ [.eEnd]

end Sys2Proof.Machine
end

