-- ==== Sys2Proof/Machine/Reference.lean ====
section
/-!
DEFINITION. The source's own algorithms on strings, as the spec transcribes them (the opening of 42_generic_encode.md,
43_generic_decode.md, 44_pixel_encode.md, 45_pixel_decode.md). No dictionary memory, no capacity: statements compare the block
with these (R126, R145, R164, R186). `keys` lists the strings of codes 256, 257, ... in order.
-/

namespace Sys2Proof.Machine

/-- The code of a key: a seed's code point, or 256 and its place among the inserted keys. -/
def refCode (keys : List Str) : Str → Option Nat
  | [c] => some c.toNat
  | str => (keys.findIdx? (fun k => decide (k = str))).map (256 + ·)

/-- The variables of §4.1 compress: the inserted keys, the running match `w`, the codes emitted. -/
structure RefEnc where
  keys : List Str
  w : Str
  out : List Nat
  deriving DecidableEq, Repr

/-- §4.1 compress, step 2, for one symbol. -/
def refEncStep (r : RefEnc) (c : Sym) : RefEnc :=
  if (refCode r.keys (r.w ++ [c])).isSome then { r with w := r.w ++ [c] }
  else { keys := r.keys ++ [r.w ++ [c]], w := [c], out := r.out ++ (refCode r.keys r.w).toList }

/-- §4.1 compress, steps 1 to 3. -/
def refCompress (str : Str) : List Nat :=
  let r := str.foldl refEncStep { keys := [], w := [], out := [] }
  if r.w = [] then r.out else r.out ++ (refCode r.keys r.w).toList

/-- The string of a known code. -/
def refString (keys : List Str) (k : Nat) : Option Str := if k < 256 then some [BitVec.ofNat 8 k] else keys[k - 256]?

/-- The variables of §4.1 decompress: the inserted keys, the previous entry `w`, the symbols put out. -/
structure RefDec where
  keys : List Str
  w : Str
  out : Str
  deriving DecidableEq, Repr

/-- The entry of a later code (§4.1 decompress, step 4): a known key, the self-reference case, or none. -/
def refEntry (r : RefDec) (k : Nat) : Option Str :=
  match refString r.keys k with
  | some entry => some entry
  | none => if k = 256 + r.keys.length then some (r.w ++ r.w.take 1) else none

/-- §4.1 decompress, step 4, for the codes after the first. -/
def refDecLoop (r : RefDec) : List Nat → Except ErrCode Str
  | [] => .ok r.out
  | k :: ks =>
    match refEntry r k with
    | none => .error .corruptStream
    | some entry =>
      refDecLoop { keys := r.keys ++ [r.w ++ entry.take 1], w := entry, out := r.out ++ entry } ks

/-- §4.1 decompress, steps 1 to 5. -/
def refDecompress : List Nat → Except ErrCode Str
  | [] => .error .emptyInput
  | k :: ks =>
    if k < 256 then refDecLoop { keys := [], w := [BitVec.ofNat 8 k], out := [BitVec.ofNat 8 k] } ks
    else .error .unknownCode

/-- §4.2 compress, steps 2 and 3, on the flat pixel sequence. -/
def refPixelCompress (pixels : List Int) : Except ErrCode (List Nat) :=
  if ∀ v ∈ pixels, 0 ≤ v ∧ v ≤ 255 then .ok (refCompress (pixels.flatMap (fun v => pixDigits v.toNat)))
  else .error .pixelRange

/-- The pixels of a digit stream cut in chunks of three (R181's reading, D15), none where §4.2 decompress step 2 fails. -/
def refChunks : Str → Option (List Nat)
  | [] => some []
  | x :: y :: z :: rest => if chunkValid x y z then (refChunks rest).map (chunkValue x y z :: ·) else none
  | _ => none

/-- §4.2 decompress, steps 1 to 3: the flat pixel sequence of a `w` by `h` image. -/
def refPixelDecompress (w h : Nat) (codes : List Nat) : Except ErrCode (List Nat) :=
  match refDecompress codes with
  | .error e => .error e
  | .ok stream =>
    match refChunks stream with
    | none => .error .malformedDigitStream
    | some pixels => if pixels.length = w * h then .ok pixels else .error .sizeMismatch

end Sys2Proof.Machine
end

