-- ==== Sys2Proof/Machine/System.lean ====
section
/-!
DEFINITION. A system of `N_INST` instances that share nothing (20_memory.md R64, 60_exceptions.md R221). The host's interface
(Core.lean) is one instance.
-/

namespace Sys2Proof.Machine

/-- The instances of a system; `N_INST` is its length (00_scope.md R5). -/
abbrev System := List State

/-- The parameters of a system are legal (R5): at least one instance, each in its range. -/
abbrev System.Legal (sys : System) : Prop := Config.LegalSystem (sys.map (·.cfg))

/-- Each instance starts in its reset state (R221). There is no system with parameters outside R5's ranges. -/
def systemReset (cfgs : List Config) : Option System :=
  if Config.LegalSystem cfgs then some (cfgs.map State.resetWith) else none

/-- One step of instance `n`; the others are not touched (R64). None where there is no such instance or it stops. -/
def systemStep (n : Nat) (sys : System) : Option System :=
  match sys[n]? with
  | none => none
  | some s =>
    match step s with
    | .next s' => some (sys.set n s')
    | .fault _ => none
    | .refused _ => none

end Sys2Proof.Machine
end

