-- ==== Sys2Proof/Safety.lean ====
section
/-!
DEFINITION. What claims are stated in: the string a code denotes as a relation (40_dictionary.md R91), the encoder's step as a
relation on memory reads (42_generic_encode.md R121), the invariant of a reachable state (10_state.md R39 and the rules it
gathers), and the encoder's own invariant (R96).
-/

namespace Sys2Proof.Safety

open Sys2Proof.Machine

/-- `Str(c)` of R91 as a relation: a seed denotes its one symbol; an entry denotes its parent's string and its suffix. -/
inductive Denotes (m : Memory) : Nat → Str → Prop where
  | seed (c : Nat) (h : c < 256) : Denotes m c [BitVec.ofNat 8 c]
  | entry (c : Nat) (e : Entry) (str : Str) (h : 256 ≤ c) (hr : Memory.read m c = some e) (hp : e.parent.toNat < c)
      (hd : Denotes m e.parent.toNat str) : Denotes m c (str ++ [e.suffix])

/-- Some code in `256..next-1` holds `(p, s)` (R92). -/
def HasPair (m : Memory) (next : Nat) (p : Word) (s : Sym) : Prop :=
  ∃ c, 256 ≤ c ∧ c < next ∧ Memory.read m c = some { parent := p, suffix := s }

/-- `e` is the lowest code in `256..next-1` that holds `(p, s)` (R92). -/
def LowestPair (m : Memory) (next : Nat) (p : Word) (s : Sym) (e : Nat) : Prop :=
  256 ≤ e ∧ e < next ∧ Memory.read m e = some { parent := p, suffix := s } ∧
    ∀ c, 256 ≤ c → c < e → Memory.read m c ≠ some { parent := p, suffix := s }

/-- `EncStep(c)` (R121) where it does not raise, as a relation between the block before and after. -/
inductive EncStepRel (depth : Nat) (c : Sym) (b : Block) : Block → Prop where
  /-- `w` is empty: it becomes `[c]`. -/
  | start (h : b.wValid = false) : EncStepRel depth c b { b with wCode := c.setWidth 32, wValid := true }
  /-- `wc` is a key: `w` becomes `wc`. -/
  | hit (e : Nat) (h : b.wValid = true) (he : LowestPair b.dmem b.nextCode.toNat b.wCode c e) :
      EncStepRel depth c b { b with wCode := BitVec.ofNat 32 e }
  /-- `wc` is not a key: emit the code of `w`, insert `wc` at the next free code, `w` becomes `[c]`. -/
  | miss (h : b.wValid = true) (hn : ¬ HasPair b.dmem b.nextCode.toNat b.wCode c) (hd : b.nextCode.toNat ≠ depth) :
      EncStepRel depth c b
        { b with
          pend := b.pend ++ [{ kind := .code, data := b.wCode }]
          dmem := Memory.write b.dmem b.nextCode.toNat { parent := b.wCode, suffix := c }
          nextCode := b.nextCode + 1
          wCode := c.setWidth 32 }

/-- `EncStep(c)` raises `DictFullError` (R121, R93): `wc` is not a key and the dictionary is full. -/
def EncFull (depth : Nat) (c : Sym) (b : Block) : Prop :=
  b.wValid = true ∧ ¬ HasPair b.dmem b.nextCode.toNat b.wCode c ∧ b.nextCode.toNat = depth

/-- The range of an item's data by its kind (30_encoding.md R77). -/
def ItemInRange (depth : Nat) (i : Item) : Prop :=
  match i.kind with
  | .code => i.data.toNat < depth
  | .sym => i.data.toNat < 256
  | .pix => i.data.toNat ≤ 255

/-- An encode operation is in progress. -/
abbrev Encoding (b : Block) : Prop := b.mode = .enc ∨ b.mode = .penc

/-- A decode operation is in progress. -/
abbrev Decoding (b : Block) : Prop := b.mode = .dec ∨ b.mode = .pdec

/-- The invariant of a reachable state: R39's six items (items 2 and 3 in the stronger form `w_known`) and what R5, R22, R24,
R25, R26, R27, R30, R50, R77 and R200 say of every state. -/
structure Inv (s : State) : Prop where
  /-- The parameters are legal (R5). -/
  cfg_legal : s.cfg.Legal
  /-- R39 item 1, R23. -/
  next_range : 256 ≤ s.nextCode.toNat ∧ s.nextCode.toNat ≤ s.cfg.dictDepth
  /-- R39 items 2 and 3, in every mode. -/
  w_known : s.wCode.toNat < s.nextCode.toNat
  /-- The memory has its canonical form, inside the codes of R50. -/
  memory_wf : Memory.wf s.cfg.dictDepth s.dmem
  /-- R39 item 4: every known entry is written and its parent is below it. -/
  entries : ∀ c, 256 ≤ c → c < s.nextCode.toNat → ∃ e, Memory.read s.dmem c = some e ∧ e.parent.toNat < c
  /-- R39 item 5, R22. -/
  err_iff : s.err = .noError ↔ s.mode ≠ .error
  /-- R207: the block never holds `MalformedFileError`. -/
  err_not_file : s.err ≠ .malformedFile
  /-- R22: only the error entry sets `ERR_OP` and `ERR_ARG`. -/
  err_regs : s.mode ≠ .error → s.errOp = 0 ∧ s.errArg = 0
  /-- R39 item 6, R28. -/
  dig_len : s.digBuf.length ≤ 2
  /-- R39 item 6, R28. -/
  dig_outside : s.mode ≠ .pdec → s.mode ≠ .error → s.digBuf = [] ∧ s.digErr = false
  /-- R24: decode does not use `W_VALID`. -/
  decode_w_valid : Decoding s.toBlock → s.wValid = false
  /-- R25: only decode sets `FIRST_SEEN`. -/
  encode_first : Encoding s.toBlock → s.firstSeen = false
  /-- R26, R27: generic operations leave the image registers 0. -/
  generic_image : s.mode = .enc ∨ s.mode = .dec → s.imgW = 0 ∧ s.imgH = 0 ∧ s.pixCount = 0
  /-- R30: the output FIFO holds at most `OUT_DEPTH` items. -/
  outq_len : s.outq.length ≤ s.cfg.outDepth
  /-- R77: every item not yet popped is in its kind's range. -/
  items : ∀ i ∈ s.pend ++ s.outq, ItemInRange s.cfg.dictDepth i

/-- R96: in an encode operation no two known codes denote one string. -/
def KeysDistinct (s : State) : Prop :=
  Encoding s.toBlock →
    ∀ c c' str, c < s.nextCode.toNat → c' < s.nextCode.toNat → Denotes s.dmem c str → Denotes s.dmem c' str → c = c'

/-- A reachable state: an instance with legal parameters runs from reset (R38, U6) under any agenda of host and environment. -/
inductive Reachable : State → Prop where
  | start (cfg : Config) (agenda : List Event) (h : cfg.Legal) : Reachable { State.resetWith cfg with agenda := agenda }
  | step (s t : State) (h : Reachable s) (hs : Sys2Proof.Machine.step s = .next t) : Reachable t

/-- The errors a command may raise itself, its own mode given (41_control.md R112, 60_exceptions.md R200). -/
def ownErrors : Instr → List ErrCode
  | .nop => []
  | .eBegin => []
  | .eSym _ => [.symbolRange, .dictFull]
  | .eEnd => []
  | .dBegin => []
  | .dCode _ => [.unknownCode, .corruptStream, .dictFull]
  | .dEnd => [.emptyInput]
  | .pBegin _ _ => []
  | .pPix _ => [.pixelRange, .dictFull]
  | .pEnd => []
  | .pdBegin _ _ => []
  | .pdCode _ => [.unknownCode, .corruptStream, .dictFull]
  | .pdEnd => [.emptyInput, .malformedDigitStream, .sizeMismatch]

/-- A BEGIN command (R111). -/
def isBegin : Instr → Bool
  | .eBegin => true
  | .dBegin => true
  | .pBegin _ _ => true
  | .pdBegin _ _ => true
  | _ => false

/-- The mode of the operation a command belongs to (R72, column "legal in MODE", and what BEGIN enters). -/
def ownMode : Instr → Mode
  | .nop => .idle
  | .eBegin => .enc
  | .eSym _ => .enc
  | .eEnd => .enc
  | .dBegin => .dec
  | .dCode _ => .dec
  | .dEnd => .dec
  | .pBegin _ _ => .penc
  | .pPix _ => .penc
  | .pEnd => .penc
  | .pdBegin _ _ => .pdec
  | .pdCode _ => .pdec
  | .pdEnd => .pdec

/-- `LegalModes(op)` (R72): the modes in which a command is legal. -/
def legalIn (i : Instr) (m : Mode) : Bool :=
  match i with
  | .nop => true
  | _ => if isBegin i then m == .idle || m == .error else m == ownMode i

/-- An END command. -/
def isEnd : Instr → Bool
  | .eEnd => true
  | .dEnd => true
  | .pEnd => true
  | .pdEnd => true
  | _ => false

/-- The kind of item a command may emit (30_encoding.md R76), none for a command that emits nothing. -/
def emitKind : Instr → Option Kind
  | .eSym _ => some .code
  | .eEnd => some .code
  | .pPix _ => some .code
  | .pEnd => some .code
  | .dCode _ => some .sym
  | .pdCode _ => some .pix
  | _ => none

/-- The pixels and the rest that a digit stream gives, cut in chunks of three (45_pixel_decode.md R181): for each complete chunk
its value, or none if it is not valid; and the symbols left over. -/
def chunks : Str → List (Option Nat) × Str
  | x :: y :: z :: rest =>
    ((if chunkValid x y z then some (chunkValue x y z) else none) :: (chunks rest).1, (chunks rest).2)
  | rest => ([], rest)

/-- The items of the valid chunks (R181). -/
def chunkItems (cs : List (Option Nat)) : List Item :=
  cs.filterMap (fun c => c.map (fun v => { kind := .pix, data := BitVec.ofNat 32 v }))

end Sys2Proof.Safety
end

