-- ==== Sys2Proof/Certificates/Slice0/Obligations.lean ====
section
/-!
DEFINITION. The statements for the provers, from the numbered rules of spec/. The names of the operations follow the rules they cite.
-/

open Sys2Proof Sys2Proof.Machine Sys2Proof.Safety

/-! ### The command word -/

/-- Words of 95_test_vectors.md 2.1 and of the opcode map (R70 to R72), each written out there, decode to the command they stand
for; the two illegal ones are named. -/
def Obligations.HandWrittenWordsDecode : Prop :=
  decode 0x0000000000#40 = .ok .nop ∧
  decode 0x0100000000#40 = .ok .eBegin ∧
  decode 0x0200000054#40 = .ok (.eSym 84) ∧
  decode 0x1200000100#40 = .ok (.dCode 256) ∧
  decode 0x21028001E0#40 = .ok (.pBegin 640 480) ∧
  decode 0x22FFFFFFFF#40 = .ok (.pPix (BitVec.ofInt 32 (-1))) ∧
  decode 0x31FFFF0001#40 = .ok (.pdBegin 65535 1) ∧
  decode 0x3300000000#40 = .ok .pdEnd ∧
  decode 0x0000000001#40 = .error (.nonzeroOperand 0x00 1) ∧
  decode 0x0400000007#40 = .error (.unassignedOpcode 0x04)

/-- Decoding the word of a command gives the command, at every operand value (R70, R71, R72). -/
def Obligations.DecodeOfEncode : Prop := ∀ i : Instr, decode (encode i) = .ok i

/-- Exactly the legal words decode (R73), and no bit of one is ignored (R75): the word is the encoding of the command it decodes
to. -/
def Obligations.EncodeOfDecode : Prop :=
  (∀ cmd : Cmd, legal cmd = true ↔ ∃ i, decode cmd = .ok i) ∧
  (∀ (cmd : Cmd) (i : Instr), decode cmd = .ok i → encode i = cmd)

/-- R73, R211: exactly the words with an unassigned opcode, or with a `NONE` form and a non-zero operand, are illegal; such a word
raises `IllegalCommandError` (10) with its operand and opcode outside `ERROR`, and is dropped in `ERROR`. -/
def Obligations.IllegalWords : Prop :=
  (∀ cmd : Cmd, legal cmd = false ↔
    cmd.extractLsb' 32 8 ∉ ([0x00, 0x01, 0x02, 0x03, 0x11, 0x12, 0x13, 0x21, 0x22, 0x23, 0x31, 0x32, 0x33] : List (BitVec 8)) ∨
    (cmd.extractLsb' 32 8 ∈ ([0x00, 0x01, 0x03, 0x11, 0x13, 0x23, 0x33] : List (BitVec 8)) ∧ cmd.extractLsb' 0 32 ≠ 0)) ∧
  (∀ (cmd : Cmd) (s : State), legal cmd = false →
    (s.mode ≠ .error → execWord cmd s =
      .next { s with mode := .error, err := .illegalCommand, errOp := cmd.extractLsb' 32 8, errArg := cmd.extractLsb' 0 32 }) ∧
    (s.mode = .error → execWord cmd s = .next s)) ∧
  errBits .illegalCommand = 10

/-! ### The steps of the system -/

/-- With `READY`, the word at the head of the command channel is accepted, whichever word it is: the step is `execWord` of it, the
word taken off the channel (the channel as the model's `agenda`: log entries 1, 3 and 4). Where the word decodes, that is `exec` of
the command it decodes to; an illegal word is thus dropped or raises (`IllegalWords`). A word placed by `withFetchWord` on a `READY`
block is that word. -/
def Obligations.StepRunsTheDecodedCommand : Prop :=
  (∀ (s : State) (cmd : Cmd) (rest : List Event), s.agenda = .issue cmd :: rest → s.pend = [] →
    step s = execWord cmd { s with agenda := rest }) ∧
  (∀ (s : State) (w : Nat), s.pend = [] → step (s.withFetchWord 40 w) = execWord (BitVec.ofNat 40 w) s) ∧
  (∀ (s : State) (cmd : Cmd) (rest : List Event) (i : Instr), s.agenda = .issue cmd :: rest → s.pend = [] →
    decode cmd = .ok i → step s = exec i { s with agenda := rest }) ∧
  (∀ (s : State) (w : Nat) (i : Instr), s.pend = [] → decode (BitVec.ofNat 40 w) = .ok i →
    step (s.withFetchWord 40 w) = exec i s)

/-- A command presented while `READY = 0` waits and has no effect (R110): the core drains if it can (R114), and with a full
`OUTQ` nothing moves (R235). The order of the two agents' steps is the model's agenda (log entries 1 and 3). -/
def Obligations.CommandWaitsUntilReady : Prop :=
  ∀ (s : State) (cmd : Cmd) (rest : List Event) (item : Item) (items : List Item),
    s.agenda = .issue cmd :: rest → s.pend = item :: items →
      (s.outq.length < s.cfg.outDepth → step s = .next { s with outq := s.outq ++ [item], pend := items }) ∧
      (s.cfg.outDepth ≤ s.outq.length → step s = .next s)

/-- R114: `drain` moves the head of `PEND` to the tail of `OUTQ` and changes no other state; it is disabled with `PEND` empty or
`OUTQ` full, and is then passed over (log entries 1 and 3). -/
def Obligations.DrainMovesOneItem : Prop :=
  ∀ (s : State) (rest : List Event), s.agenda = .drain :: rest →
    (∀ item items, s.pend = item :: items → s.outq.length < s.cfg.outDepth →
      step s = .next { s with agenda := rest, outq := s.outq ++ [item], pend := items }) ∧
    ((s.pend = [] ∨ s.cfg.outDepth ≤ s.outq.length) → step s = .next { s with agenda := rest })

/-- R115: `pop` gives the host the head of `OUTQ` and removes it. What the host holds is the model's field `taken` (log entry 1). With
`OUTQ` empty the spec gives no such step; that the model then takes the event off the agenda with no other effect is the model's
choice (log entry 3). -/
def Obligations.PopTakesTheHead : Prop :=
  ∀ (s : State) (rest : List Event), s.agenda = .pop :: rest →
    (∀ item items, s.outq = item :: items →
      step s = .next { s with agenda := rest, outq := items, taken := s.taken ++ [item] }) ∧
    (s.outq = [] → step s = .next { s with agenda := rest })

/-- R117: `read(raddr)` returns the status word of the current state and changes no state of the block. What the host has read is
the model's field `reads` (log entry 1). -/
def Obligations.ReadReturnsTheStatusWord : Prop :=
  ∀ (s : State) (rest : List Event) (raddr : BitVec 3), s.agenda = .read raddr :: rest →
    step s = .next { s with agenda := rest, reads := s.reads ++ [(raddr, statusRead s.cfg raddr s.toBlock)] }

/-- R32, R33: the eight status words, and the bits that read 0. -/
def Obligations.StatusRegisterMap : Prop :=
  ∀ (cfg : Config) (b : Block), cfg.Legal →
    statusRead cfg 0 b = statusWord b ∧
    statusRead cfg 1 b = b.nextCode ∧
    statusRead cfg 2 b = b.wCode ∧
    (statusRead cfg 3 b).extractLsb' 16 16 = b.imgW ∧ (statusRead cfg 3 b).extractLsb' 0 16 = b.imgH ∧
    statusRead cfg 4 b = b.pixCount ∧
    (statusRead cfg 5 b).extractLsb' 0 8 = b.errOp ∧ (statusRead cfg 5 b).extractLsb' 8 24 = 0 ∧
    statusRead cfg 6 b = b.errArg ∧
    (statusRead cfg 7 b).toNat = cfg.dictDepth

/-- R34: every field of `STATUS`, its reserved bits, and its value after reset; the values of `MODE` are R21's. -/
def Obligations.StatusWordFields : Prop :=
  (∀ b : Block, b.digBuf.length ≤ 2 →
    (statusWord b).extractLsb' 0 3 = modeBits b.mode ∧
    (statusWord b).extractLsb' 3 1 = (if b.pend = [] then 1 else 0) ∧
    (statusWord b).extractLsb' 4 4 = errBits b.err ∧
    (statusWord b).extractLsb' 8 1 = (if b.wValid then 1 else 0) ∧
    (statusWord b).extractLsb' 9 1 = (if b.firstSeen then 1 else 0) ∧
    (statusWord b).extractLsb' 10 1 = (if b.digErr then 1 else 0) ∧
    ((statusWord b).extractLsb' 11 2).toNat = b.digBuf.length ∧
    (statusWord b).extractLsb' 13 1 = (if b.outq = [] then 1 else 0) ∧
    (statusWord b).extractLsb' 14 18 = 0) ∧
  statusWord State.reset.toBlock = 0x2008 ∧
  modeBits .idle = 0 ∧ modeBits .enc = 1 ∧ modeBits .dec = 2 ∧ modeBits .penc = 3 ∧ modeBits .pdec = 4 ∧ modeBits .error = 7

/-- R230: the reset input sets every state element to R38's value, whatever the state; `DMEM` is unspecified, so no value of it is
stated. Parameters are not state, and what the host holds is the host's (log entries 1, 2 and 18). -/
def Obligations.ResetSetsEveryElement : Prop :=
  ∀ (s : State) (rest : List Event), s.agenda = .reset :: rest → ∃ m : Memory,
    step s = .next { s with
      agenda := rest, mode := .idle, err := .noError, errOp := 0, errArg := 0, nextCode := 256, wValid := false, wCode := 0,
      firstSeen := false, imgW := 0, imgH := 0, pixCount := 0, digBuf := [], digErr := false, dmem := m, pend := [],
      outq := [] }

/-- With no event to come the core drains alone, item by item and in order, as far as `OUTQ` has room (R114, R241); where `drain` is
disabled, with `PEND` empty or `OUTQ` full, the block holds its state (R225, R235). That the core moves when the agenda is empty is
the model's choice (log entry 3). -/
def Obligations.CoreDrainsByItself : Prop :=
  (∀ (s : State) (n : Nat), s.agenda = [] → n ≤ s.pend.length → s.outq.length + n ≤ s.cfg.outDepth →
    core.run n s = .next { s with outq := s.outq ++ s.pend.take n, pend := s.pend.drop n }) ∧
  (∀ s : State, s.agenda = [] → s.pend = [] ∨ s.cfg.outDepth ≤ s.outq.length → step s = .next s)

/-- R64: a step of one instance changes no other instance. -/
def Obligations.InstancesShareNothing : Prop :=
  ∀ (n m : Nat) (sys sys' : System), systemStep n sys = some sys' → m ≠ n →
    sys'[m]? = sys[m]? ∧ sys'.length = sys.length

/-! ### Output items -/

/-- R76: an item's word is kind above data with kinds 0, 1, 2, and each command emits only its own kind, commands not listed
nothing. -/
def Obligations.OutputItemFormat : Prop :=
  (∀ item : Item, (itemWord item).extractLsb' 0 32 = item.data ∧
    (itemWord item).extractLsb' 32 2 = (match item.kind with | .code => 0 | .sym => 1 | .pix => 2)) ∧
  (∀ (i : Instr) (s t : State), exec i s = .next t → ∃ items, t.pend = s.pend ++ items ∧
    ∀ item ∈ items,
      (item.kind = .code ∧ ((∃ c, i = .eSym c) ∨ i = .eEnd ∨ (∃ v, i = .pPix v) ∨ i = .pEnd)) ∨
      (item.kind = .sym ∧ ∃ k, i = .dCode k) ∨
      (item.kind = .pix ∧ ∃ k, i = .pdCode k))

/-! ### Dispatch, errors and the mode FSM -/

/-- R112: the mode after every command, legal or not, from every mode; the values 5 and 6 are never written. -/
def Obligations.ModeAfterEveryCommand : Prop :=
  (∀ (i : Instr) (s t : State), exec i s = .next t →
    (i = .nop → t.mode = s.mode) ∧
    (isBegin i = true → s.mode = .idle ∨ s.mode = .error → t.mode = ownMode i) ∧
    (isBegin i = true → s.mode ≠ .idle → s.mode ≠ .error → t.mode = .error ∧ t.err = .protocol) ∧
    (isBegin i = false → i ≠ .nop → s.mode = .error → t = s) ∧
    (isBegin i = false → i ≠ .nop → s.mode ≠ .error → s.mode ≠ ownMode i → t.mode = .error ∧ t.err = .protocol) ∧
    (isBegin i = false → i ≠ .nop → s.mode = ownMode i →
      t.mode = (if isEnd i then .idle else ownMode i) ∨ (t.mode = .error ∧ t.err ∈ ownErrors i)) ∧
    modeBits t.mode ≠ 5 ∧ modeBits t.mode ≠ 6) ∧
  (∀ (cmd : Cmd) (s t : State), legal cmd = false → execWord cmd s = .next t →
    (s.mode = .error → t = s) ∧ (s.mode ≠ .error → t.mode = .error ∧ t.err = .illegalCommand))

/-- R215: in `ERROR`, a command other than a legal BEGIN changes nothing (`NOP` has no effect in any mode), an illegal word
neither. -/
def Obligations.ErrorModeDropsCommands : Prop :=
  (∀ (i : Instr) (s : State), s.mode = .error → isBegin i = false → exec i s = .next s) ∧
  (∀ (cmd : Cmd) (s : State), s.mode = .error → legal cmd = false → execWord cmd s = .next s)

/-- R209: a stream or END command outside its own operation, and a BEGIN while an operation is in progress, raise `ProtocolError`
(9) with the command's opcode and operand. -/
def Obligations.ProtocolErrors : Prop :=
  (∀ (i : Instr) (s : State), s.mode ≠ .error → legalIn i s.mode = false →
    exec i s = .next { s with mode := .error, err := .protocol, errOp := i.opcode, errArg := i.operand }) ∧
  errBits .protocol = 9

/-- R212: a command that raises has no effect but the error entry: all it wrote is discarded, and `PEND`, `OUTQ`, the registers and
`DMEM` are as before the command. -/
def Obligations.ErrorEntryKeepsTheRest : Prop :=
  ∀ (i : Instr) (s t : State), exec i s = .next t → s.mode ≠ .error → t.mode = .error →
    t = { s with mode := .error, err := t.err, errOp := i.opcode, errArg := t.errArg } ∧
    (t.err = .protocol ∨ t.err ∈ ownErrors i)

/-- R213: what a command that does not raise leaves of the error registers: as they were, or clear after a BEGIN. -/
def Obligations.ErrorRegistersOnlyByErrorEntry : Prop :=
  ∀ (i : Instr) (s t : State), exec i s = .next t → t.mode ≠ .error →
    (isBegin i = false → t.err = s.err ∧ t.errOp = s.errOp ∧ t.errArg = s.errArg) ∧
    (isBegin i = true → t.err = .noError ∧ t.errOp = 0 ∧ t.errArg = 0)

/-- R119, with the mode and image registers of R120, R140, R160, R180: what each BEGIN leaves, from `IDLE` and from `ERROR`;
`PEND`, `OUTQ` and every entry of `DMEM` stay. -/
def Obligations.BeginInitialises : Prop :=
  ∀ s : State, s.mode = .idle ∨ s.mode = .error →
    (exec .eBegin s = .next { s with
      mode := .enc, nextCode := 256, wValid := false, wCode := 0, firstSeen := false, imgW := 0, imgH := 0, pixCount := 0,
      digBuf := [], digErr := false, err := .noError, errOp := 0, errArg := 0 }) ∧
    (exec .dBegin s = .next { s with
      mode := .dec, nextCode := 256, wValid := false, wCode := 0, firstSeen := false, imgW := 0, imgH := 0, pixCount := 0,
      digBuf := [], digErr := false, err := .noError, errOp := 0, errArg := 0 }) ∧
    (∀ w h, exec (.pBegin w h) s = .next { s with
      mode := .penc, nextCode := 256, wValid := false, wCode := 0, firstSeen := false, imgW := w, imgH := h, pixCount := 0,
      digBuf := [], digErr := false, err := .noError, errOp := 0, errArg := 0 }) ∧
    (∀ w h, exec (.pdBegin w h) s = .next { s with
      mode := .pdec, nextCode := 256, wValid := false, wCode := 0, firstSeen := false, imgW := w, imgH := h, pixCount := 0,
      digBuf := [], digErr := false, err := .noError, errOp := 0, errArg := 0 })

/-- R113: `NOP` has no effect in any mode; its word with a non-zero operand is illegal, and is dropped in `ERROR`. -/
def Obligations.NopHasNoEffect : Prop :=
  (∀ s : State, exec .nop s = .next s) ∧ encode .nop = 0x0000000000#40 ∧
  (∀ (x : Word) (s : State), x ≠ 0 →
    (s.mode ≠ .error → execWord (0x00#8 ++ x) s =
      .next { s with mode := .error, err := .illegalCommand, errOp := 0x00, errArg := x }) ∧
    (s.mode = .error → execWord (0x00#8 ++ x) s = .next s))

/-! ### The encoders -/

/-- R121, R122: what `E_SYM c` does in an encode operation: start a match, extend it, or emit the code of `w` and insert `wc` at the
next free code; or raise `DictFullError`, with no other effect, where an insert is needed and there is no room. -/
def Obligations.SymbolStep : Prop :=
  ∀ (c : Word) (s : State), s.mode = .enc → c.toNat < 256 → Memory.wf s.cfg.dictDepth s.dmem → 256 ≤ s.nextCode.toNat →
    (s.wValid = false → exec (.eSym c) s = .next { s with wCode := c, wValid := true }) ∧
    (∀ e, s.wValid = true → LowestPair s.dmem s.nextCode.toNat s.wCode (c.setWidth 8) e →
      exec (.eSym c) s = .next { s with wCode := BitVec.ofNat 32 e }) ∧
    (s.wValid = true → ¬ HasPair s.dmem s.nextCode.toNat s.wCode (c.setWidth 8) → s.nextCode.toNat < s.cfg.dictDepth →
      exec (.eSym c) s = .next { s with
        pend := s.pend ++ [{ kind := .code, data := s.wCode }]
        dmem := Memory.write s.dmem s.nextCode.toNat { parent := s.wCode, suffix := c.setWidth 8 }
        nextCode := s.nextCode + 1
        wCode := c }) ∧
    (s.wValid = true → ¬ HasPair s.dmem s.nextCode.toNat s.wCode (c.setWidth 8) → s.nextCode.toNat = s.cfg.dictDepth →
      exec (.eSym c) s = .next { s with mode := .error, err := .dictFull, errOp := 0x02, errArg := c })

/-- R210: `E_SYM` with an operand of 256 or more raises `SymbolRangeError` (11) with the operand. -/
def Obligations.SymbolRangeErrors : Prop :=
  (∀ (c : Word) (s : State), s.mode = .enc → 256 ≤ c.toNat →
    exec (.eSym c) s = .next { s with mode := .error, err := .symbolRange, errOp := 0x02, errArg := c }) ∧
  errBits .symbolRange = 11

/-- R123: `E_END` and `P_END` emit the code of `w` if `w` is not empty, insert nothing, raise nothing, and keep `W_VALID` and
`W_CODE`; the mode becomes `IDLE` (R124, R163). -/
def Obligations.EncodeEndFlushes : Prop :=
  ∀ s : State,
    (s.mode = .enc → exec .eEnd s = .next { s with
      mode := .idle, pend := s.pend ++ (if s.wValid then [{ kind := .code, data := s.wCode }] else []) }) ∧
    (s.mode = .penc → exec .pEnd s = .next { s with
      mode := .idle, pend := s.pend ++ (if s.wValid then [{ kind := .code, data := s.wCode }] else []) })

/-- R204: `P_PIX` whose signed operand lies outside `0..255` raises `PixelRangeError` (4) with the raw operand. -/
def Obligations.PixelRangeErrors : Prop :=
  (∀ (v : Word) (s : State), s.mode = .penc → v.toInt < 0 ∨ 255 < v.toInt →
    exec (.pPix v) s = .next { s with mode := .error, err := .pixelRange, errOp := 0x22, errArg := v }) ∧
  errBits .pixelRange = 4

/-- R161, R162: `P_PIX v` runs `EncStep` on the symbols of the hundreds, tens and units digit of `v`, in that order, then counts the
pixel; if any of the three needs an insert in a full dictionary, it raises `DictFullError` and nothing of the pixel remains. With room
for three inserts it completes. -/
def Obligations.PixelSerializesThreeDigits : Prop :=
  ∀ (v : Word) (s : State) (p : Nat), Inv s → s.mode = .penc → v.toInt = p → p ≤ 255 →
    ((∃ b1 b2 b3 : Block,
        EncStepRel s.cfg.dictDepth (BitVec.ofNat 8 (48 + p / 100)) s.toBlock b1 ∧
        EncStepRel s.cfg.dictDepth (BitVec.ofNat 8 (48 + p / 10 % 10)) b1 b2 ∧
        EncStepRel s.cfg.dictDepth (BitVec.ofNat 8 (48 + p % 10)) b2 b3 ∧
        exec (.pPix v) s = .next { s with
          toBlock := { b3 with pixCount := BitVec.ofNat 32 (min (s.pixCount.toNat + 1) (2 ^ 32 - 1)) } }) ∨
      ((EncFull s.cfg.dictDepth (BitVec.ofNat 8 (48 + p / 100)) s.toBlock ∨
        (∃ b1, EncStepRel s.cfg.dictDepth (BitVec.ofNat 8 (48 + p / 100)) s.toBlock b1 ∧
          EncFull s.cfg.dictDepth (BitVec.ofNat 8 (48 + p / 10 % 10)) b1) ∨
        (∃ b1 b2, EncStepRel s.cfg.dictDepth (BitVec.ofNat 8 (48 + p / 100)) s.toBlock b1 ∧
          EncStepRel s.cfg.dictDepth (BitVec.ofNat 8 (48 + p / 10 % 10)) b1 b2 ∧
          EncFull s.cfg.dictDepth (BitVec.ofNat 8 (48 + p % 10)) b2)) ∧
        exec (.pPix v) s = .next { s with mode := .error, err := .dictFull, errOp := 0x22, errArg := v })) ∧
    (s.nextCode.toNat + 3 ≤ s.cfg.dictDepth → ∃ t, exec (.pPix v) s = .next t ∧ t.mode = .penc)

/-- R127: in an encode operation each code emitted by a stream command goes with exactly one insert: `E_SYM` emits 0 or 1 code,
`P_PIX` 0 to 3, END 0 or 1 and without an insert; every code emitted is below `NEXT_CODE` when it is emitted: `NEXT_CODE` before the
command for `E_SYM` and END, which emit before they insert, and that plus j for the j-th code of a `P_PIX`, counted from 0. -/
def Obligations.EncoderOutputCounts : Prop :=
  ∀ (i : Instr) (s t : State), Inv s → Encoding s.toBlock → exec i s = .next t → t.mode ≠ .error →
    ∃ codes : List Word, t.pend = s.pend ++ codes.map (fun k => { kind := .code, data := k }) ∧
      ((∃ c, i = .eSym c) → codes.length ≤ 1 ∧ t.nextCode.toNat = s.nextCode.toNat + codes.length ∧ t.wValid = true ∧
        ∀ k ∈ codes, k.toNat < s.nextCode.toNat) ∧
      ((∃ v, i = .pPix v) → codes.length ≤ 3 ∧ t.nextCode.toNat = s.nextCode.toNat + codes.length ∧ t.wValid = true ∧
        ∀ j k, codes[j]? = some k → k.toNat < s.nextCode.toNat + j) ∧
      (i = .eEnd ∨ i = .pEnd → codes.length = (if s.wValid then 1 else 0) ∧ t.nextCode = s.nextCode ∧
        ∀ k ∈ codes, k.toNat < s.nextCode.toNat) ∧
      (i = .nop → codes = [])

/-! ### The decoders -/

/-- R141 (first code), R142, R202: the first code of a decode operation below 256 is its own symbol, without an insert; 256 or more
is `UnknownCodeError` (2), in `D_CODE` and in `PD_CODE`. -/
def Obligations.FirstCode : Prop :=
  ∀ (k : Word) (s : State), s.firstSeen = false →
    (s.mode = .dec → k.toNat < 256 → exec (.dCode k) s = .next { s with
      firstSeen := true, wCode := k, pend := s.pend ++ [{ kind := .sym, data := k }] }) ∧
    (s.mode = .dec → 256 ≤ k.toNat →
      exec (.dCode k) s = .next { s with mode := .error, err := .unknownCode, errOp := 0x12, errArg := k }) ∧
    (s.mode = .pdec → 256 ≤ k.toNat →
      exec (.pdCode k) s = .next { s with mode := .error, err := .unknownCode, errOp := 0x32, errArg := k }) ∧
    errBits .unknownCode = 2

/-- R141 (later code), R142: a known code or the next free code decodes, with room in the dictionary, to a non-empty string: that of
the code if it is known, `w` and its first symbol in the self-reference case. Its symbols are emitted first to last, `w` with the
string's first symbol is inserted at the next free code, and `w` becomes the string. -/
def Obligations.LaterCode : Prop :=
  ∀ (k : Word) (s : State), Inv s → s.mode = .dec → s.firstSeen = true → k.toNat ≤ s.nextCode.toNat →
    s.nextCode.toNat < s.cfg.dictDepth →
    ∃ (w str : Str) (f : Sym), Denotes s.dmem s.wCode.toNat w ∧ str.head? = some f ∧
      (k.toNat < s.nextCode.toNat → Denotes s.dmem k.toNat str) ∧
      (k.toNat = s.nextCode.toNat → str = w ++ w.take 1) ∧
      exec (.dCode k) s = .next { s with
        pend := s.pend ++ str.map (fun c => { kind := .sym, data := c.setWidth 32 })
        dmem := Memory.write s.dmem s.nextCode.toNat { parent := s.wCode, suffix := f }
        nextCode := s.nextCode + 1
        wCode := k }

/-- R203, R217: a later code above `NEXT_CODE` is `CorruptStreamError` (3) with the code, even where the dictionary is full. -/
def Obligations.CorruptCodes : Prop :=
  ∀ (k : Word) (s : State), s.firstSeen = true → s.nextCode.toNat < k.toNat →
    (s.mode = .dec →
      exec (.dCode k) s = .next { s with mode := .error, err := .corruptStream, errOp := 0x12, errArg := k }) ∧
    (s.mode = .pdec →
      exec (.pdCode k) s = .next { s with mode := .error, err := .corruptStream, errOp := 0x32, errArg := k }) ∧
    errBits .corruptStream = 3

/-- R142, R182, R208: a later code, known or self-referencing, that meets a full dictionary is `DictFullError` (8) with the code. -/
def Obligations.FullDictionaryOnDecode : Prop :=
  ∀ (k : Word) (s : State), Inv s → s.firstSeen = true → k.toNat ≤ s.nextCode.toNat → s.nextCode.toNat = s.cfg.dictDepth →
    (s.mode = .dec →
      exec (.dCode k) s = .next { s with mode := .error, err := .dictFull, errOp := 0x12, errArg := k }) ∧
    (s.mode = .pdec →
      exec (.pdCode k) s = .next { s with mode := .error, err := .dictFull, errOp := 0x32, errArg := k }) ∧
    errBits .dictFull = 8

/-- R143: `D_END`, in every mode: dropped in `ERROR`, `ProtocolError` outside `DEC`, `EmptyInputError` with no code received, else
the operation ends; its word with a non-zero operand is illegal. -/
def Obligations.DecodeEnd : Prop :=
  (∀ s : State,
    (s.mode = .error → exec .dEnd s = .next s) ∧
    (s.mode ≠ .error → s.mode ≠ .dec →
      exec .dEnd s = .next { s with mode := .error, err := .protocol, errOp := 0x13, errArg := 0 }) ∧
    (s.mode = .dec → s.firstSeen = false →
      exec .dEnd s = .next { s with mode := .error, err := .emptyInput, errOp := 0x13, errArg := 0 }) ∧
    (s.mode = .dec → s.firstSeen = true → exec .dEnd s = .next { s with mode := .idle })) ∧
  encode .dEnd = 0x1300000000#40 ∧
  (∀ (x : Word) (s : State), x ≠ 0 →
    (s.mode ≠ .error → execWord (0x13#8 ++ x) s =
      .next { s with mode := .error, err := .illegalCommand, errOp := 0x13, errArg := x }) ∧
    (s.mode = .error → execWord (0x13#8 ++ x) s = .next s)) ∧
  errBits .emptyInput = 1

/-- R181: `DigitPush`: a symbol is buffered until three are there; then the chunk is counted, the buffer emptied, and a chunk of three
digits of value at most 255 emitted as a pixel, any other recorded in `DIG_ERR`. -/
def Obligations.DigitPush : Prop :=
  ∀ (x y z : Sym) (b : Block),
    (b.digBuf = [] → digitPush z b = { b with digBuf := [z] }) ∧
    (b.digBuf = [y] → digitPush z b = { b with digBuf := [y, z] }) ∧
    (b.digBuf = [x, y] →
      48 ≤ x.toNat → x.toNat ≤ 57 → 48 ≤ y.toNat → y.toNat ≤ 57 → 48 ≤ z.toNat → z.toNat ≤ 57 →
      100 * (x.toNat - 48) + 10 * (y.toNat - 48) + (z.toNat - 48) ≤ 255 →
      digitPush z b = { b with
        digBuf := [], pixCount := BitVec.ofNat 32 (min (b.pixCount.toNat + 1) (2 ^ 32 - 1))
        pend := b.pend ++
          [{ kind := .pix, data := BitVec.ofNat 32 (100 * (x.toNat - 48) + 10 * (y.toNat - 48) + (z.toNat - 48)) }] }) ∧
    (b.digBuf = [x, y] →
      ¬ ((48 ≤ x.toNat ∧ x.toNat ≤ 57) ∧ (48 ≤ y.toNat ∧ y.toNat ≤ 57) ∧ (48 ≤ z.toNat ∧ z.toNat ≤ 57) ∧
        100 * (x.toNat - 48) + 10 * (y.toNat - 48) + (z.toNat - 48) ≤ 255) →
      digitPush z b = { b with
        digBuf := [], pixCount := BitVec.ofNat 32 (min (b.pixCount.toNat + 1) (2 ^ 32 - 1)), digErr := true })

/-- R182: `PD_CODE k` that decodes cuts the waiting digits and the string of `k` in chunks of three: it counts each chunk, emits each
valid one as a pixel, records an invalid one in `DIG_ERR`, and keeps the rest waiting. The string is that of R141, first or later
code. -/
def Obligations.PixelCodeDeserializes : Prop :=
  ∀ (k : Word) (s : State), Inv s → s.mode = .pdec →
    (s.firstSeen = false → k.toNat < 256 → exec (.pdCode k) s = .next { s with
      firstSeen := true
      wCode := k
      digBuf := (chunks (s.digBuf ++ [k.setWidth 8])).2
      digErr := s.digErr || (chunks (s.digBuf ++ [k.setWidth 8])).1.contains none
      pixCount := BitVec.ofNat 32 (min (s.pixCount.toNat + (chunks (s.digBuf ++ [k.setWidth 8])).1.length) (2 ^ 32 - 1))
      pend := s.pend ++ chunkItems (chunks (s.digBuf ++ [k.setWidth 8])).1 }) ∧
    (s.firstSeen = true → k.toNat ≤ s.nextCode.toNat → s.nextCode.toNat < s.cfg.dictDepth →
      ∃ (w str : Str) (f : Sym), Denotes s.dmem s.wCode.toNat w ∧ str.head? = some f ∧
        (k.toNat < s.nextCode.toNat → Denotes s.dmem k.toNat str) ∧
        (k.toNat = s.nextCode.toNat → str = w ++ w.take 1) ∧
        exec (.pdCode k) s = .next { s with
          dmem := Memory.write s.dmem s.nextCode.toNat { parent := s.wCode, suffix := f }
          nextCode := s.nextCode + 1
          wCode := k
          digBuf := (chunks (s.digBuf ++ str)).2
          digErr := s.digErr || (chunks (s.digBuf ++ str)).1.contains none
          pixCount := BitVec.ofNat 32 (min (s.pixCount.toNat + (chunks (s.digBuf ++ str)).1.length) (2 ^ 32 - 1))
          pend := s.pend ++ chunkItems (chunks (s.digBuf ++ str)).1 })

/-- R183, R205, R206: `PD_END`, in every mode: the checks in their order, what each records, and success. -/
def Obligations.PixelDecodeEnd : Prop :=
  (∀ s : State,
    (s.mode = .error → exec .pdEnd s = .next s) ∧
    (s.mode ≠ .error → s.mode ≠ .pdec →
      exec .pdEnd s = .next { s with mode := .error, err := .protocol, errOp := 0x33, errArg := 0 }) ∧
    (s.mode = .pdec → s.firstSeen = false →
      exec .pdEnd s = .next { s with mode := .error, err := .emptyInput, errOp := 0x33, errArg := 0 }) ∧
    (s.mode = .pdec → s.firstSeen = true → s.digErr = true ∨ s.digBuf ≠ [] →
      exec .pdEnd s = .next { s with
        mode := .error, err := .malformedDigitStream, errOp := 0x33
        errArg := BitVec.ofNat 32 ((if s.digErr then 1 else 0) + 2 * s.digBuf.length) }) ∧
    (s.mode = .pdec → s.firstSeen = true → s.digErr = false → s.digBuf = [] →
      s.pixCount.toNat ≠ s.imgW.toNat * s.imgH.toNat →
      exec .pdEnd s = .next { s with mode := .error, err := .sizeMismatch, errOp := 0x33, errArg := s.pixCount }) ∧
    (s.mode = .pdec → s.firstSeen = true → s.digErr = false → s.digBuf = [] →
      s.pixCount.toNat = s.imgW.toNat * s.imgH.toNat → exec .pdEnd s = .next { s with mode := .idle })) ∧
  encode .pdEnd = 0x3300000000#40 ∧
  (∀ (x : Word) (s : State), x ≠ 0 →
    (s.mode ≠ .error → execWord (0x33#8 ++ x) s =
      .next { s with mode := .error, err := .illegalCommand, errOp := 0x33, errArg := x }) ∧
    (s.mode = .error → execWord (0x33#8 ++ x) s = .next s)) ∧
  errBits .malformedDigitStream = 5 ∧ errBits .sizeMismatch = 6

/-- R27: a saturated pixel count never equals the product of two 16-bit dimensions, so saturation cannot make a wrong size check
pass. -/
def Obligations.SaturatedCountNeverPasses : Prop :=
  ∀ (n : Nat) (w h : Dim), 2 ^ 32 - 1 ≤ n → (sat32 n).toNat ≠ w.toNat * h.toNat ∧ (sat32 n).toNat = 2 ^ 32 - 1

/-! ### The dictionary -/

/-- R93: an insert below capacity writes `(p, s)` at the next free code and adds 1 to it; the new code denotes the string of `p` and
`s`, and every other code reads as before. At capacity it raises `DictFullError` with the operand. -/
def Obligations.InsertAssignsTheNextCode : Prop :=
  ∀ (depth : Nat) (operand p : Word) (c : Sym) (b : Block), depth ≤ 2 ^ 32 - 2 → 256 ≤ b.nextCode.toNat →
    (b.nextCode.toNat = depth → dictInsert depth operand p c b = .raise .dictFull operand) ∧
    (b.nextCode.toNat < depth → ∃ b', dictInsert depth operand p c b = .ok b' ∧
      b'.nextCode.toNat = b.nextCode.toNat + 1 ∧
      Memory.read b'.dmem b.nextCode.toNat = some { parent := p, suffix := c } ∧
      (∀ a, a ≠ b.nextCode.toNat → Memory.read b'.dmem a = Memory.read b.dmem a) ∧
      (∀ str, p.toNat < b.nextCode.toNat → Denotes b.dmem p.toNat str → Denotes b'.dmem b.nextCode.toNat (str ++ [c])) ∧
      b' = { b with dmem := b'.dmem, nextCode := b'.nextCode })

/-- R94: the growth state follows `NEXT_CODE`; an insert goes on from `SEED` and `GROWING`, and `FULL` refuses it; no command but a
BEGIN goes backwards. -/
def Obligations.GrowthStates : Prop :=
  (∀ (s : State), Inv s →
    (growth s.cfg.dictDepth s.toBlock = .full ↔ s.nextCode.toNat = s.cfg.dictDepth) ∧
    (growth s.cfg.dictDepth s.toBlock = .seed ↔ s.nextCode.toNat = 256 ∧ 256 < s.cfg.dictDepth) ∧
    (growth s.cfg.dictDepth s.toBlock = .growing ↔ 256 < s.nextCode.toNat ∧ s.nextCode.toNat < s.cfg.dictDepth)) ∧
  (∀ (s : State) (operand p : Word) (c : Sym), Inv s →
    (growth s.cfg.dictDepth s.toBlock = .full ↔ dictInsert s.cfg.dictDepth operand p c s.toBlock = .raise .dictFull operand) ∧
    (growth s.cfg.dictDepth s.toBlock ≠ .full → ∃ b', dictInsert s.cfg.dictDepth operand p c s.toBlock = .ok b' ∧
      (growth s.cfg.dictDepth b' = .full ↔ s.nextCode.toNat + 1 = s.cfg.dictDepth) ∧
      growth s.cfg.dictDepth b' ≠ .seed)) ∧
  (∀ (i : Instr) (s t : State), Inv s → exec i s = .next t → isBegin i = false →
    s.nextCode.toNat ≤ t.nextCode.toNat ∧
    (growth s.cfg.dictDepth s.toBlock = .full → growth t.cfg.dictDepth t.toBlock = .full))

/-- R95: within an operation codes are assigned in order from the next free code, each one more than the last: a command that is not a
BEGIN leaves every code below `NEXT_CODE` as it was and every new code written. -/
def Obligations.CodesAssignedInOrder : Prop :=
  ∀ (i : Instr) (s t : State), Inv s → exec i s = .next t → isBegin i = false →
    s.nextCode.toNat ≤ t.nextCode.toNat ∧ t.nextCode.toNat ≤ s.nextCode.toNat + 3 ∧
    (∀ c, c < s.nextCode.toNat → Memory.read t.dmem c = Memory.read s.dmem c) ∧
    (∀ c, s.nextCode.toNat ≤ c → c < t.nextCode.toNat → Memory.read t.dmem c ≠ none)

/-- R97, R98: a code below 256 denotes one symbol; a known code `c >= 256` denotes between 2 and `c - 254` symbols, so at most
`MAX_ENTRY_LEN`. -/
def Obligations.EntryLengths : Prop :=
  ∀ (s : State) (c : Nat) (str : Str), Inv s → c < s.nextCode.toNat → Denotes s.dmem c str →
    (c < 256 → str.length = 1) ∧
    (256 ≤ c → 2 ≤ str.length ∧ str.length ≤ c - 254 ∧ str.length ≤ s.cfg.maxEntryLen)

/-- R96: where the keys of an encode operation are distinct, a known code and a symbol make a key exactly where some entry holds that
pair, and that entry is unique; and every non-empty prefix of a key is a key. -/
def Obligations.KeyLookupByPair : Prop :=
  ∀ (s : State) (p : Nat) (w : Str) (c : Sym), Inv s → KeysDistinct s → Encoding s.toBlock → p < s.nextCode.toNat →
    Denotes s.dmem p w →
    ((∃ e, e < s.nextCode.toNat ∧ Denotes s.dmem e (w ++ [c])) ↔
      ∃! e, 256 ≤ e ∧ e < s.nextCode.toNat ∧
        Memory.read s.dmem e = some { parent := BitVec.ofNat 32 p, suffix := c }) ∧
    (∀ pre, pre ≠ [] → pre <+: w → ∃ e, e < s.nextCode.toNat ∧ Denotes s.dmem e pre)

/-! ### Frames -/

/-- Every command leaves `OUTQ` and only appends to `PEND`. It also leaves the model's own fields: the parameters `cfg` (log entry 2),
the coming events `agenda` and what the host holds, `taken` and `reads` (log entry 1); that these are fields of State is the model's
choice. -/
def Obligations.CommandsLeaveTheHostSide : Prop :=
  ∀ (i : Instr) (s t : State), exec i s = .next t →
    t.cfg = s.cfg ∧ t.agenda = s.agenda ∧ t.taken = s.taken ∧ t.reads = s.reads ∧ t.outq = s.outq ∧ s.pend <+: t.pend

/-- Frame of `NOP` and the four BEGIN commands: no entry of `DMEM`, no item of `PEND` or `OUTQ` changes. -/
def Obligations.BeginFrame : Prop :=
  ∀ (i : Instr) (s t : State), exec i s = .next t → isBegin i = true ∨ i = .nop →
    (∀ c, Memory.read t.dmem c = Memory.read s.dmem c) ∧ t.pend = s.pend ∧ t.outq = s.outq

/-- Frame of `E_SYM` and `E_END`: the decoder's, the image and the deserializer's registers stay, the error registers too unless the
command raises; `E_SYM` stores one entry, at the next free code, if `NEXT_CODE` moves, and `E_END` none. -/
def Obligations.GenericEncodeFrame : Prop :=
  ∀ (i : Instr) (s t : State), exec i s = .next t → (∃ c, i = .eSym c) ∨ i = .eEnd →
    t.firstSeen = s.firstSeen ∧ t.imgW = s.imgW ∧ t.imgH = s.imgH ∧ t.pixCount = s.pixCount ∧ t.digBuf = s.digBuf ∧
    t.digErr = s.digErr ∧ t.outq = s.outq ∧
    (t.mode ≠ .error → t.err = s.err ∧ t.errOp = s.errOp ∧ t.errArg = s.errArg) ∧
    (∀ c, t.nextCode = s.nextCode ∨ c ≠ s.nextCode.toNat → Memory.read t.dmem c = Memory.read s.dmem c) ∧
    (i = .eEnd → t.nextCode = s.nextCode ∧ t.wValid = s.wValid ∧ t.wCode = s.wCode ∧ t.dmem = s.dmem)

/-- Frame of `P_PIX` and `P_END`: the decoder's, the dimension and the deserializer's registers stay, the error registers too unless
the command raises; `P_PIX` stores only at the codes from the next free code up to the new `NEXT_CODE`, and `P_END` nothing. -/
def Obligations.PixelEncodeFrame : Prop :=
  ∀ (i : Instr) (s t : State), Inv s → exec i s = .next t → (∃ v, i = .pPix v) ∨ i = .pEnd →
    t.firstSeen = s.firstSeen ∧ t.imgW = s.imgW ∧ t.imgH = s.imgH ∧ t.digBuf = s.digBuf ∧ t.digErr = s.digErr ∧
    t.outq = s.outq ∧
    (t.mode ≠ .error → t.err = s.err ∧ t.errOp = s.errOp ∧ t.errArg = s.errArg) ∧
    (∀ c, c < s.nextCode.toNat ∨ t.nextCode.toNat ≤ c → Memory.read t.dmem c = Memory.read s.dmem c) ∧
    (i = .pEnd → t.nextCode = s.nextCode ∧ t.wValid = s.wValid ∧ t.wCode = s.wCode ∧ t.pixCount = s.pixCount ∧
      t.dmem = s.dmem)

/-- Frame of `D_CODE` and `D_END`: the encoder's flag, the image and the deserializer's registers stay, the error registers too unless
the command raises; `D_CODE` stores one entry, at the next free code, if `NEXT_CODE` moves, and `D_END` none. -/
def Obligations.GenericDecodeFrame : Prop :=
  ∀ (i : Instr) (s t : State), exec i s = .next t → (∃ k, i = .dCode k) ∨ i = .dEnd →
    t.wValid = s.wValid ∧ t.imgW = s.imgW ∧ t.imgH = s.imgH ∧ t.pixCount = s.pixCount ∧ t.digBuf = s.digBuf ∧
    t.digErr = s.digErr ∧ t.outq = s.outq ∧
    (t.mode ≠ .error → t.err = s.err ∧ t.errOp = s.errOp ∧ t.errArg = s.errArg) ∧
    (∀ c, t.nextCode = s.nextCode ∨ c ≠ s.nextCode.toNat → Memory.read t.dmem c = Memory.read s.dmem c) ∧
    (i = .dEnd → t = { s with mode := t.mode, err := t.err, errOp := t.errOp, errArg := t.errArg })

/-- Frame of `PD_CODE` and `PD_END`: the encoder's flag and the dimension registers stay, the error registers too unless the command
raises; `PD_CODE` stores one entry, at the next free code, if `NEXT_CODE` moves, and `PD_END` none. -/
def Obligations.PixelDecodeFrame : Prop :=
  ∀ (i : Instr) (s t : State), exec i s = .next t → (∃ k, i = .pdCode k) ∨ i = .pdEnd →
    t.wValid = s.wValid ∧ t.imgW = s.imgW ∧ t.imgH = s.imgH ∧ t.outq = s.outq ∧
    (t.mode ≠ .error → t.err = s.err ∧ t.errOp = s.errOp ∧ t.errArg = s.errArg) ∧
    (∀ c, t.nextCode = s.nextCode ∨ c ≠ s.nextCode.toNat → Memory.read t.dmem c = Memory.read s.dmem c) ∧
    (i = .pdEnd → t = { s with mode := t.mode, err := t.err, errOp := t.errOp, errArg := t.errArg })

/-! ### Invariants of every state -/

/-- The invariant holds right after reset, for every legal parameter value and whatever host and environment do next. -/
def Obligations.InvAtReset : Prop :=
  ∀ (cfg : Config) (agenda : List Event), cfg.Legal → Inv { State.resetWith cfg with agenda := agenda }

/-- Every step, of the host, the core or the environment, keeps the invariant: R39's items, the canonical memory inside `DMEM`'s codes,
the registers each operation leaves 0, the capacity of `OUTQ`, and the range of every item (R77). -/
def Obligations.EveryStepKeepsInv : Prop := ∀ s t : State, Inv s → step s = .next t → Inv t

/-- No step from a state with the invariant stops: every command and every other event answers a next state. -/
def Obligations.NoStepStops : Prop := ∀ s : State, Inv s → ∃ t, step s = .next t

/-- R96: every step keeps the keys of an encode operation pairwise distinct. -/
def Obligations.EncoderKeysStayDistinct : Prop :=
  ∀ s t : State, Inv s → KeysDistinct s → step s = .next t → KeysDistinct t

/-- R39: its six items, in every reachable state. -/
def Obligations.ReachableStateInvariants : Prop :=
  ∀ s : State, Reachable s →
    (256 ≤ s.nextCode.toNat ∧ s.nextCode.toNat ≤ s.cfg.dictDepth) ∧
    (s.mode = .enc ∨ s.mode = .penc → s.wValid = true → s.wCode.toNat < s.nextCode.toNat) ∧
    (s.mode = .dec ∨ s.mode = .pdec → s.firstSeen = true → s.wCode.toNat < s.nextCode.toNat) ∧
    (∀ c, 256 ≤ c → c < s.nextCode.toNat →
      ∃ e, Memory.read s.dmem c = some e ∧ e.parent.toNat < c ∧ e.suffix.toNat < 256) ∧
    (errBits s.err = 0 ↔ s.mode ≠ .error) ∧
    s.digBuf.length ≤ 2 ∧ (s.mode ≠ .pdec → s.mode ≠ .error → s.digBuf = [] ∧ s.digErr = false)

/-! ### Whole operations against the source's algorithms -/

/-- R126: a generic encode from a reachable kind of state, between operations and with nothing waiting, either completes with exactly
the codes of the source's compress, or ends in `DictFullError`.
The host's schedule is log entry 16, the source's algorithm as transcribed is log entry 19. -/
def Obligations.EncodeMatchesTheSource : Prop :=
  ∀ (s : State) (str : Str), Inv s → s.mode = .idle ∨ s.mode = .error → s.pend = [] → s.outq = [] →
    ∃ t, issueAll (encodeOperation str) s = .next t ∧
      ((t.mode = .idle ∧
          t.taken = s.taken ++ (refCompress str).map (fun k => { kind := .code, data := BitVec.ofNat 32 k })) ∨
        (t.mode = .error ∧ t.err = .dictFull))

/-- R145: a generic decode ends with the verdict of the source's decompress, and on success with its symbols, unless it ends in
`DictFullError`.
The host's schedule is log entry 16, the source's algorithm as transcribed is log entry 19. -/
def Obligations.DecodeMatchesTheSource : Prop :=
  ∀ (s : State) (codes : List Word), Inv s → s.mode = .idle ∨ s.mode = .error → s.pend = [] → s.outq = [] →
    ∃ t, issueAll (decodeOperation codes) s = .next t ∧
      ((t.mode = .error ∧ t.err = .dictFull) ∨
        (∃ out, refDecompress (codes.map BitVec.toNat) = .ok out ∧ t.mode = .idle ∧
          t.taken = s.taken ++ out.map (fun c => { kind := .sym, data := c.setWidth 32 })) ∨
        (∃ e, refDecompress (codes.map BitVec.toNat) = .error e ∧ t.mode = .error ∧ t.err = e))

/-- R144: decoding what an encode of a non-empty string gave, on an instance with the same `DICT_DEPTH`, succeeds and gives the string
back; of the empty string, decoding raises `EmptyInputError`.
The host's schedule is log entry 16. -/
def Obligations.GenericRoundTrip : Prop :=
  ∀ (s t u : State) (str : Str) (codes : List Word),
    Inv s → s.mode = .idle ∨ s.mode = .error → s.pend = [] → s.outq = [] →
    Inv u → u.mode = .idle ∨ u.mode = .error → u.pend = [] → u.outq = [] → u.cfg.dictDepth = s.cfg.dictDepth →
    issueAll (encodeOperation str) s = .next t → t.mode = .idle → codes = (t.taken.drop s.taken.length).map (·.data) →
    ∃ v, issueAll (decodeOperation codes) u = .next v ∧
      (str ≠ [] → v.mode = .idle ∧ v.taken = u.taken ++ str.map (fun c => { kind := .sym, data := c.setWidth 32 })) ∧
      (str = [] → v.mode = .error ∧ v.err = .emptyInput)

/-- R164: a pixel encode ends with the verdict and the codes of the source's pixel compress, unless it ends in `DictFullError`; on
success the dimensions given are readable.
The host's schedule is log entry 16, the source's algorithm as transcribed is log entry 19. -/
def Obligations.PixelEncodeMatchesTheSource : Prop :=
  ∀ (s : State) (w h : Dim) (pixels : List Word), Inv s → s.mode = .idle ∨ s.mode = .error → s.pend = [] → s.outq = [] →
    ∃ t, issueAll (pixelEncodeOperation w h pixels) s = .next t ∧
      ((t.mode = .error ∧ t.err = .dictFull) ∨
        (∃ codes, refPixelCompress (pixels.map BitVec.toInt) = .ok codes ∧ t.mode = .idle ∧ t.imgW = w ∧ t.imgH = h ∧
          t.taken = s.taken ++ codes.map (fun k => { kind := .code, data := BitVec.ofNat 32 k })) ∨
        (∃ e, refPixelCompress (pixels.map BitVec.toInt) = .error e ∧ t.mode = .error ∧ t.err = e))

/-- R186: a pixel decode ends with the verdict of the source's pixel decompress, an LZW error before a malformed chunk before a size
mismatch, and on success with its pixels, unless it ends in `DictFullError`.
The host's schedule is log entry 16, the source's algorithm as transcribed is log entry 19. -/
def Obligations.PixelDecodeMatchesTheSource : Prop :=
  ∀ (s : State) (w h : Dim) (codes : List Word), Inv s → s.mode = .idle ∨ s.mode = .error → s.pend = [] → s.outq = [] →
    ∃ t, issueAll (pixelDecodeOperation w h codes) s = .next t ∧
      ((t.mode = .error ∧ t.err = .dictFull) ∨
        (∃ pixels, refPixelDecompress w.toNat h.toNat (codes.map BitVec.toNat) = .ok pixels ∧ t.mode = .idle ∧
          t.taken = s.taken ++ pixels.map (fun v => { kind := .pix, data := BitVec.ofNat 32 v })) ∨
        (∃ e, refPixelDecompress w.toNat h.toNat (codes.map BitVec.toNat) = .error e ∧ t.mode = .error ∧ t.err = e))

/-! ### The host adapter -/

/-- R224: an integer too wide for its field, saturated, is classified as the integer itself: a code is above 255 and above `NEXT_CODE`
of every state with the invariant, a symbol is out of range, and a pixel is out of `0..255`. -/
def Obligations.SaturationKeepsTheVerdict : Prop :=
  (∀ (n : Nat) (s : State), Inv s → 2 ^ 32 ≤ n →
    saturateUnsigned n = 0xFFFFFFFF ∧ 256 ≤ (saturateUnsigned n).toNat ∧ s.nextCode.toNat < (saturateUnsigned n).toNat) ∧
  (∀ n : Nat, n < 2 ^ 32 → (saturateUnsigned n).toNat = n) ∧
  (∀ v : Int, 2 ^ 31 - 1 < v → saturatePixel v = 0x7FFFFFFF ∧ 255 < (saturatePixel v).toInt) ∧
  (∀ v : Int, v < -(2 ^ 31) → saturatePixel v = 0x80000000 ∧ (saturatePixel v).toInt < 0) ∧
  (∀ v : Int, -(2 ^ 31) ≤ v → v ≤ 2 ^ 31 - 1 → (saturatePixel v).toInt = v)

/-- R165, R184: row-major order and reshape are inverse on a grid of `h` rows of `w` pixels, and pixel `i` of the stream stands at
row `i div w`, column `i mod w`. -/
def Obligations.ReshapeOfRowMajor : Prop :=
  ∀ (w h : Nat) (grid : List (List Word)), grid.length = h → (∀ row ∈ grid, row.length = w) →
    reshape w h (rowMajor grid) = grid ∧
    ∀ i, i < w * h → (rowMajor grid)[i]? = (grid[i / w]?).bind (fun row => row[i % w]?)
end

