-- ==== Sys2Proof/Laws/Memory.lean ====
section
/-!
SUPPORT. The laws of the dictionary memory: read after write, the canonical form, and what the search finds.
-/

namespace Sys2Proof.Machine

open Sys2Proof.Safety

theorem Memory.read_write_same (m : Memory) (c : Nat) (e : Entry) : Memory.read (Memory.write m c e) c = some e := by
  induction m with
  | nil => simp [Memory.write, Memory.read]
  | cons x m ih =>
    obtain ⟨a, x⟩ := x
    simp only [Memory.write]
    split_ifs with h1 h2
    · simp [Memory.read]
    · simp [Memory.read]
    · simp only [Memory.read, if_neg (Ne.symm h2), ih]

theorem Memory.read_write_other (m : Memory) (c c' : Nat) (e : Entry) (h : c' ≠ c) :
    Memory.read (Memory.write m c e) c' = Memory.read m c' := by
  induction m with
  | nil => simp [Memory.write, Memory.read, Ne.symm h]
  | cons x m ih =>
    obtain ⟨a, x⟩ := x
    simp only [Memory.write]
    split_ifs with h1 h2
    · simp [Memory.read, Ne.symm h]
    · subst h2; simp [Memory.read, Ne.symm h]
    · simp only [Memory.read, ih]

theorem Memory.mem_write {m : Memory} {c : Nat} {e : Entry} {x : Nat × Entry} (h : x ∈ Memory.write m c e) :
    x = (c, e) ∨ x ∈ m := by
  induction m with
  | nil => simpa [Memory.write] using h
  | cons y m ih =>
    obtain ⟨a, y⟩ := y
    simp only [Memory.write] at h
    split_ifs at h with h1 h2
    · simpa using h
    · rcases List.mem_cons.1 h with h | h
      · exact .inl h
      · exact .inr (List.mem_cons_of_mem _ h)
    · rcases List.mem_cons.1 h with h | h
      · exact .inr (h ▸ List.mem_cons_self)
      · exact (ih h).imp_right (List.mem_cons_of_mem _)

/-- A write keeps the canonical form. -/
theorem Memory.write_wf {depth : Nat} {m : Memory} {c : Nat} {e : Entry} (h : Memory.wf depth m) (hc : 256 ≤ c ∧ c < depth) :
    Memory.wf depth (Memory.write m c e) := by
  refine ⟨?_, fun x hx => (Memory.mem_write hx).elim (fun h => h ▸ hc) (h.2 x)⟩
  have hp := h.1
  clear h
  induction m with
  | nil => simp [Memory.write]
  | cons y m ih =>
    obtain ⟨a, y⟩ := y
    obtain ⟨h1, h2⟩ := List.pairwise_cons.1 hp
    simp only [Memory.write]
    split_ifs with hlt heq
    · refine List.pairwise_cons.2 ⟨fun x hx => ?_, hp⟩
      rcases List.mem_cons.1 hx with rfl | hx
      · exact hlt
      · exact lt_trans hlt (h1 x hx)
    · subst heq
      exact List.pairwise_cons.2 ⟨h1, h2⟩
    · refine List.pairwise_cons.2 ⟨fun x hx => ?_, ih h2⟩
      rcases Memory.mem_write hx with rfl | hx
      · show a < c
        omega
      · exact h1 x hx

/-- Every memory operation of a command that answers keeps the canonical form. -/
theorem dmemWrite_wf {depth : Nat} {m m' : Memory} {c : Nat} {e : Entry} (h : Memory.wf depth m)
    (hw : dmemWrite depth m c e = .ok m') : Memory.wf depth m' := by
  unfold dmemWrite at hw
  split_ifs at hw with hc
  cases hw
  exact Memory.write_wf h hc

theorem reset_memory_wf (depth : Nat) : Memory.wf depth Block.reset.dmem := by simp [Memory.wf, Block.reset]

/-- In the canonical form, reading a code gives its listed entry. -/
theorem Memory.read_eq_some_iff {m : Memory} (h : m.Pairwise (fun x y => x.1 < y.1)) (c : Nat) (e : Entry) :
    Memory.read m c = some e ↔ (c, e) ∈ m := by
  induction m with
  | nil => simp [Memory.read]
  | cons x m ih =>
    obtain ⟨a, x⟩ := x
    obtain ⟨h1, h2⟩ := List.pairwise_cons.1 h
    simp only [Memory.read, List.mem_cons, Prod.mk.injEq]
    split_ifs with hac
    · subst hac
      refine ⟨fun he => .inl ⟨rfl, (Option.some.inj he).symm⟩, ?_⟩
      rintro (⟨-, rfl⟩ | hm)
      · rfl
      · exact absurd (h1 _ hm) (lt_irrefl _)
    · rw [ih h2]
      exact ⟨.inr, fun hm => hm.resolve_left (fun hh => hac hh.1.symm)⟩

/-- The search finds the lowest code that holds the pair (R92). -/
theorem Memory.find_eq_some {m : Memory} (h : m.Pairwise (fun x y => x.1 < y.1)) {next : Nat} {p : Word} {s : Sym} {e : Nat}
    (hf : Memory.find m next p s = some e) : LowestPair m next p s e := by
  induction m with
  | nil => simp [Memory.find] at hf
  | cons x m ih =>
    obtain ⟨a, x⟩ := x
    obtain ⟨h1, h2⟩ := List.pairwise_cons.1 h
    simp only [Memory.find] at hf
    split_ifs at hf with hc
    · cases hf
      obtain ⟨hc1, hc2, rfl⟩ := hc
      refine ⟨hc1, hc2, by simp [Memory.read], fun c _ hlt hr => ?_⟩
      have := (Memory.read_eq_some_iff h c _).1 hr
      rcases List.mem_cons.1 this with hh | hh
      · have := (Prod.mk.inj hh).1
        omega
      · have := h1 _ hh
        simp only at this
        omega
    · obtain ⟨i1, i2, i3, i4⟩ := ih h2 hf
      have hae := h1 _ ((Memory.read_eq_some_iff h2 e _).1 i3)
      simp only at hae
      refine ⟨i1, i2, ?_, fun c c1 c2 => ?_⟩
      · simp only [Memory.read, if_neg (by omega : ¬ a = e), i3]
      · simp only [Memory.read]
        split_ifs with hac
        · intro hx
          subst hac
          exact hc ⟨c1, by omega, Option.some.inj hx⟩
        · exact i4 c c1 c2

/-- The search fails only where no known code holds the pair (R92). -/
theorem Memory.find_eq_none {m : Memory} (h : m.Pairwise (fun x y => x.1 < y.1)) {next : Nat} {p : Word} {s : Sym}
    (hf : Memory.find m next p s = none) : ¬ HasPair m next p s := by
  rintro ⟨c, c1, c2, hr⟩
  induction m with
  | nil => simp [Memory.read] at hr
  | cons x m ih =>
    obtain ⟨a, x⟩ := x
    obtain ⟨h1, h2⟩ := List.pairwise_cons.1 h
    simp only [Memory.find] at hf
    split_ifs at hf with hc
    simp only [Memory.read] at hr
    split_ifs at hr with hac
    · subst hac
      exact hc ⟨c1, c2, Option.some.inj hr⟩
    · exact ih h2 hf hr

theorem Memory.find_iff {m : Memory} (h : m.Pairwise (fun x y => x.1 < y.1)) (next : Nat) (p : Word) (s : Sym) :
    (∃ e, Memory.find m next p s = some e ∧ LowestPair m next p s e) ∨
      (Memory.find m next p s = none ∧ ¬ HasPair m next p s) := by
  cases hf : Memory.find m next p s with
  | none => exact .inr ⟨rfl, Memory.find_eq_none h hf⟩
  | some e => exact .inl ⟨e, rfl, Memory.find_eq_some h hf⟩

end Sys2Proof.Machine

namespace Sys2Proof.Safety

open Sys2Proof.Machine

theorem LowestPair.hasPair {m : Memory} {next : Nat} {p : Word} {s : Sym} {e : Nat} (h : LowestPair m next p s e) :
    HasPair m next p s := ⟨e, h.1, h.2.1, h.2.2.1⟩

theorem LowestPair.unique {m : Memory} {next : Nat} {p : Word} {s : Sym} {e e' : Nat} (h : LowestPair m next p s e)
    (h' : LowestPair m next p s e') : e = e' := by
  obtain ⟨a1, a2, a3, a4⟩ := h
  obtain ⟨b1, b2, b3, b4⟩ := h'
  rcases lt_trichotomy e e' with hlt | heq | hgt
  · exact absurd a3 (b4 e a1 hlt)
  · exact heq
  · exact absurd b3 (a4 e' b1 hgt)

end Sys2Proof.Safety
end

