-- ==== Sys2Proof/Laws/State.lean ====
section
/-!
SUPPORT. One lemma per field per update of the block, true by rfl, so that no proof unfolds a record update.
-/

namespace Sys2Proof.Machine

@[simp] theorem emit_mode (k : Kind) (v : Word) (b : Block) : (emit k v b).mode = b.mode := rfl
@[simp] theorem emit_err (k : Kind) (v : Word) (b : Block) : (emit k v b).err = b.err := rfl
@[simp] theorem emit_errOp (k : Kind) (v : Word) (b : Block) : (emit k v b).errOp = b.errOp := rfl
@[simp] theorem emit_errArg (k : Kind) (v : Word) (b : Block) : (emit k v b).errArg = b.errArg := rfl
@[simp] theorem emit_nextCode (k : Kind) (v : Word) (b : Block) : (emit k v b).nextCode = b.nextCode := rfl
@[simp] theorem emit_wValid (k : Kind) (v : Word) (b : Block) : (emit k v b).wValid = b.wValid := rfl
@[simp] theorem emit_wCode (k : Kind) (v : Word) (b : Block) : (emit k v b).wCode = b.wCode := rfl
@[simp] theorem emit_firstSeen (k : Kind) (v : Word) (b : Block) : (emit k v b).firstSeen = b.firstSeen := rfl
@[simp] theorem emit_imgW (k : Kind) (v : Word) (b : Block) : (emit k v b).imgW = b.imgW := rfl
@[simp] theorem emit_imgH (k : Kind) (v : Word) (b : Block) : (emit k v b).imgH = b.imgH := rfl
@[simp] theorem emit_pixCount (k : Kind) (v : Word) (b : Block) : (emit k v b).pixCount = b.pixCount := rfl
@[simp] theorem emit_digBuf (k : Kind) (v : Word) (b : Block) : (emit k v b).digBuf = b.digBuf := rfl
@[simp] theorem emit_digErr (k : Kind) (v : Word) (b : Block) : (emit k v b).digErr = b.digErr := rfl
@[simp] theorem emit_dmem (k : Kind) (v : Word) (b : Block) : (emit k v b).dmem = b.dmem := rfl
@[simp] theorem emit_pend (k : Kind) (v : Word) (b : Block) : (emit k v b).pend = b.pend ++ [{ kind := k, data := v }] := rfl
@[simp] theorem emit_outq (k : Kind) (v : Word) (b : Block) : (emit k v b).outq = b.outq := rfl

@[simp] theorem emitSyms_mode (str : Str) (b : Block) : (emitSyms str b).mode = b.mode := rfl
@[simp] theorem emitSyms_err (str : Str) (b : Block) : (emitSyms str b).err = b.err := rfl
@[simp] theorem emitSyms_errOp (str : Str) (b : Block) : (emitSyms str b).errOp = b.errOp := rfl
@[simp] theorem emitSyms_errArg (str : Str) (b : Block) : (emitSyms str b).errArg = b.errArg := rfl
@[simp] theorem emitSyms_nextCode (str : Str) (b : Block) : (emitSyms str b).nextCode = b.nextCode := rfl
@[simp] theorem emitSyms_wValid (str : Str) (b : Block) : (emitSyms str b).wValid = b.wValid := rfl
@[simp] theorem emitSyms_wCode (str : Str) (b : Block) : (emitSyms str b).wCode = b.wCode := rfl
@[simp] theorem emitSyms_firstSeen (str : Str) (b : Block) : (emitSyms str b).firstSeen = b.firstSeen := rfl
@[simp] theorem emitSyms_imgW (str : Str) (b : Block) : (emitSyms str b).imgW = b.imgW := rfl
@[simp] theorem emitSyms_imgH (str : Str) (b : Block) : (emitSyms str b).imgH = b.imgH := rfl
@[simp] theorem emitSyms_pixCount (str : Str) (b : Block) : (emitSyms str b).pixCount = b.pixCount := rfl
@[simp] theorem emitSyms_digBuf (str : Str) (b : Block) : (emitSyms str b).digBuf = b.digBuf := rfl
@[simp] theorem emitSyms_digErr (str : Str) (b : Block) : (emitSyms str b).digErr = b.digErr := rfl
@[simp] theorem emitSyms_dmem (str : Str) (b : Block) : (emitSyms str b).dmem = b.dmem := rfl
@[simp] theorem emitSyms_pend (str : Str) (b : Block) : (emitSyms str b).pend = b.pend ++ str.map (fun s => { kind := .sym, data := s.setWidth 32 }) := rfl
@[simp] theorem emitSyms_outq (str : Str) (b : Block) : (emitSyms str b).outq = b.outq := rfl

@[simp] theorem errorEntry_mode (e : ErrCode) (op : BitVec 8) (arg : Word) (b : Block) : (errorEntry e op arg b).mode = .error := rfl
@[simp] theorem errorEntry_err (e : ErrCode) (op : BitVec 8) (arg : Word) (b : Block) : (errorEntry e op arg b).err = e := rfl
@[simp] theorem errorEntry_errOp (e : ErrCode) (op : BitVec 8) (arg : Word) (b : Block) : (errorEntry e op arg b).errOp = op := rfl
@[simp] theorem errorEntry_errArg (e : ErrCode) (op : BitVec 8) (arg : Word) (b : Block) : (errorEntry e op arg b).errArg = arg := rfl
@[simp] theorem errorEntry_nextCode (e : ErrCode) (op : BitVec 8) (arg : Word) (b : Block) : (errorEntry e op arg b).nextCode = b.nextCode := rfl
@[simp] theorem errorEntry_wValid (e : ErrCode) (op : BitVec 8) (arg : Word) (b : Block) : (errorEntry e op arg b).wValid = b.wValid := rfl
@[simp] theorem errorEntry_wCode (e : ErrCode) (op : BitVec 8) (arg : Word) (b : Block) : (errorEntry e op arg b).wCode = b.wCode := rfl
@[simp] theorem errorEntry_firstSeen (e : ErrCode) (op : BitVec 8) (arg : Word) (b : Block) : (errorEntry e op arg b).firstSeen = b.firstSeen := rfl
@[simp] theorem errorEntry_imgW (e : ErrCode) (op : BitVec 8) (arg : Word) (b : Block) : (errorEntry e op arg b).imgW = b.imgW := rfl
@[simp] theorem errorEntry_imgH (e : ErrCode) (op : BitVec 8) (arg : Word) (b : Block) : (errorEntry e op arg b).imgH = b.imgH := rfl
@[simp] theorem errorEntry_pixCount (e : ErrCode) (op : BitVec 8) (arg : Word) (b : Block) : (errorEntry e op arg b).pixCount = b.pixCount := rfl
@[simp] theorem errorEntry_digBuf (e : ErrCode) (op : BitVec 8) (arg : Word) (b : Block) : (errorEntry e op arg b).digBuf = b.digBuf := rfl
@[simp] theorem errorEntry_digErr (e : ErrCode) (op : BitVec 8) (arg : Word) (b : Block) : (errorEntry e op arg b).digErr = b.digErr := rfl
@[simp] theorem errorEntry_dmem (e : ErrCode) (op : BitVec 8) (arg : Word) (b : Block) : (errorEntry e op arg b).dmem = b.dmem := rfl
@[simp] theorem errorEntry_pend (e : ErrCode) (op : BitVec 8) (arg : Word) (b : Block) : (errorEntry e op arg b).pend = b.pend := rfl
@[simp] theorem errorEntry_outq (e : ErrCode) (op : BitVec 8) (arg : Word) (b : Block) : (errorEntry e op arg b).outq = b.outq := rfl

@[simp] theorem opInit_mode (b : Block) : (opInit b).mode = b.mode := rfl
@[simp] theorem opInit_err (b : Block) : (opInit b).err = .noError := rfl
@[simp] theorem opInit_errOp (b : Block) : (opInit b).errOp = 0 := rfl
@[simp] theorem opInit_errArg (b : Block) : (opInit b).errArg = 0 := rfl
@[simp] theorem opInit_nextCode (b : Block) : (opInit b).nextCode = 256 := rfl
@[simp] theorem opInit_wValid (b : Block) : (opInit b).wValid = false := rfl
@[simp] theorem opInit_wCode (b : Block) : (opInit b).wCode = 0 := rfl
@[simp] theorem opInit_firstSeen (b : Block) : (opInit b).firstSeen = false := rfl
@[simp] theorem opInit_imgW (b : Block) : (opInit b).imgW = 0 := rfl
@[simp] theorem opInit_imgH (b : Block) : (opInit b).imgH = 0 := rfl
@[simp] theorem opInit_pixCount (b : Block) : (opInit b).pixCount = 0 := rfl
@[simp] theorem opInit_digBuf (b : Block) : (opInit b).digBuf = [] := rfl
@[simp] theorem opInit_digErr (b : Block) : (opInit b).digErr = false := rfl
@[simp] theorem opInit_dmem (b : Block) : (opInit b).dmem = b.dmem := rfl
@[simp] theorem opInit_pend (b : Block) : (opInit b).pend = b.pend := rfl
@[simp] theorem opInit_outq (b : Block) : (opInit b).outq = b.outq := rfl

@[simp] theorem countPixel_mode (b : Block) : (countPixel b).mode = b.mode := rfl
@[simp] theorem countPixel_err (b : Block) : (countPixel b).err = b.err := rfl
@[simp] theorem countPixel_errOp (b : Block) : (countPixel b).errOp = b.errOp := rfl
@[simp] theorem countPixel_errArg (b : Block) : (countPixel b).errArg = b.errArg := rfl
@[simp] theorem countPixel_nextCode (b : Block) : (countPixel b).nextCode = b.nextCode := rfl
@[simp] theorem countPixel_wValid (b : Block) : (countPixel b).wValid = b.wValid := rfl
@[simp] theorem countPixel_wCode (b : Block) : (countPixel b).wCode = b.wCode := rfl
@[simp] theorem countPixel_firstSeen (b : Block) : (countPixel b).firstSeen = b.firstSeen := rfl
@[simp] theorem countPixel_imgW (b : Block) : (countPixel b).imgW = b.imgW := rfl
@[simp] theorem countPixel_imgH (b : Block) : (countPixel b).imgH = b.imgH := rfl
@[simp] theorem countPixel_pixCount (b : Block) : (countPixel b).pixCount = sat32 (b.pixCount.toNat + 1) := rfl
@[simp] theorem countPixel_digBuf (b : Block) : (countPixel b).digBuf = b.digBuf := rfl
@[simp] theorem countPixel_digErr (b : Block) : (countPixel b).digErr = b.digErr := rfl
@[simp] theorem countPixel_dmem (b : Block) : (countPixel b).dmem = b.dmem := rfl
@[simp] theorem countPixel_pend (b : Block) : (countPixel b).pend = b.pend := rfl
@[simp] theorem countPixel_outq (b : Block) : (countPixel b).outq = b.outq := rfl

@[simp] theorem withBlock_toBlock (s : State) (b : Block) : (withBlock s b).toBlock = b := rfl
@[simp] theorem withBlock_cfg (s : State) (b : Block) : (withBlock s b).cfg = s.cfg := rfl
@[simp] theorem withBlock_agenda (s : State) (b : Block) : (withBlock s b).agenda = s.agenda := rfl
@[simp] theorem withBlock_taken (s : State) (b : Block) : (withBlock s b).taken = s.taken := rfl
@[simp] theorem withBlock_reads (s : State) (b : Block) : (withBlock s b).reads = s.reads := rfl

@[simp] theorem raiseError_toBlock (e : ErrCode) (op : BitVec 8) (arg : Word) (s : State) :
    (raiseError e op arg s).toBlock = errorEntry e op arg s.toBlock := rfl
@[simp] theorem raiseError_cfg (e : ErrCode) (op : BitVec 8) (arg : Word) (s : State) :
    (raiseError e op arg s).cfg = s.cfg := rfl
@[simp] theorem raiseError_agenda (e : ErrCode) (op : BitVec 8) (arg : Word) (s : State) :
    (raiseError e op arg s).agenda = s.agenda := rfl
@[simp] theorem raiseError_taken (e : ErrCode) (op : BitVec 8) (arg : Word) (s : State) :
    (raiseError e op arg s).taken = s.taken := rfl
@[simp] theorem raiseError_reads (e : ErrCode) (op : BitVec 8) (arg : Word) (s : State) :
    (raiseError e op arg s).reads = s.reads := rfl

@[simp] theorem withBlock_self (s : State) : withBlock s s.toBlock = s := rfl

end Sys2Proof.Machine
end

