-- ==== Sys2Proof/Laws/Results.lean ====
section
/-!
SUPPORT. What a procedure's result says of its parts, and the three ends of a command (00_scope.md R9, 60_exceptions.md R212).
-/

namespace Sys2Proof.Machine

@[simp] theorem Res.bind_ok {α β : Type} (a : α) (f : α → Res β) : (Res.ok a).bind f = f a := rfl
@[simp] theorem Res.bind_raise {α β : Type} (e : ErrCode) (x : Word) (f : α → Res β) : (Res.raise e x).bind f = .raise e x := rfl
@[simp] theorem Res.bind_fault {α β : Type} (x : Fault) (f : α → Res β) : (Res.fault x).bind f = .fault x := rfl
@[simp] theorem Res.map_ok {α β : Type} (a : α) (f : α → β) : (Res.ok a).map f = .ok (f a) := rfl
@[simp] theorem Res.map_raise {α β : Type} (e : ErrCode) (x : Word) (f : α → β) : (Res.raise e x).map f = .raise e x := rfl
@[simp] theorem Res.map_fault {α β : Type} (x : Fault) (f : α → β) : (Res.fault x).map f = .fault x := rfl

theorem Res.bind_eq_ok {α β : Type} {r : Res α} {f : α → Res β} {b : β} (h : r.bind f = .ok b) :
    ∃ a, r = .ok a ∧ f a = .ok b := by
  cases r with
  | ok a => exact ⟨a, rfl, h⟩
  | raise e x => cases h
  | fault x => cases h

theorem Res.map_eq_ok {α β : Type} {r : Res α} {f : α → β} {b : β} (h : r.map f = .ok b) : ∃ a, r = .ok a ∧ f a = b := by
  cases r with
  | ok a => exact ⟨a, rfl, by cases h; rfl⟩
  | raise e x => cases h
  | fault x => cases h

theorem Res.bind_eq_raise {α β : Type} {r : Res α} {f : α → Res β} {e : ErrCode} {x : Word} (h : r.bind f = .raise e x) :
    r = .raise e x ∨ ∃ a, r = .ok a ∧ f a = .raise e x := by
  cases r with
  | ok a => exact .inr ⟨a, rfl, h⟩
  | raise e' x' => exact .inl (by cases h; rfl)
  | fault x' => cases h

theorem Res.map_eq_raise {α β : Type} {r : Res α} {f : α → β} {e : ErrCode} {x : Word} (h : r.map f = .raise e x) :
    r = .raise e x := by
  cases r with
  | ok a => cases h
  | raise e' x' => cases h; rfl
  | fault x' => cases h

/-- A command that answers either completes or takes the error entry (R10, R212, R213). -/
theorem finish_cases {op : BitVec 8} {s t : State} {r : Res Block} (h : finish op s r = .next t) :
    (∃ b, r = .ok b ∧ t = withBlock s b) ∨ (∃ e x, r = .raise e x ∧ t = raiseError e op x s) := by
  cases r with
  | ok b => exact .inl ⟨b, rfl, by cases h; rfl⟩
  | raise e x => exact .inr ⟨e, x, rfl, by cases h; rfl⟩
  | fault x => cases h

/-- What a stream or END command can do (R111). -/
theorem inOperation_cases {m : Mode} {op : BitVec 8} {x : Word} {body : Block → Res Block} {s t : State}
    (h : inOperation m op x body s = .next t) :
    (s.mode = .error ∧ t = s) ∨
    (s.mode ≠ .error ∧ s.mode ≠ m ∧ t = raiseError .protocol op x s) ∨
    (s.mode ≠ .error ∧ s.mode = m ∧ ∃ b, body s.toBlock = .ok b ∧ t = withBlock s b) ∨
    (s.mode ≠ .error ∧ s.mode = m ∧ ∃ e a, body s.toBlock = .raise e a ∧ t = raiseError e op a s) := by
  unfold inOperation at h
  split_ifs at h with h1 h2
  · exact .inl ⟨h1, by cases h; rfl⟩
  · rcases finish_cases h with hb | hr
    · exact .inr (.inr (.inl ⟨h1, h2, hb⟩))
    · exact .inr (.inr (.inr ⟨h1, h2, hr⟩))
  · exact .inr (.inl ⟨h1, h2, by cases h; rfl⟩)

/-- What a BEGIN command can do (R111). -/
theorem beginOperation_cases {op : BitVec 8} {x : Word} {body : Block → Block} {s t : State}
    (h : beginOperation op x body s = .next t) :
    ((s.mode = .idle ∨ s.mode = .error) ∧ t = withBlock s (body s.toBlock)) ∨
    (s.mode ≠ .idle ∧ s.mode ≠ .error ∧ t = raiseError .protocol op x s) := by
  unfold beginOperation at h
  split_ifs at h with h1
  · exact .inl ⟨h1, by cases h; rfl⟩
  · rw [not_or] at h1
    exact .inr ⟨h1.1, h1.2, by cases h; rfl⟩

theorem inOperation_own {m : Mode} {op : BitVec 8} {x : Word} {body : Block → Res Block} {s : State} (hm : s.mode = m)
    (he : m ≠ .error) : inOperation m op x body s = finish op s (body s.toBlock) := by
  subst hm
  simp [inOperation, he]

end Sys2Proof.Machine
end

