-- ==== Sys2Proof/Laws/Dictionary.lean ====
section
/-!
SUPPORT. The dictionary core (40_dictionary.md): the computed strings are the denoted ones (R91), and what an insert can do (R93).
-/

namespace Sys2Proof.Safety

open Sys2Proof.Machine

/-- Every code in `256..n-1` is written and its parent is below it (R39 item 4). -/
abbrev Known (m : Memory) (n : Nat) : Prop :=
  ∀ c, 256 ≤ c → c < n → ∃ e, Memory.read m c = some e ∧ e.parent.toNat < c

theorem Denotes.exists {m : Memory} {n c : Nat} (h : Known m n) (hc : c < n) : ∃ str, Denotes m c str := by
  induction c using Nat.strong_induction_on with
  | _ c ih =>
    by_cases h256 : c < 256
    · exact ⟨_, .seed c h256⟩
    · obtain ⟨e, hr, hp⟩ := h c (by omega) hc
      obtain ⟨str, hs⟩ := ih _ hp (by omega)
      exact ⟨_, .entry c e str (by omega) hr hp hs⟩

theorem Denotes.unique {m : Memory} {c : Nat} {str str' : Str} (h : Denotes m c str) (h' : Denotes m c str') :
    str = str' := by
  induction h generalizing str' with
  | seed c hc =>
    cases h' with
    | seed _ _ => rfl
    | entry _ _ h1 _ _ _ => omega
  | entry c e str h1 hr hp hd ih =>
    cases h' with
    | seed _ _ => omega
    | entry _ e' str' _ hr' _ hd' =>
      rw [hr] at hr'
      cases hr'
      rw [ih hd']

theorem Denotes.ne_nil {m : Memory} {c : Nat} {str : Str} (h : Denotes m c str) : str ≠ [] := by
  cases h <;> simp

theorem dictStrFuel_of_denotes {m : Memory} {c : Nat} {str : Str} (h : Denotes m c str) {fuel : Nat} (hf : c < fuel) :
    dictStrFuel m fuel c = .ok str := by
  induction h generalizing fuel with
  | seed c hc =>
    cases fuel with
    | zero => omega
    | succ fuel => simp [dictStrFuel, hc]
  | entry c e str h1 hr hp hd ih =>
    cases fuel with
    | zero => omega
    | succ fuel => simp [dictStrFuel, dmemRead, Nat.not_lt.2 h1, hr, hp, ih (fuel := fuel) (by omega)]

/-- `dictStr` computes the denoted string (R91). -/
theorem dictStr_of_denotes {m : Memory} {c : Nat} {str : Str} (h : Denotes m c str) : dictStr m c = .ok str :=
  dictStrFuel_of_denotes h (Nat.lt_succ_self c)

theorem dictFirstFuel_of_denotes {m : Memory} {c : Nat} {str : Str} (h : Denotes m c str) {fuel : Nat} (hf : c < fuel) :
    ∃ s, dictFirstFuel m fuel c = .ok s ∧ str.head? = some s := by
  induction h generalizing fuel with
  | seed c hc =>
    cases fuel with
    | zero => omega
    | succ fuel => exact ⟨_, by simp [dictFirstFuel, hc], rfl⟩
  | entry c e str h1 hr hp hd ih =>
    cases fuel with
    | zero => omega
    | succ fuel =>
      obtain ⟨s, hs, hh⟩ := ih (fuel := fuel) (by omega)
      exact ⟨s, by simp [dictFirstFuel, dmemRead, Nat.not_lt.2 h1, hr, hp, hs], by simp [List.head?_append, hh]⟩

/-- `dictFirst` computes the head of the denoted string (R91). -/
theorem dictFirst_of_denotes {m : Memory} {c : Nat} {str : Str} (h : Denotes m c str) :
    ∃ s, dictFirst m c = .ok s ∧ str.head? = some s := dictFirstFuel_of_denotes h (Nat.lt_succ_self c)

/-- A write above a code leaves its string. -/
theorem Denotes.write {m : Memory} {c a : Nat} {e : Entry} {str : Str} (h : Denotes m c str) (ha : c < a) :
    Denotes (Memory.write m a e) c str := by
  induction h with
  | seed c hc => exact .seed c hc
  | entry c e' str h1 hr hp hd ih =>
    exact .entry c e' str h1 (by rw [Memory.read_write_other m a c e (by omega), hr]) hp (ih (by omega))

/-- A string denoted after a write above its code was denoted before. -/
theorem Denotes.of_write {m : Memory} {c a : Nat} {e : Entry} {str : Str} (h : Denotes (Memory.write m a e) c str)
    (ha : c < a) : Denotes m c str := by
  induction h with
  | seed c hc => exact .seed c hc
  | entry c e' str h1 hr hp hd ih =>
    rw [Memory.read_write_other m a c e (by omega)] at hr
    exact .entry c e' str h1 hr hp (ih (by omega))

/-- The entry just written denotes its parent's string and its suffix. -/
theorem Denotes.written {m : Memory} {a : Nat} {p : Word} {s : Sym} {str : Str} (ha : 256 ≤ a) (hp : p.toNat < a)
    (h : Denotes m p.toNat str) : Denotes (Memory.write m a { parent := p, suffix := s }) a (str ++ [s]) :=
  .entry a _ str ha (Memory.read_write_same m a _) hp (h.write hp)

theorem Denotes.entry_eq {m : Memory} {c : Nat} {str : Str} (h : Denotes m c str) (hc : 256 ≤ c) :
    ∃ e str', Memory.read m c = some e ∧ e.parent.toNat < c ∧ Denotes m e.parent.toNat str' ∧ str = str' ++ [e.suffix] := by
  cases h with
  | seed _ _ => omega
  | entry _ e str' h1 hr hp hd => exact ⟨e, str', hr, hp, hd, rfl⟩

/-- An insert keeps the known entries. -/
theorem Known.write {m : Memory} {n : Nat} {p : Word} {s : Sym} (h : Known m n) (hp : p.toNat < n) :
    Known (Memory.write m n { parent := p, suffix := s }) (n + 1) := by
  intro c h1 h2
  by_cases hc : c = n
  · subst hc
    exact ⟨_, Memory.read_write_same m c _, hp⟩
  · rw [Memory.read_write_other m n c _ hc]
    exact h c h1 (by omega)

end Sys2Proof.Safety

namespace Sys2Proof.Machine

open Sys2Proof.Safety

/-- What `DictInsert` gives where the next free code lies in the memory (R93). -/
theorem dictInsert_of_not_full {depth : Nat} {operand p : Word} {s : Sym} {b : Block} (h1 : 256 ≤ b.nextCode.toNat)
    (h2 : b.nextCode.toNat < depth) : dictInsert depth operand p s b =
      .ok { b with dmem := Memory.write b.dmem b.nextCode.toNat { parent := p, suffix := s }, nextCode := b.nextCode + 1 } := by
  simp [dictInsert, dmemWrite, h1, h2, Nat.ne_of_lt h2]

/-- What `DictInsert` gives where the dictionary is full (R93). -/
theorem dictInsert_of_full {depth : Nat} {operand p : Word} {s : Sym} {b : Block} (h : b.nextCode.toNat = depth) :
    dictInsert depth operand p s b = .raise .dictFull operand := by
  simp [dictInsert, h]

/-- Everything an insert that answers can do. -/
theorem dictInsert_eq_ok {depth : Nat} {operand p : Word} {s : Sym} {b b' : Block} (h : dictInsert depth operand p s b = .ok b') :
    256 ≤ b.nextCode.toNat ∧ b.nextCode.toNat < depth ∧
      b' = { b with dmem := Memory.write b.dmem b.nextCode.toNat { parent := p, suffix := s }, nextCode := b.nextCode + 1 } := by
  unfold dictInsert at h
  split_ifs at h with h1
  obtain ⟨m, hm, rfl⟩ := Res.map_eq_ok h
  unfold dmemWrite at hm
  split_ifs at hm with h2
  cases hm
  exact ⟨h2.1, h2.2, rfl⟩

theorem dictInsert_eq_raise {depth : Nat} {operand p : Word} {s : Sym} {b : Block} {e : ErrCode} {x : Word}
    (h : dictInsert depth operand p s b = .raise e x) : b.nextCode.toNat = depth ∧ e = .dictFull ∧ x = operand := by
  unfold dictInsert at h
  split_ifs at h with h1
  · cases h
    exact ⟨h1, rfl, rfl⟩
  · have h := Res.map_eq_raise h
    unfold dmemWrite at h
    split_ifs at h

/-- What the codec procedures rely on and keep: the legal depth, the range of `NEXT_CODE`, the canonical memory, the known
entries, and `w` a known code. -/
structure CoreInv (depth : Nat) (b : Block) : Prop where
  depth_legal : 256 ≤ depth ∧ depth ≤ 2 ^ 32 - 2
  next_range : 256 ≤ b.nextCode.toNat ∧ b.nextCode.toNat ≤ depth
  w_known : b.wCode.toNat < b.nextCode.toNat
  memory_wf : Memory.wf depth b.dmem
  entries : Known b.dmem b.nextCode.toNat

theorem CoreInv.of_inv {s : State} (h : Inv s) : CoreInv s.cfg.dictDepth s.toBlock :=
  ⟨⟨h.cfg_legal.1, h.cfg_legal.2.1⟩, h.next_range, h.w_known, h.memory_wf, h.entries⟩

/-- `NEXT_CODE + 1` does not wrap where the dictionary is not full (R93). -/
theorem nextCode_add_one {depth : Nat} {b : Block} (hd : depth ≤ 2 ^ 32 - 2) (h : b.nextCode.toNat < depth) :
    (b.nextCode + 1).toNat = b.nextCode.toNat + 1 := by
  have : (1 : Word).toNat = 1 := rfl
  rw [BitVec.toNat_add, this, Nat.mod_eq_of_lt (by omega)]

end Sys2Proof.Machine
end

