-- ==== Sys2Proof/Laws/Codec.lean ====
section
/-!
SUPPORT. What the codec procedures can do, once each: `EncStep` (42_generic_encode.md R121), `DecStep` (43_generic_decode.md R141) and
`DigitPush` (45_pixel_decode.md R181); and that they keep `CoreInv`.
-/

namespace Sys2Proof.Machine

open Sys2Proof.Safety

theorem symWord_toNat (c : Sym) : (symWord c).toNat = c.toNat := by
  simp [symWord, Nat.mod_eq_of_lt (by omega : c.toNat < 4294967296)]

/-- `EncStep` in a state with `CoreInv` does what R121 says: one of the three steps, or `DictFullError`. -/
theorem encStep_cases {depth : Nat} {b : Block} (h : CoreInv depth b) (operand : Word) (c : Sym) :
    (∃ b', EncStepRel depth c b b' ∧ encStep depth operand c b = .ok b') ∨
      (EncFull depth c b ∧ encStep depth operand c b = .raise .dictFull operand) := by
  cases hv : b.wValid with
  | false => exact .inl ⟨_, .start hv, by simp [encStep, hv, symWord]⟩
  | true =>
    rcases Memory.find_iff h.memory_wf.1 b.nextCode.toNat b.wCode c with ⟨e, hf, hl⟩ | ⟨hf, hn⟩
    · exact .inl ⟨_, .hit e hv hl, by simp [encStep, hv, dictFind, hf]⟩
    · by_cases hd : b.nextCode.toNat = depth
      · refine .inr ⟨⟨hv, hn, hd⟩, ?_⟩
        rw [encStep, if_pos hv]
        simp only [dictFind, hf, Option.map_none]
        rw [dictInsert_of_full (b := emit .code b.wCode b) hd]
        rfl
      · refine .inl ⟨_, .miss hv hn hd, ?_⟩
        rw [encStep, if_pos hv]
        simp only [dictFind, hf, Option.map_none]
        rw [dictInsert_of_not_full (b := emit .code b.wCode b) h.next_range.1
          (lt_of_le_of_ne h.next_range.2 hd)]
        rfl

/-- `EncStep` answers exactly the steps of R121. -/
theorem encStep_eq_ok_iff {depth : Nat} {b b' : Block} (h : CoreInv depth b) (operand : Word) (c : Sym) :
    encStep depth operand c b = .ok b' ↔ EncStepRel depth c b b' := by
  constructor
  · intro ho
    rcases encStep_cases h operand c with ⟨b'', hr, he⟩ | ⟨-, he⟩
    · rw [he] at ho
      cases ho
      exact hr
    · rw [he] at ho
      cases ho
  · intro hr
    rcases encStep_cases h operand c with ⟨b'', hr', he⟩ | ⟨⟨f1, f2, f3⟩, -⟩
    · rw [he]
      congr 1
      cases hr with
      | start hv => cases hr' <;> simp_all
      | hit e hv hl =>
        cases hr' with
        | start hv' => simp_all
        | hit e' _ hl' => rw [hl.unique hl']
        | miss _ hn _ => exact absurd hl.hasPair hn
      | miss hv hn hd =>
        cases hr' with
        | start hv' => simp_all
        | hit e' _ hl' => exact absurd hl'.hasPair hn
        | miss _ _ _ => rfl
    · cases hr with
      | start hv => simp_all
      | hit e _ hl => exact absurd hl.hasPair f2
      | miss _ _ hd => exact absurd f3 hd

theorem encStepRel_coreInv {depth : Nat} {c : Sym} {b b' : Block} (h : CoreInv depth b) (hr : EncStepRel depth c b b') :
    CoreInv depth b' := by
  have hc : (c.setWidth 32 : Word).toNat < 256 := by
    have := symWord_toNat c
    simp only [symWord] at this
    omega
  cases hr with
  | start hv => exact ⟨h.depth_legal, h.next_range, lt_of_lt_of_le hc h.next_range.1, h.memory_wf, h.entries⟩
  | hit e hv hl =>
    refine ⟨h.depth_legal, h.next_range, ?_, h.memory_wf, h.entries⟩
    show (BitVec.ofNat 32 e).toNat < _
    rw [BitVec.toNat_ofNat]
    exact lt_of_le_of_lt (Nat.mod_le _ _) hl.2.1
  | miss hv hn hd =>
    have hlt := lt_of_le_of_ne h.next_range.2 hd
    have hadd := nextCode_add_one h.depth_legal.2 hlt
    have h1 := h.next_range.1
    refine ⟨h.depth_legal, ?_, ?_, Memory.write_wf h.memory_wf ⟨h1, hlt⟩, ?_⟩
    · simp only [hadd]
      omega
    · simp only [hadd]
      omega
    · simp only [hadd]
      exact h.entries.write h.w_known

/-- `DecStep` on the first code of an operation (R141, step 3). -/
theorem decStep_first {depth : Nat} {k : Word} {b : Block} (hf : b.firstSeen = false) :
    decStep depth k b = if k.toNat < 256 then .ok ({ b with firstSeen := true, wCode := k }, [wordSym k])
      else .raise .unknownCode k := by
  simp [decStep, decFirstCode, hf]

/-- `DecStep` on a later code that is neither known nor the next free code (R141). -/
theorem decStep_corrupt {depth : Nat} {k : Word} {b : Block} (hf : b.firstSeen = true) (hk : b.nextCode.toNat < k.toNat) :
    decStep depth k b = .raise .corruptStream k := by
  have h1 : ¬ k.toNat < b.nextCode.toNat := by omega
  have h2 : k ≠ b.nextCode := fun hh => by rw [hh] at hk; omega
  simp [decStep, hf, decLaterCode, decClassify, h1, h2]

/-- The block after a later code that decodes: `w + f` is inserted and `w` becomes the entry (R141). -/
def decoded (k : Word) (f : Sym) (b : Block) : Block :=
  { b with
    dmem := Memory.write b.dmem b.nextCode.toNat { parent := b.wCode, suffix := f }
    nextCode := b.nextCode + 1
    wCode := k }

/-- `DecStep` on a later code `k <= NEXT_CODE` (R141): `DictFullError` where the dictionary is full, else the string of the
entry, whose first symbol is the one inserted. -/
theorem decStep_later {depth : Nat} {k : Word} {b : Block} (h : CoreInv depth b) (hf : b.firstSeen = true)
    (hk : k.toNat ≤ b.nextCode.toNat) :
    (b.nextCode.toNat = depth ∧ decStep depth k b = .raise .dictFull k) ∨
    (b.nextCode.toNat < depth ∧ ∃ w f str, Denotes b.dmem b.wCode.toNat w ∧
      Denotes (decoded k f b).dmem k.toNat str ∧ str.head? = some f ∧
      (k.toNat < b.nextCode.toNat → Denotes b.dmem k.toNat str) ∧
      (k.toNat = b.nextCode.toNat → str = w ++ [f] ∧ w.head? = some f) ∧
      decStep depth k b = .ok (decoded k f b, str)) := by
  obtain ⟨w, hw⟩ := Denotes.exists h.entries h.w_known
  obtain ⟨fw, hfw, hhw⟩ := dictFirst_of_denotes hw
  have key : ∃ f, decClassify k b = .ok f ∧
      (k.toNat < b.nextCode.toNat → ∃ str, Denotes b.dmem k.toNat str ∧ str.head? = some f) ∧
      (k.toNat = b.nextCode.toNat → w.head? = some f) := by
    by_cases hlt : k.toNat < b.nextCode.toNat
    · obtain ⟨str, hs⟩ := Denotes.exists h.entries hlt
      obtain ⟨f, hf', hh⟩ := dictFirst_of_denotes hs
      exact ⟨f, by simp [decClassify, hlt, hf'], fun _ => ⟨str, hs, hh⟩, fun he => by omega⟩
    · have heq : k = b.nextCode := BitVec.eq_of_toNat_eq (by omega)
      refine ⟨fw, by simp [decClassify, heq, hfw], fun hlt' => absurd hlt' hlt, fun _ => hhw⟩
  obtain ⟨f, hc, hknown, hself⟩ := key
  by_cases hd : b.nextCode.toNat = depth
  · exact .inl ⟨hd, by simp [decStep, hf, decLaterCode, hc, dictInsert_of_full hd]⟩
  · have hlt := lt_of_le_of_ne h.next_range.2 hd
    have hnew : Denotes (decoded k f b).dmem b.nextCode.toNat (w ++ [f]) := Denotes.written h.next_range.1 h.w_known hw
    have hstr : ∃ str, Denotes (decoded k f b).dmem k.toNat str ∧ str.head? = some f ∧
        (k.toNat < b.nextCode.toNat → Denotes b.dmem k.toNat str) ∧
        (k.toNat = b.nextCode.toNat → str = w ++ [f] ∧ w.head? = some f) := by
      rcases Nat.lt_or_eq_of_le hk with hlt' | heq
      · obtain ⟨str, hs, hh⟩ := hknown hlt'
        exact ⟨str, hs.write hlt', hh, fun _ => hs, fun he => by omega⟩
      · refine ⟨w ++ [f], heq ▸ hnew, ?_, fun hl => by omega, fun _ => ⟨rfl, hself heq⟩⟩
        rw [List.head?_append, hself heq]
        rfl
    obtain ⟨str, hs1, hs2, hs3, hs4⟩ := hstr
    refine .inr ⟨hlt, w, f, str, hw, hs1, hs2, hs3, hs4, ?_⟩
    rw [decStep, if_pos hf, decLaterCode, hc, Res.bind_ok, dictInsert_of_not_full h.next_range.1 hlt, Res.bind_ok]
    show Res.map _ (dictStr (decoded k f b).dmem k.toNat) = _
    rw [dictStr_of_denotes hs1]
    rfl

theorem decoded_coreInv {depth : Nat} {k : Word} {f : Sym} {b : Block} (h : CoreInv depth b)
    (hlt : b.nextCode.toNat < depth) (hk : k.toNat ≤ b.nextCode.toNat) : CoreInv depth (decoded k f b) := by
  have hadd := nextCode_add_one h.depth_legal.2 hlt
  have h1 := h.next_range.1
  refine ⟨h.depth_legal, ?_, ?_, Memory.write_wf h.memory_wf ⟨h1, hlt⟩, ?_⟩
  · simp only [decoded, hadd]
    omega
  · simp only [decoded, hadd]
    omega
  · simp only [decoded, hadd]
    exact h.entries.write h.w_known

/-- Everything `DecStep` can do in a state with `CoreInv`, `CoreInv` kept. -/
theorem decStep_total {depth : Nat} {b : Block} (h : CoreInv depth b) (k : Word) :
    (∃ b' str, decStep depth k b = .ok (b', str) ∧ CoreInv depth b' ∧ Denotes b'.dmem k.toNat str ∧ b'.firstSeen = true ∧
      b'.wCode = k) ∨
    (∃ e, decStep depth k b = .raise e k ∧ (e = .unknownCode ∨ e = .corruptStream ∨ e = .dictFull)) := by
  cases hf : b.firstSeen with
  | false =>
    rw [decStep_first hf]
    by_cases hk : k.toNat < 256
    · rw [if_pos hk]
      refine .inl ⟨_, _, rfl, ⟨h.depth_legal, h.next_range, lt_of_lt_of_le hk h.next_range.1, h.memory_wf, h.entries⟩, ?_, rfl, rfl⟩
      have : wordSym k = BitVec.ofNat 8 k.toNat := by
        apply BitVec.eq_of_toNat_eq
        simp [wordSym]
      rw [this]
      exact .seed _ hk
    · rw [if_neg hk]
      exact .inr ⟨_, rfl, .inl rfl⟩
  | true =>
    by_cases hk : k.toNat ≤ b.nextCode.toNat
    · rcases decStep_later h hf hk with ⟨-, he⟩ | ⟨hlt, w, f, str, -, hs, -, -, -, he⟩
      · exact .inr ⟨_, he, .inr (.inr rfl)⟩
      · exact .inl ⟨_, _, he, decoded_coreInv h hlt hk, hs, hf, rfl⟩
    · exact .inr ⟨_, decStep_corrupt hf (by omega), .inr (.inl rfl)⟩

/-- `DigitPush` writes the deserializer's state, `PIX_COUNT` and `PEND` only (R181). -/
theorem digitPush_frame (s : Sym) (b : Block) : ∃ pc buf de pe,
    digitPush s b = { b with pixCount := pc, digBuf := buf, digErr := de, pend := pe } := by
  unfold digitPush
  split
  · unfold completeChunk
    split_ifs
    · exact ⟨_, _, _, _, rfl⟩
    · exact ⟨_, _, _, _, rfl⟩
  · exact ⟨_, _, _, _, rfl⟩

theorem digitPushes_frame (str : Str) (b : Block) : ∃ pc buf de pe,
    digitPushes str b = { b with pixCount := pc, digBuf := buf, digErr := de, pend := pe } := by
  induction str generalizing b with
  | nil => exact ⟨_, _, _, _, rfl⟩
  | cons s str ih =>
    obtain ⟨pc, buf, de, pe, h1⟩ := digitPush_frame s b
    obtain ⟨pc', buf', de', pe', h2⟩ := ih (digitPush s b)
    exact ⟨pc', buf', de', pe', by rw [digitPushes, h2, h1]⟩

/-- `DictFind` finds the lowest code that holds the pair, or nothing where no known code holds it (R92). -/
theorem dictFind_cases {depth : Nat} {b : Block} (h : Memory.wf depth b.dmem) (p : Word) (c : Sym) :
    (∃ e, LowestPair b.dmem b.nextCode.toNat p c e ∧ dictFind p c b = some (BitVec.ofNat 32 e)) ∨
      (¬ HasPair b.dmem b.nextCode.toNat p c ∧ dictFind p c b = none) := by
  rcases Memory.find_iff h.1 b.nextCode.toNat p c with ⟨e, hf, hl⟩ | ⟨hf, hn⟩
  · exact .inl ⟨e, hl, by simp [dictFind, hf]⟩
  · exact .inr ⟨hn, by simp [dictFind, hf]⟩

/-- `EncStep` writes the match, the dictionary and `PEND` only (R121). -/
theorem encStepRel_frame {depth : Nat} {c : Sym} {b b' : Block} (h : EncStepRel depth c b b') :
    ∃ wv wc nc dm pe, b' = { b with wValid := wv, wCode := wc, nextCode := nc, dmem := dm, pend := pe } := by
  cases h <;> exact ⟨_, _, _, _, _, rfl⟩

/-- The steps of a string's symbols keep `CoreInv` (R161). -/
theorem encSteps_coreInv {depth : Nat} {operand : Word} {cs : Str} {b b' : Block} (h : CoreInv depth b)
    (he : encSteps depth operand cs b = .ok b') : CoreInv depth b' := by
  induction cs generalizing b with
  | nil =>
    cases he
    exact h
  | cons c cs ih =>
    obtain ⟨b1, h1, h2⟩ := Res.bind_eq_ok he
    exact ih (encStepRel_coreInv h ((encStep_eq_ok_iff h _ _).1 h1)) h2

/-- The steps of a string's symbols complete or raise `DictFullError`; they never stop (R161, R93). -/
theorem encSteps_total {depth : Nat} {b : Block} (h : CoreInv depth b) (operand : Word) (cs : Str) :
    (∃ b', encSteps depth operand cs b = .ok b') ∨ encSteps depth operand cs b = .raise .dictFull operand := by
  induction cs generalizing b with
  | nil => exact .inl ⟨_, rfl⟩
  | cons c cs ih =>
    rcases encStep_cases h operand c with ⟨b1, hr, he⟩ | ⟨-, he⟩
    · simp only [encSteps, he, Res.bind_ok]
      exact ih (encStepRel_coreInv h hr)
    · exact .inr (by simp only [encSteps, he, Res.bind_raise])

/-- `EncFlush` writes `PEND` only: the code of `w`, if `w` is not empty (R123). -/
theorem encFlush_eq (b : Block) : encFlush b =
    { b with pend := b.pend ++ (if b.wValid then [{ kind := .code, data := b.wCode }] else []) } := by
  unfold encFlush
  split_ifs <;> simp [emit]

theorem sat32_add (n m : Nat) : sat32 ((sat32 n).toNat + m) = sat32 (n + m) := by
  have : (sat32 n).toNat = min n (2 ^ 32 - 1) := by
    simp [sat32]
  rw [this]
  simp only [sat32]
  congr 1
  omega

theorem sat32_toNat (x : Word) : sat32 x.toNat = x := by
  apply BitVec.eq_of_toNat_eq
  simp [sat32]
  omega

/-- Fewer than three symbols make no chunk. -/
theorem chunks_of_short {buf : Str} (h : buf.length ≤ 2) : chunks buf = ([], buf) := by
  rcases buf with _ | ⟨a, _ | ⟨b, _ | ⟨c, l⟩⟩⟩ <;> simp_all [chunks]

/-- Everything `DigitPush` of a string does: the buffer and the string are cut in chunks of three (R181, R182). -/
theorem digitPushes_eq (str : Str) (b : Block) (h : b.digBuf.length ≤ 2) :
    digitPushes str b = { b with
      digBuf := (chunks (b.digBuf ++ str)).2
      digErr := b.digErr || (chunks (b.digBuf ++ str)).1.contains none
      pixCount := sat32 (b.pixCount.toNat + (chunks (b.digBuf ++ str)).1.length)
      pend := b.pend ++ chunkItems (chunks (b.digBuf ++ str)).1 } := by
  induction str generalizing b with
  | nil => simp [digitPushes, chunks_of_short h, chunkItems, sat32_toNat]
  | cons s str ih =>
    rw [digitPushes]
    rcases hb : b.digBuf with _ | ⟨x, _ | ⟨y, _ | ⟨z, l⟩⟩⟩
    · have h1 : digitPush s b = { b with digBuf := [s] } := by simp [digitPush, hb]
      rw [h1, ih _ (by simp)]
      simp
    · have h1 : digitPush s b = { b with digBuf := [x, s] } := by simp [digitPush, hb]
      rw [h1, ih _ (by simp)]
      simp
    · by_cases hv : chunkValid x y s
      · have h1 : digitPush s b = { b with
            digBuf := [], pixCount := sat32 (b.pixCount.toNat + 1)
            pend := b.pend ++ [{ kind := .pix, data := BitVec.ofNat 32 (chunkValue x y s) }] } := by
          simp only [digitPush, hb, List.cons_append, List.nil_append, completeChunk, if_pos hv]
          rfl
        rw [h1, ih _ (by simp)]
        simp only [List.nil_append, List.cons_append, chunks, if_pos hv, sat32_add, List.length_cons]
        simp [chunkItems, Nat.add_assoc, Nat.add_comm]
        congr 1
        omega
      · have h1 : digitPush s b =
            { b with digBuf := [], pixCount := sat32 (b.pixCount.toNat + 1), digErr := true } := by
          simp only [digitPush, hb, List.cons_append, List.nil_append, completeChunk, if_neg hv]
          rfl
        rw [h1, ih _ (by simp)]
        simp only [List.nil_append, List.cons_append, chunks, if_neg hv, sat32_add, List.length_cons]
        simp [chunkItems, Nat.add_assoc, Nat.add_comm]
        congr 1
        omega
    · simp [hb] at h

end Sys2Proof.Machine
end

