-- ==== Sys2Proof/Laws/Operation.lean ====
section
/-!
SUPPORT. Operations (41_control.md R116) and systems (00_scope.md R5): items keep their order on the way to the host, only an accepted
command or a reset touches an operation, and what a result and a system answer for.
-/

namespace Sys2Proof.Machine

/-- All items on their way to the host or with it, oldest first. -/
abbrev stream (s : State) : List Item := s.taken ++ s.outq ++ s.pend

theorem drainStep_stream (s : State) : stream (drainStep s) = stream s := by
  unfold drainStep drainBlock
  split_ifs
  · simp only [stream, withBlock, List.append_assoc, List.take_append_drop]
  · rfl

theorem popStep_stream (s : State) : stream (popStep s) = stream s := by
  simp only [stream, popStep, List.append_assoc]
  rw [← List.append_assoc (s.outq.take 1), List.take_append_drop]

theorem settle_stream (s : State) : stream (settle s) = stream s := by simp [stream, settle]

/-- A step that accepts no command and is no reset keeps every item and their order: what the host has popped, when both queues are
empty, is what commands emitted, in emission order (R116). -/
theorem step_stream {s t : State} (hc : acceptedWord s = none) (hr : resetNext s = false) (h : step s = .next t) :
    stream t = stream s := by
  change agendaStep s = .next t at h
  unfold agendaStep at h
  split at h
  · cases h
    exact drainStep_stream s
  · rename_i cmd rest ha
    have hn : ready s.toBlock = false := by
      cases hb : ready s.toBlock with
      | false => rfl
      | true => simp [acceptedWord, ha, hb] at hc
    rw [issueStep, if_neg (by simp [hn])] at h
    cases h
    exact drainStep_stream s
  · cases h
    exact drainStep_stream _
  · cases h
    exact popStep_stream _
  · cases h
    rfl
  · rename_i rest ha
    simp [resetNext, ha] at hr

/-- Only an accepted command or a reset touches an operation. -/
theorem trackOperation_other {s : State} (t : State) (op : Option Operation) (hc : acceptedWord s = none)
    (hr : resetNext s = false) : trackOperation s t op = op := by simp [trackOperation, hc, hr]

/-- An operation that is not running has ended for good (R116). -/
theorem accept_of_ended {op : Operation} (b : Block) (h : op.verdict ≠ .running) : op.accept b = op := by
  unfold Operation.accept
  cases hv : op.verdict <;> simp_all

/-- A running operation goes on exactly while the block is in an operation's mode. -/
theorem verdictAfter_running_iff (b : Block) : verdictAfter b = .running ↔ inProgress b = true := by
  unfold verdictAfter inProgress
  cases b.mode <;> simp

/-- After a reset an operation has no result unless it had ended and was fully popped (R231). -/
theorem reset_of_incomplete {op : Operation} {b : Block} (h : op.verdict = .running ∨ op.fullyPopped b = false) :
    (op.reset b).verdict = .aborted := by
  rw [Operation.reset, if_pos h]

/-- A reset keeps an operation that had ended and was fully popped. -/
theorem reset_of_complete {op : Operation} {b : Block} (h : op.verdict ≠ .running) (hp : op.fullyPopped b = true) :
    op.reset b = op := by
  rw [Operation.reset, if_neg (by simp [h, hp])]

/-- A result is there only at the quiescence of R236 and of an operation that has ended and was not aborted (R116, R231, R238). -/
theorem operationResult_eq_some {op : Operation} {s : State} {r : Except ErrCode (List Word)}
    (h : operationResult op s = some r) :
    (s.pend = [] ∧ s.outq = []) ∧
      ((op.verdict = .succeeded ∧ r = .ok (op.items.map (·.data))) ∨ ∃ e, op.verdict = .failed e ∧ r = .error e) := by
  unfold operationResult at h
  split_ifs at h with hq
  simp only [ready, outEmpty, List.isEmpty_iff] at hq
  refine ⟨hq, ?_⟩
  cases hv : op.verdict with
  | running => simp [hv] at h
  | succeeded => exact .inl ⟨rfl, by simpa [hv] using h.symm⟩
  | failed e => exact .inr ⟨e, rfl, by simpa [hv] using h.symm⟩
  | aborted => simp [hv] at h

/-- A system right after reset has at least one instance, and legal parameters (R5). -/
theorem systemReset_legal {cfgs : List Config} {sys : System} (h : systemReset cfgs = some sys) : System.Legal sys := by
  unfold systemReset at h
  split_ifs at h with hl
  cases h
  simpa [System.Legal, Config.LegalSystem, State.resetWith] using hl

end Sys2Proof.Machine
end

