-- ==== Sys2Proof/Laws/PerInstr.lean ====
section
/-!
SUPPORT. Statements made per command about it as syntax: the word of a command holds its opcode and its operand in the fields of
30_encoding.md R70, and is legal (R73).
-/

namespace Sys2Proof.Laws.EncodedFields

open Sys2Proof

/-- The fields of a command's word are its opcode and its operand, and the word is legal. -/
def Statement (i : Instr) : Prop :=
  cmdOpcode (encode i) = i.opcode ∧ cmdOperand (encode i) = i.operand ∧ legal (encode i) = true

theorem cmdOpcode_append (op : BitVec 8) (x : Word) : cmdOpcode (op ++ x) = op := by
  apply BitVec.eq_of_getLsbD_eq
  intro n hn
  simp only [cmdOpcode, BitVec.getLsbD_extractLsb', BitVec.getLsbD_append]
  simp [hn]

theorem cmdOperand_append (op : BitVec 8) (x : Word) : cmdOperand (op ++ x) = x := by
  apply BitVec.eq_of_getLsbD_eq
  intro n hn
  simp only [cmdOperand, BitVec.getLsbD_extractLsb', BitVec.getLsbD_append]
  simp [hn]

theorem nop : Statement .nop := ⟨rfl, rfl, rfl⟩

theorem eBegin : Statement .eBegin := ⟨rfl, rfl, rfl⟩

theorem eSym (c : Word) : Statement (.eSym c) :=
  ⟨cmdOpcode_append _ _, cmdOperand_append _ _, by simp [legal, encode, cmdOpcode_append, Instr.opcode, formOf]⟩

theorem eEnd : Statement .eEnd := ⟨rfl, rfl, rfl⟩

theorem dBegin : Statement .dBegin := ⟨rfl, rfl, rfl⟩

theorem dCode (k : Word) : Statement (.dCode k) :=
  ⟨cmdOpcode_append _ _, cmdOperand_append _ _, by simp [legal, encode, cmdOpcode_append, Instr.opcode, formOf]⟩

theorem dEnd : Statement .dEnd := ⟨rfl, rfl, rfl⟩

theorem pBegin (w h : Dim) : Statement (.pBegin w h) :=
  ⟨cmdOpcode_append _ _, cmdOperand_append _ _, by simp [legal, encode, cmdOpcode_append, Instr.opcode, formOf]⟩

theorem pPix (v : Word) : Statement (.pPix v) :=
  ⟨cmdOpcode_append _ _, cmdOperand_append _ _, by simp [legal, encode, cmdOpcode_append, Instr.opcode, formOf]⟩

theorem pEnd : Statement .pEnd := ⟨rfl, rfl, rfl⟩

theorem pdBegin (w h : Dim) : Statement (.pdBegin w h) :=
  ⟨cmdOpcode_append _ _, cmdOperand_append _ _, by simp [legal, encode, cmdOpcode_append, Instr.opcode, formOf]⟩

theorem pdCode (k : Word) : Statement (.pdCode k) :=
  ⟨cmdOpcode_append _ _, cmdOperand_append _ _, by simp [legal, encode, cmdOpcode_append, Instr.opcode, formOf]⟩

theorem pdEnd : Statement .pdEnd := ⟨rfl, rfl, rfl⟩

end Sys2Proof.Laws.EncodedFields
end

