-- ==== Sys2Proof/Machine/Assembler.lean ====
section
/-!
DEFINITION. The assembly syntax and the pseudo-instructions (30_encoding.md R81, R82) on text as a list of characters. The block
never sees a line or a pseudo-instruction: a line becomes command words. `none` is the assembler's refusal.
-/

namespace Sys2Proof.Machine

/-- Drop blanks at the front. -/
def trimLeft : List Char → List Char
  | [] => []
  | ch :: rest => if isBlank ch then trimLeft rest else ch :: rest

/-- Drop blanks at both ends. -/
def trimBlanks (text : List Char) : List Char := (trimLeft (trimLeft text).reverse).reverse

/-- Cut the comment off a line (R81): `;` to the end of the line. That a `;` inside a quoted character or inside a string starts no
comment is the model's choice, on which R81 is silent (log entry 14). -/
def cutComment : Bool → List Char → List Char
  | _, [] => []
  | true, '"' :: rest => '"' :: cutComment false rest
  | true, ch :: rest => ch :: cutComment true rest
  | false, '\'' :: ch :: '\'' :: rest => '\'' :: ch :: '\'' :: cutComment false rest
  | false, '"' :: rest => '"' :: cutComment true rest
  | false, ';' :: _ => []
  | false, ch :: rest => ch :: cutComment false rest

/-- Split operands at commas outside a quoted character. -/
def splitOperands : List Char → List (List Char)
  | [] => [[]]
  | '\'' :: ch :: '\'' :: rest =>
    match splitOperands rest with
    | [] => [['\'', ch, '\'']]
    | piece :: pieces => ('\'' :: ch :: '\'' :: piece) :: pieces
  | ',' :: rest => [] :: splitOperands rest
  | ch :: rest =>
    match splitOperands rest with
    | [] => [[ch]]
    | piece :: pieces => (ch :: piece) :: pieces

/-- The value of a hexadecimal digit character. -/
def hexValue (ch : Char) : Option Nat :=
  if 48 ≤ ch.toNat ∧ ch.toNat ≤ 57 then some (ch.toNat - 48)
  else if 65 ≤ ch.toNat ∧ ch.toNat ≤ 70 then some (ch.toNat - 55)
  else if 97 ≤ ch.toNat ∧ ch.toNat ≤ 102 then some (ch.toNat - 87)
  else none

/-- Hexadecimal digits read left to right, after the value `acc`. -/
def readHex (acc : Nat) : List Char → Option Nat
  | [] => some acc
  | ch :: rest =>
    match hexValue ch with
    | none => none
    | some d => readHex (16 * acc + d) rest

/-- The code point of a character, printable ASCII only (R81, G2). -/
def charCode (ch : Char) : Option Nat := if WellFormed.charLiteral ch then some ch.toNat else none

/-- A literal (R81): a quoted character, hexadecimal, or decimal. -/
def readLiteral (text : List Char) : Option Int :=
  match trimBlanks text with
  | ['\'', ch, '\''] => (charCode ch).map (fun n => (n : Int))
  | '0' :: 'x' :: ch :: rest => (readHex 0 (ch :: rest)).map (fun n => (n : Int))
  | other => readInt other

/-- A `SYM` or `CODE` literal that fits its field, zero-extended (R81). -/
def readUnsigned (text : List Char) : Option Word :=
  match readLiteral text with
  | none => none
  | some n => if WellFormed.unsignedLiteral n then some (BitVec.ofInt 32 n) else none

/-- A `PIX` literal that fits its field, sign-extended (R81). -/
def readPix (text : List Char) : Option Word :=
  match readLiteral text with
  | none => none
  | some n => if WellFormed.pixLiteral n then some (BitVec.ofInt 32 n) else none

/-- A `DIM` literal that fits its field (R81). -/
def readDimLiteral (text : List Char) : Option Dim :=
  match readLiteral text with
  | none => none
  | some n => if WellFormed.dimLiteral n then some (BitVec.ofInt 16 n) else none

/-- Every element mapped, or none if one fails. -/
def mapAll {α β : Type} (f : α → Option β) : List α → Option (List β)
  | [] => some []
  | a :: as =>
    match f a, mapAll f as with
    | some b, some bs => some (b :: bs)
    | _, _ => none

/-- A line without operand. -/
def noOperand (i : Instr) (rest : List Char) : Option (List Instr) := if rest = [] then some [i] else none

/-- A line with one operand. -/
def oneOperand (read : List Char → Option Word) (f : Word → Instr) (rest : List Char) : Option (List Instr) :=
  (read rest).map (fun x => [f x])

/-- A line with width and height, width first. -/
def dimOperands (f : Dim → Dim → Instr) (rest : List Char) : Option (List Instr) :=
  match (splitOperands rest).map readDimLiteral with
  | [some w, some h] => some [f w h]
  | _ => none

/-- A line with one operand or more, each giving one command. -/
def manyOperands (read : List Char → Option Word) (f : Word → Instr) (rest : List Char) : Option (List Instr) :=
  (mapAll read (splitOperands rest)).map (fun xs => xs.map f)

/-- The characters of a string in double quotes, each one symbol (R82). That the string runs from the first double quote to the last one
of the operand text, a double quote between them being a symbol like any other, is the model's choice (log entry 14). -/
def readString : List Char → Option (List Word)
  | '"' :: rest =>
    if rest.getLast? = some '"' then (mapAll charCode rest.dropLast).map (fun cs => cs.map (BitVec.ofNat 32)) else none
  | _ => none

/-- One mnemonic with its operand text (R81, R82). -/
def assembleMnemonic (mnemonic rest : List Char) : Option (List Instr) :=
  if mnemonic = ['N', 'O', 'P'] then noOperand .nop rest
  else if mnemonic = ['E', '_', 'B', 'E', 'G', 'I', 'N'] then noOperand .eBegin rest
  else if mnemonic = ['E', '_', 'S', 'Y', 'M'] then oneOperand readUnsigned .eSym rest
  else if mnemonic = ['E', '_', 'E', 'N', 'D'] then noOperand .eEnd rest
  else if mnemonic = ['D', '_', 'B', 'E', 'G', 'I', 'N'] then noOperand .dBegin rest
  else if mnemonic = ['D', '_', 'C', 'O', 'D', 'E'] then oneOperand readUnsigned .dCode rest
  else if mnemonic = ['D', '_', 'E', 'N', 'D'] then noOperand .dEnd rest
  else if mnemonic = ['P', '_', 'B', 'E', 'G', 'I', 'N'] then dimOperands .pBegin rest
  else if mnemonic = ['P', '_', 'P', 'I', 'X'] then oneOperand readPix .pPix rest
  else if mnemonic = ['P', '_', 'E', 'N', 'D'] then noOperand .pEnd rest
  else if mnemonic = ['P', 'D', '_', 'B', 'E', 'G', 'I', 'N'] then dimOperands .pdBegin rest
  else if mnemonic = ['P', 'D', '_', 'C', 'O', 'D', 'E'] then oneOperand readUnsigned .pdCode rest
  else if mnemonic = ['P', 'D', '_', 'E', 'N', 'D'] then noOperand .pdEnd rest
  else if mnemonic = ['E', '_', 'S', 'T', 'R'] then (readString rest).map (fun cs => cs.map .eSym)
  else if mnemonic = ['E', 'N', 'C', 'O', 'D', 'E'] then
    (readString rest).map (fun cs => .eBegin :: cs.map .eSym ++ [.eEnd])
  else if mnemonic = ['D', '_', 'C', 'O', 'D', 'E', 'S'] then manyOperands readUnsigned .dCode rest
  else if mnemonic = ['D', 'E', 'C', 'O', 'D', 'E'] then
    if rest = [] then some [.dBegin, .dEnd]
    else (manyOperands readUnsigned .dCode rest).map (fun is => .dBegin :: is ++ [.dEnd])
  else if mnemonic = ['P', '_', 'R', 'O', 'W'] then manyOperands readPix .pPix rest
  else if mnemonic = ['P', 'D', '_', 'C', 'O', 'D', 'E', 'S'] then manyOperands readUnsigned .pdCode rest
  else none

/-- The mnemonic at the front of a line: everything before its first blank. -/
def takeMnemonic (line : List Char) : List Char := line.takeWhile (fun ch => !isBlank ch)

/-- The commands of one line (R81, R82); an empty or comment line gives none. -/
def assembleLine (line : List Char) : Option (List Instr) :=
  let text := trimBlanks (cutComment false line)
  if text = [] then some []
  else assembleMnemonic (takeMnemonic text) (trimBlanks (text.drop (takeMnemonic text).length))

/-- The command words of a program, one line a command (R81). -/
def assemble (program : List Char) : Option (List Cmd) :=
  (mapAll assembleLine (splitText (fun ch => ch == '\n') program)).map (fun lines => lines.flatten.map encode)

end Sys2Proof.Machine
end

