-- ==== Sys2Proof/Tests/Slice0.lean ====
section
/-!
SUPPORT. The model's own tests: ill-formed terms the checks refuse, words written out from 30_encoding.md, single steps with the
results of 95_test_vectors.md, and a witness for the hypotheses of every obligation.
-/

namespace Sys2Proof.Tests

open Sys2Proof Sys2Proof.Machine Sys2Proof.Safety

/-! ### Helpers -/

/-- The outcome is a next state that meets `p`. -/
def answers (o : Host.Outcome State Fault Refusal) (p : State → Bool) : Bool :=
  match o with
  | .next t => p t
  | .fault _ => false
  | .refused _ => false

/-- An instance right after reset, with `DICT_DEPTH` and `OUT_DEPTH` given. -/
def fresh (depth out : Nat) : State := State.resetWith { dictDepth := depth, outDepth := out }

/-- An operation just begun. -/
def begun (depth : Nat) (m : Mode) : State := { fresh depth 2 with mode := m }

/-- An encode operation after the symbols "ab": entry 256 is "ab" and `w` is "b". -/
def midEncode (depth : Nat) (m : Mode) : State :=
  { begun depth m with nextCode := 257, dmem := [(256, { parent := 97, suffix := 98 })], wCode := 98, wValid := true }

/-- A decode operation after the codes 97, 98: entry 256 is "ab" and `w` is "b". -/
def midDecode (depth : Nat) (m : Mode) : State :=
  { begun depth m with nextCode := 257, dmem := [(256, { parent := 97, suffix := 98 })], wCode := 98, firstSeen := true }

/-- A decode operation after the code 97: nothing inserted yet. -/
def firstDecode (depth : Nat) (m : Mode) : State := { begun depth m with wCode := 97, firstSeen := true }

/-- A block in `ERROR` after `E_SYM 256`. -/
def failed : State := { fresh 258 2 with mode := .error, err := .symbolRange, errOp := 0x02, errArg := 256 }

/-- Two items waiting in `PEND`, as after `D_CODE 256` of CT-18, `OUTQ` holding one. -/
def waiting (out : Nat) : State :=
  { fresh 258 out with
    pend := [{ kind := .sym, data := 65 }, { kind := .sym, data := 65 }], outq := [{ kind := .sym, data := 65 }] }

/-- The invariant as a check that runs: its one unbounded clause, over the known codes only. -/
abbrev InvCheck (s : State) : Prop :=
  s.cfg.Legal ∧ (256 ≤ s.nextCode.toNat ∧ s.nextCode.toNat ≤ s.cfg.dictDepth) ∧ s.wCode.toNat < s.nextCode.toNat ∧
  Memory.wf s.cfg.dictDepth s.dmem ∧
  (∀ j, j < s.nextCode.toNat - 256 →
    ((Memory.read s.dmem (256 + j)).map (fun e => decide (e.parent.toNat < 256 + j))) = some true) ∧
  (s.err = .noError ↔ s.mode ≠ .error) ∧ s.err ≠ .malformedFile ∧ (s.mode ≠ .error → s.errOp = 0 ∧ s.errArg = 0) ∧
  s.digBuf.length ≤ 2 ∧ (s.mode ≠ .pdec → s.mode ≠ .error → s.digBuf = [] ∧ s.digErr = false) ∧
  (Decoding s.toBlock → s.wValid = false) ∧ (Encoding s.toBlock → s.firstSeen = false) ∧
  (s.mode = .enc ∨ s.mode = .dec → s.imgW = 0 ∧ s.imgH = 0 ∧ s.pixCount = 0) ∧ s.outq.length ≤ s.cfg.outDepth ∧
  (s.pend ++ s.outq).all (fun i => match i.kind with
    | .code => decide (i.data.toNat < s.cfg.dictDepth)
    | .sym => decide (i.data.toNat < 256)
    | .pix => decide (i.data.toNat ≤ 255)) = true

theorem inv_of_check {s : State} (h : InvCheck s) : Inv s := by
  obtain ⟨h1, h2, h3, h4, h5, h6, h7, h8, h9, h10, h11, h12, h13, h14, h15⟩ := h
  refine ⟨h1, h2, h3, h4, fun c c1 c2 => ?_, h6, h7, h8, h9, h10, h11, h12, h13, h14, fun i hi => ?_⟩
  · have := h5 (c - 256) (by omega)
    rw [show 256 + (c - 256) = c by omega] at this
    cases hr : Memory.read s.dmem c with
    | none => simp [hr] at this
    | some e => exact ⟨e, rfl, by simpa [hr] using this⟩
  · have := List.all_eq_true.1 h15 i hi
    unfold ItemInRange
    cases hk : i.kind <;> simpa [hk] using this

/-! ### Well-formedness smoke: each check refuses an ill-formed term (R81, R73) -/

theorem test_smoke_unsigned_literal : ¬ WellFormed.unsignedLiteral (-1) ∧ ¬ WellFormed.unsignedLiteral 4294967296 ∧
    WellFormed.unsignedLiteral 4294967295 := by decide

theorem test_smoke_pix_literal : ¬ WellFormed.pixLiteral 2147483648 ∧ ¬ WellFormed.pixLiteral (-2147483649) ∧
    WellFormed.pixLiteral (-2147483648) := by decide

theorem test_smoke_dim_literal : ¬ WellFormed.dimLiteral 65536 ∧ ¬ WellFormed.dimLiteral (-1) ∧ WellFormed.dimLiteral 65535 := by
  decide

theorem test_smoke_char_literal : ¬ WellFormed.charLiteral '\n' ∧ WellFormed.charLiteral 'A' := by decide

/-- EN-14 and EN-15: the two kinds of illegal word. -/
theorem test_smoke_illegal_words : legal 0x0000000001#40 = false ∧ legal 0x0400000007#40 = false := by decide

/-- A command has no ill-formed term: an operand out of its command's range is well-formed (R75). -/
theorem test_smoke_well_formed : (Instr.eSym 256).wellFormed = true := by decide

/-! ### Words written out from 30_encoding.md and 95_test_vectors.md 2.1 -/

/-- EN-1. -/
theorem test_decode_nop : decode 0x0000000000#40 = .ok .nop := by decide
/-- EN-2. -/
theorem test_decode_eBegin : decode 0x0100000000#40 = .ok .eBegin := by decide
/-- EN-3: opcode 0000_0010, operand 84. -/
theorem test_decode_eSym : decode 0b0000001000000000000000000000000001010100#40 = .ok (.eSym 84) := by decide
/-- EN-4. -/
theorem test_decode_eEnd : decode 0x0300000000#40 = .ok .eEnd := by decide
/-- L3-P2, word 1. -/
theorem test_decode_dBegin : decode 0x1100000000#40 = .ok .dBegin := by decide
/-- EN-5: opcode 0001_0010, operand 256. -/
theorem test_decode_dCode : decode 0b0001001000000000000000000000000100000000#40 = .ok (.dCode 256) := by decide
/-- EN-6. -/
theorem test_decode_dCode_saturated : decode 0x12FFFFFFFF#40 = .ok (.dCode 4294967295) := by decide
/-- L3-P2, word 6. -/
theorem test_decode_dEnd : decode 0x1300000000#40 = .ok .dEnd := by decide
/-- EN-8: opcode 0010_0001, W 640 in 31..16, H 480 in 15..0. -/
theorem test_decode_pBegin : decode 0b0010000100000010100000000000000111100000#40 = .ok (.pBegin 640 480) := by decide
/-- EN-10: two's complement -1. -/
theorem test_decode_pPix : decode 0x22FFFFFFFF#40 = .ok (.pPix (BitVec.ofInt 32 (-1))) := by decide
/-- L3-P3, word 6. -/
theorem test_decode_pEnd : decode 0x2300000000#40 = .ok .pEnd := by decide
/-- EN-11: opcode 0011_0001, W 65535, H 1. -/
theorem test_decode_pdBegin : decode 0b0011000111111111111111110000000000000001#40 = .ok (.pdBegin 65535 1) := by decide
/-- EN-12. -/
theorem test_decode_pdCode : decode 0x3200000030#40 = .ok (.pdCode 48) := by decide
/-- EN-13. -/
theorem test_decode_pdEnd : decode 0x3300000000#40 = .ok .pdEnd := by decide
/-- EN-14, EN-15: each illegal word is refused by name. -/
theorem test_decode_illegal : decode 0x0000000001#40 = .error (.nonzeroOperand 0x00 1) ∧
    decode 0x0400000007#40 = .error (.unassignedOpcode 0x04) := by decide
/-- EN-7 the other way: the encoder puts the width above the height. -/
theorem test_encode_pBegin : encode (.pBegin 2 2) = 0x2100020002#40 := by decide
/-- The host's two entry points, on EN-3's word: the decoder reads it, and the step after reset runs it (CT-5: ProtocolError). -/
theorem test_table_word : decodeTableWord 40 0x0200000054 = some (.eSym 84) ∧
    answers (step (State.reset.withFetchWord 40 0x0200000054)) (fun t => t.err == .protocol && t.errArg == 84) = true := by decide

/-! ### One step of each command -/

/-- CT-16: `NOP` in an operation changes nothing. -/
theorem test_nop : answers (exec .nop (midEncode 258 .enc)) (fun t => decide (t = midEncode 258 .enc)) = true := by decide

/-- L3-P5, command 6: `E_BEGIN` clears the error. -/
theorem test_eBegin_from_error : answers (exec .eBegin failed)
    (fun t => statusRead t.cfg 0 t.toBlock == 0x2009 && t.errOp == 0 && t.errArg == 0) = true := by decide
/-- CT-8: a second `E_BEGIN` is err(9, 0x01, 0). -/
theorem test_eBegin_in_progress : answers (exec .eBegin (begun 4096 .enc))
    (fun t => statusWord t.toBlock == 0x209F && t.errOp == 0x01 && t.errArg == 0) = true := by decide

/-- GE-3, second symbol of "AB": a miss emits 65 and inserts (65, 66) at 256. -/
theorem test_eSym_miss : answers (exec (.eSym 66) { begun 4096 .enc with wCode := 65, wValid := true })
    (fun t => t.pend == [{ kind := .code, data := 65 }] && t.dmem == [(256, { parent := 65, suffix := 66 })] &&
      t.nextCode == 257 && t.wCode == 66) = true := by decide
/-- DF-2: the insert finds no room; the emitted code is discarded with the command. -/
theorem test_eSym_full : answers (exec (.eSym 66) { begun 256 .enc with wCode := 65, wValid := true })
    (fun t => statusWord t.toBlock == 0x218F && t.pend == [] && t.wCode == 65 && t.errOp == 0x02 && t.errArg == 66) = true := by
  decide

/-- GE-2: the end of "A" emits 65. -/
theorem test_eEnd : answers (exec .eEnd { begun 4096 .enc with wCode := 65, wValid := true })
    (fun t => t.pend == [{ kind := .code, data := 65 }] && t.mode == .idle && t.wValid && t.nextCode == 256) = true := by decide
/-- GE-1: the end of "" emits nothing. -/
theorem test_eEnd_empty : answers (exec .eEnd (begun 4096 .enc)) (fun t => t.pend == [] && t.mode == .idle) = true := by decide

/-- CT-15: `D_BEGIN` leaves `ERROR`. -/
theorem test_dBegin : answers (exec .dBegin failed) (fun t => statusWord t.toBlock == 0x200A && t.nextCode == 256) = true := by
  decide
/-- CT-9: `D_BEGIN` in an encode is err(9, 0x11, 0) and keeps the match. -/
theorem test_dBegin_in_progress : answers (exec .dBegin { begun 4096 .enc with wCode := 65, wValid := true })
    (fun t => statusWord t.toBlock == 0x219F && t.wCode == 65 && t.errOp == 0x11) = true := by decide

/-- GD-7: code 256 after 65 is the self-reference "AA". -/
theorem test_dCode_self_reference : answers (exec (.dCode 256) { begun 4096 .dec with wCode := 65, firstSeen := true })
    (fun t => t.pend == [{ kind := .sym, data := 65 }, { kind := .sym, data := 65 }] && t.nextCode == 257 && t.wCode == 256 &&
      t.dmem == [(256, { parent := 65, suffix := 65 })]) = true := by decide
/-- DF-10: a corrupt code is named before the full dictionary. -/
theorem test_dCode_corrupt : answers (exec (.dCode 257) { begun 256 .dec with wCode := 65, firstSeen := true })
    (fun t => t.err == .corruptStream && t.errOp == 0x12 && t.errArg == 257 && t.nextCode == 256) = true := by decide

/-- GD-2: the end of a decode with no code is err(1, 0x13, 0). -/
theorem test_dEnd_empty : answers (exec .dEnd (begun 4096 .dec))
    (fun t => statusWord t.toBlock == 0x201F && t.errOp == 0x13 && t.errArg == 0) = true := by decide
/-- L1-S3: after code 5 the end leaves STATUS 0x2208. -/
theorem test_dEnd : answers (exec .dEnd { begun 4096 .dec with wCode := 5, firstSeen := true })
    (fun t => statusWord t.toBlock == 0x2208 && t.wCode == 5 && t.nextCode == 256) = true := by decide

/-- L3-P3, command 1: `P_BEGIN 2, 2`. -/
theorem test_pBegin : answers (exec (.pBegin 640 480) (fresh 4096 16))
    (fun t => statusWord t.toBlock == 0x200B && t.imgW == 640 && t.imgH == 480 && t.pixCount == 0) = true := by decide

/-- L3-P3, command 2: `P_PIX 0` emits 48, inserts "00" and leaves `w` = 256. -/
theorem test_pPix : answers (exec (.pPix 0) (begun 4096 .penc))
    (fun t => t.pend == [{ kind := .code, data := 48 }] && t.nextCode == 257 && t.wCode == 256 && t.pixCount == 1) = true := by
  decide
/-- DF-13: the third digit finds no room; nothing of the pixel remains. -/
theorem test_pPix_full : answers (exec (.pPix 1) (begun 257 .penc))
    (fun t => t.err == .dictFull && t.errOp == 0x22 && t.errArg == 1 && t.pend == [] && t.nextCode == 256 && t.pixCount == 0 &&
      !t.wValid && t.dmem == []) = true := by decide

/-- L3-P3, command 6: `P_END` emits the code of `w`. -/
theorem test_pEnd : answers (exec .pEnd { begun 4096 .penc with wCode := 52, wValid := true, pixCount := 4 })
    (fun t => t.pend == [{ kind := .code, data := 52 }] && t.mode == .idle && t.pixCount == 4) = true := by decide

/-- EN-11's command from reset. -/
theorem test_pdBegin : answers (exec (.pdBegin 65535 1) (fresh 4096 16))
    (fun t => statusWord t.toBlock == 0x200C && statusRead t.cfg 3 t.toBlock == 0xFFFF0001) = true := by decide

/-- L3-P4, command 3: code 256 after 48 is the self-reference "00"; with the waiting digit it makes `PIX 0`. -/
theorem test_pdCode : answers (exec (.pdCode 256) { begun 4096 .pdec with wCode := 48, firstSeen := true, digBuf := [48] })
    (fun t => t.pend == [{ kind := .pix, data := 0 }] && t.digBuf == [] && t.pixCount == 1 && t.wCode == 256 &&
      t.nextCode == 257) = true := by decide
/-- A chunk above 255, "256" (R181): counted, not emitted, recorded. -/
theorem test_pdCode_malformed : answers
    (exec (.pdCode 54) { begun 4096 .pdec with wCode := 53, firstSeen := true, digBuf := [50, 53] })
    (fun t => t.pend == [] && t.digErr && t.pixCount == 1 && t.mode == .pdec) = true := by decide

/-- R183, R205: a partial chunk of two digits is err(5, 0x33, 4). -/
theorem test_pdEnd_partial : answers (exec .pdEnd { begun 4096 .pdec with wCode := 49, firstSeen := true, digBuf := [48, 49] })
    (fun t => t.err == .malformedDigitStream && t.errOp == 0x33 && t.errArg == 4) = true := by decide
/-- R206: a count of 1 against 2 by 1 is err(6, 0x33, 1). -/
theorem test_pdEnd_size : answers
    (exec .pdEnd { begun 4096 .pdec with firstSeen := true, pixCount := 1, imgW := 2, imgH := 1 })
    (fun t => t.err == .sizeMismatch && t.errOp == 0x33 && t.errArg == 1) = true := by decide

/-! ### The other steps, and the host's side -/

/-- CT-18: with `OUT_DEPTH` = 1 and `OUTQ` full, a command waits and the machine holds its state. -/
theorem test_command_waits : answers (step { waiting 1 with agenda := [.issue 0x1300000000#40] })
    (fun t => decide (t = { waiting 1 with agenda := [.issue 0x1300000000#40] })) = true := by decide
/-- CT-19: a pop takes the head, and the next drain refills. -/
theorem test_pop_then_drain : answers (step { waiting 1 with agenda := [.pop] })
    (fun t => t.taken == [{ kind := .sym, data := 65 }] && t.outq == [] &&
      answers (step t) (fun u => u.outq.length == 1 && u.pend.length == 1)) = true := by decide
/-- CT-17: reset in an operation. -/
theorem test_reset : answers (step { midEncode 4096 .enc with agenda := [.reset] })
    (fun t => decide (t.toBlock = Block.reset) && statusWord t.toBlock == 0x2008) = true := by decide
/-- L3-P5, reads of STATUS, ERROP and ERRARG after the corrupt code. -/
theorem test_read : answers
    (step { begun 4096 .error with err := .corruptStream, errOp := 0x12, errArg := 300, firstSeen := true, agenda := [.read 0] })
    (fun t => t.reads == [(0, 0x223F)] && statusRead t.cfg 5 t.toBlock == 0x12 && statusRead t.cfg 6 t.toBlock == 300) = true := by
  decide
/-- Section 2.1, output items: `CODE 258`, `SYM 65`, `PIX 255`. -/
theorem test_item_words : itemWord { kind := .code, data := 258 } = 0x000000102 ∧ itemWord { kind := .sym, data := 65 } = 0x100000041 ∧
    itemWord { kind := .pix, data := 255 } = 0x2000000FF := by decide
/-- R79: the digits of 7 are 48, 48, 55 (PE-3). -/
theorem test_pix_digits : pixDigits 7 = [48, 48, 55] := by decide
/-- GE-6 and GD-6 of the source's algorithms. -/
theorem test_reference : refCompress [65, 66, 65, 66, 65, 66, 65] = [65, 66, 256, 258] ∧
    refDecompress [65, 66, 256, 258] = .ok [65, 66, 65, 66, 65, 66, 65] ∧ refDecompress [65, 257] = .error .corruptStream := by
  decide
/-- R5: the recommended capacity needs 12 code bits, and its longest entry has 3841 symbols. -/
theorem test_config : Config.recommended.codeW = 12 ∧ Config.recommended.maxEntryLen = 3841 := by decide

/-- R5: a system has an instance, and each is in its range. -/
theorem test_system : systemReset [] = none ∧ systemReset [{ dictDepth := 255, outDepth := 1 }] = none ∧
    (systemReset Config.recommendedSystem).map List.length = some 1 := by decide

/-- R116: `E_BEGIN` starts an operation from `IDLE` and from `ERROR`, and none in progress (CT-8); its word with a non-zero operand
starts none (CT-14). -/
theorem test_operation_starts : startsOperation 0x0100000000#40 (fresh 258 2).toBlock = true ∧
    startsOperation 0x0100000000#40 failed.toBlock = true ∧ startsOperation 0x0100000000#40 (begun 258 .enc).toBlock = false ∧
    startsOperation 0x0100000005#40 failed.toBlock = false := by decide
/-- R116, R232: a `NOP` does not end an operation, `E_END` does (GE-2), and a reset aborts it. -/
theorem test_operation_ends :
    answers (step { midEncode 258 .enc with agenda := [.issue 0x0000000000#40] }) (fun t =>
      decide (trackOperation { midEncode 258 .enc with agenda := [.issue 0x0000000000#40] } t
        (some { verdict := .running, items := [] }) = some { verdict := .running, items := [] })) = true ∧
    answers (step { midEncode 258 .enc with agenda := [.issue 0x0300000000#40] }) (fun t =>
      decide (trackOperation { midEncode 258 .enc with agenda := [.issue 0x0300000000#40] } t
        (some { verdict := .running, items := [] }) =
          some { verdict := .succeeded, items := [{ kind := .code, data := 98 }] })) = true ∧
    answers (step { midEncode 258 .enc with agenda := [.reset] }) (fun t =>
      decide (trackOperation { midEncode 258 .enc with agenda := [.reset] } t
        (some { verdict := .running, items := [] }) = some { verdict := .aborted, items := [] })) = true := by decide
/-- R231: a reset takes the result of an operation that has ended with an item still to be popped, and not of one fully popped. -/
theorem test_operation_reset :
    answers (step { waiting 2 with agenda := [.reset] }) (fun t =>
      decide (trackOperation { waiting 2 with agenda := [.reset] } t
        (some { verdict := .succeeded, items := [{ kind := .sym, data := 65 }] }) =
          some { verdict := .aborted, items := [{ kind := .sym, data := 65 }] })) = true ∧
    answers (step { fresh 258 2 with agenda := [.reset] }) (fun t =>
      decide (trackOperation { fresh 258 2 with agenda := [.reset] } t
        (some { verdict := .succeeded, items := [{ kind := .sym, data := 65 }] }) =
          some { verdict := .succeeded, items := [{ kind := .sym, data := 65 }] })) = true := by decide
/-- R116, R231, R236: no result while running, with an item still in a queue, or aborted; else the items' data, or the error. -/
theorem test_operation_result : operationResult { verdict := .running, items := [] } (begun 258 .enc) = none ∧
    operationResult { verdict := .succeeded, items := [] } { waiting 2 with pend := [] } = none ∧
    operationResult { verdict := .aborted, items := [] } (fresh 258 2) = none ∧
    operationResult { verdict := .succeeded, items := [{ kind := .code, data := 65 }] } (fresh 258 2) = some (.ok [65]) ∧
    operationResult { verdict := .failed .symbolRange, items := [{ kind := .code, data := 65 }] } failed =
      some (.error .symbolRange) := by decide

/-- L3-P3's file text, read and written (R80). -/
theorem test_pixel_file : parsePixelFile ['2', ' ', '2', '\n', '4', '8', ',', '2', '5', '6'] = .ok (2, 2, [48, 256]) ∧
    writePixelFile 2 2 [48, 256] = ['2', ' ', '2', '\n', '4', '8', ',', '2', '5', '6'] := by decide
/-- R223: one line only, a negative code and a width above 65535 are each MalformedFileError. -/
theorem test_malformed_file : parsePixelFile ['2', ' ', '2'] = .error .malformedFile ∧
    parsePixelFile ['2', ' ', '2', '\n', '-', '1'] = .error .malformedFile ∧
    parsePixelFile ['6', '5', '5', '3', '6', ' ', '2', '\n', '5'] = .error .malformedFile := by decide
/-- R224: saturation at both ends. -/
theorem test_saturation : saturateUnsigned 4294967296 = 0xFFFFFFFF ∧ saturatePixel (-3000000000) = 0x80000000 ∧
    saturatePixel (-1) = 0xFFFFFFFF := by decide
/-- R184: the pixels of scenario 2 as a grid. -/
theorem test_reshape : reshape 2 2 [0, 128, 255, 64] = [[0, 128], [255, 64]] := by decide
/-- R81: a quoted `;` is no comment, and hexadecimal and decimal literals agree. -/
theorem test_assemble_sym : assemble ['E', '_', 'S', 'Y', 'M', ' ', '\'', ';', '\'', ';', 'x'] = some [0x020000003B] ∧
    assemble ['E', '_', 'S', 'Y', 'M', ' ', '0', 'x', '5', '4'] = some [0x0200000054] := by decide
/-- R82, L3-P5: `E_STR "AA"` is two `E_SYM`; L3-P3: `P_ROW 0, 128` is two `P_PIX`. -/
theorem test_assemble_pseudo : assemble ['E', '_', 'S', 'T', 'R', ' ', '"', 'A', 'A', '"'] = some [0x0200000041, 0x0200000041] ∧
    assemble ['P', '_', 'R', 'O', 'W', ' ', '0', ',', ' ', '1', '2', '8'] = some [0x2200000000, 0x2200000080] := by decide

/-! ### Witnesses: a state and operands that meet the hypotheses of each obligation, clause by clause at its boundary -/

/-- DecodeOfEncode has no hypothesis; EncodeOfDecode: a word that decodes. -/
theorem test_witness_encodeOfDecode : decode 0x3200000030#40 = .ok (.pdCode 48) ∧ legal 0x3200000030#40 = true := by decide

/-- IllegalWords, both kinds of illegal word, outside `ERROR` and in it. -/
theorem test_witness_illegalWords : (legal 0x0000000001#40 = false ∧ (begun 258 .enc).mode ≠ .error) ∧
    (legal 0x0400000007#40 = false ∧ failed.mode = .error) := by decide

/-- StepRunsTheDecodedCommand: an illegal word at the head of the channel, and one that decodes. -/
theorem test_witness_stepRuns :
    (({ begun 258 .dec with agenda := [.issue 0x0400000007#40] } : State).agenda = [.issue 0x0400000007#40] ∧
      (begun 258 .dec).pend = [] ∧ legal 0x0400000007#40 = false) ∧
    ({ begun 258 .dec with agenda := [.issue 0x1200000100#40] } : State).pend = [] ∧
    decode 0x1200000100#40 = .ok (.dCode 256) ∧ (begun 258 .dec).pend = [] ∧
    decode (BitVec.ofNat 40 0x1200000100) = .ok (.dCode 256) := by decide

/-- CommandWaitsUntilReady, DrainMovesOneItem: items waiting, with one place free and with none. -/
theorem test_witness_waits :
    ((waiting 2).pend = [{ kind := .sym, data := 65 }, { kind := .sym, data := 65 }] ∧
      (waiting 2).outq.length + 1 = (waiting 2).cfg.outDepth) ∧
    ((waiting 1).pend ≠ [] ∧ (waiting 1).outq.length = (waiting 1).cfg.outDepth) ∧
    ({ waiting 2 with agenda := [.issue 0x0000000000#40] } : State).agenda = [.issue 0x0000000000#40] ∧
    ({ waiting 2 with agenda := [.drain] } : State).agenda = [.drain] ∧ (fresh 258 1).pend = [] := by decide

/-- PopTakesTheHead: one item, and none. -/
theorem test_witness_pop : (waiting 1).outq = [{ kind := .sym, data := 65 }] ∧ (fresh 258 1).outq = [] ∧
    ({ waiting 1 with agenda := [.pop] } : State).agenda = [.pop] := by decide

/-- ReadReturnsTheStatusWord, ResetSetsEveryElement. -/
theorem test_witness_read_reset : ({ failed with agenda := [.read 7] } : State).agenda = .read 7 :: [] ∧
    ({ failed with agenda := [.reset] } : State).agenda = .reset :: [] := by decide

/-- StatusRegisterMap, InvAtReset, ReachableStateInvariants: the two ends of R5's range. -/
theorem test_witness_legal_config : ({ dictDepth := 256, outDepth := 1 } : Config).Legal ∧
    ({ dictDepth := 4294967294, outDepth := 1 } : Config).Legal := by decide

/-- StatusWordFields: two digits waiting. -/
theorem test_witness_status : ({ begun 258 .pdec with digBuf := [48, 49] } : State).digBuf.length ≤ 2 := by decide

/-- CoreDrainsByItself: every item drained into the last place; nothing to drain; and `OUTQ` full. -/
theorem test_witness_drains : ((waiting 3).agenda = [] ∧ 2 ≤ (waiting 3).pend.length ∧
      (waiting 3).outq.length + 2 = (waiting 3).cfg.outDepth) ∧
    ((fresh 258 1).agenda = [] ∧ (fresh 258 1).pend = []) ∧
    ((waiting 1).agenda = [] ∧ (waiting 1).cfg.outDepth = (waiting 1).outq.length) := by decide

/-- InstancesShareNothing: one instance of two takes a step. -/
theorem test_witness_instances : (systemStep 0 [fresh 256 1, fresh 258 2]).isSome = true ∧ (1 : Nat) ≠ 0 := by decide

/-- OutputItemFormat: commands that emit each kind. -/
theorem test_witness_items :
    answers (exec .eEnd (midEncode 258 .enc)) (fun t => t.pend == [{ kind := .code, data := 98 }]) = true ∧
    answers (exec (.dCode 257) (midDecode 258 .dec)) (fun t => t.pend.length == 2) = true := by decide

/-- ModeAfterEveryCommand: `NOP`; BEGIN from `IDLE`, from `ERROR`, in progress; a stream command in `ERROR`, in a wrong mode, in its own;
an END; a command that raises. -/
theorem test_witness_mode :
    answers (exec .nop failed) (fun t => t.mode == .error) = true ∧
    answers (exec .eBegin (fresh 258 2)) (fun t => t.mode == .enc) = true ∧
    answers (exec (.pBegin 1 1) failed) (fun t => t.mode == .penc) = true ∧
    answers (exec .dBegin (begun 258 .pdec)) (fun t => t.err == .protocol) = true ∧
    answers (exec (.eSym 65) failed) (fun t => decide (t = failed)) = true ∧
    answers (exec (.eSym 65) (begun 258 .penc)) (fun t => t.err == .protocol) = true ∧
    answers (exec (.eSym 65) (begun 258 .enc)) (fun t => t.mode == .enc) = true ∧
    answers (exec .eEnd (begun 258 .enc)) (fun t => t.mode == .idle) = true ∧
    answers (exec .dEnd (begun 258 .dec)) (fun t => t.mode == .error) = true ∧
    answers (execWord 0x0400000007#40 failed) (fun t => decide (t = failed)) = true ∧
    answers (execWord 0x0400000007#40 (begun 258 .enc)) (fun t => t.err == .illegalCommand) = true := by decide

/-- ErrorModeDropsCommands. -/
theorem test_witness_dropped : failed.mode = .error ∧ isBegin (.pdCode 48) = false ∧ isBegin .nop = false ∧
    legal 0x0100000005#40 = false := by decide

/-- ProtocolErrors: a BEGIN in progress, and an END in `IDLE`. -/
theorem test_witness_protocol : (begun 258 .enc).mode ≠ .error ∧ legalIn .eBegin (begun 258 .enc).mode = false ∧
    (fresh 258 2).mode ≠ .error ∧ legalIn .pEnd (fresh 258 2).mode = false := by decide

/-- ErrorEntryKeepsTheRest: a raise in progress. -/
theorem test_witness_errorEntry : (midEncode 257 .enc).mode ≠ .error ∧
    answers (exec (.eSym 99) (midEncode 257 .enc)) (fun t => t.mode == .error && t.err == .dictFull) = true := by decide

/-- ErrorRegistersOnlyByErrorEntry: a stream command, and a BEGIN from `ERROR`. -/
theorem test_witness_errorRegisters :
    answers (exec (.eSym 99) (midEncode 258 .enc)) (fun t => t.mode == .enc) = true ∧ isBegin (.eSym 99) = false ∧
    answers (exec .dBegin failed) (fun t => t.mode == .dec) = true ∧ isBegin .dBegin = true := by decide

/-- BeginInitialises: both modes it starts from. -/
theorem test_witness_begin : (fresh 258 2).mode = .idle ∧ failed.mode = .error := by decide

/-- NopHasNoEffect, DecodeEnd, PixelDecodeEnd: a non-zero operand, outside `ERROR` and in it. -/
theorem test_witness_operand : (1 : Word) ≠ 0 ∧ (begun 258 .enc).mode ≠ .error ∧ failed.mode = .error := by decide

/-- No known code of `midEncode` holds the pair (98, 99). -/
theorem no_pair_midEncode (depth : Nat) (m : Mode) :
    ¬ HasPair (midEncode depth m).dmem (midEncode depth m).nextCode.toNat (midEncode depth m).wCode 99 := by
  rintro ⟨c, h1, h2, h3⟩
  have hc : c = 256 := by
    have : (midEncode depth m).nextCode.toNat = 257 := rfl
    omega
  subst hc
  revert h3
  show ¬ some ({ parent := 97, suffix := 98 } : Entry) = some { parent := 98, suffix := 99 }
  decide

/-- Code 256 is the lowest that holds (97, 98), where `w` is "a". -/
theorem lowest_pair_midEncode (depth : Nat) (m : Mode) : LowestPair (midEncode depth m).dmem 257 97 98 256 :=
  ⟨by omega, by omega, rfl, fun c h1 h2 => by omega⟩

/-- SymbolStep, `w` empty: the largest symbol. -/
theorem test_witness_symbolStep_start : (begun 258 .enc).mode = .enc ∧ (255 : Word).toNat < 256 ∧
    Memory.wf (begun 258 .enc).cfg.dictDepth (begun 258 .enc).dmem ∧ 256 ≤ (begun 258 .enc).nextCode.toNat ∧
    (begun 258 .enc).wValid = false := by decide

/-- SymbolStep, a hit: `w` is "a" and the symbol "b". -/
theorem test_witness_symbolStep_hit : ({ midEncode 258 .enc with wCode := 97 } : State).wValid = true ∧
    Memory.wf 258 (midEncode 258 .enc).dmem ∧
    LowestPair ({ midEncode 258 .enc with wCode := 97 } : State).dmem 257 97 ((98 : Word).setWidth 8) 256 :=
  ⟨rfl, by decide, lowest_pair_midEncode 258 .enc⟩

/-- SymbolStep, a miss with room for exactly one insert, and EncStep's full dictionary. -/
theorem test_witness_symbolStep_miss :
    ¬ HasPair (midEncode 258 .enc).dmem (midEncode 258 .enc).nextCode.toNat (midEncode 258 .enc).wCode ((99 : Word).setWidth 8) ∧
    (midEncode 258 .enc).nextCode.toNat + 1 = (midEncode 258 .enc).cfg.dictDepth ∧
    Memory.wf 257 (midEncode 257 .enc).dmem ∧ (midEncode 257 .enc).nextCode.toNat = (midEncode 257 .enc).cfg.dictDepth :=
  ⟨no_pair_midEncode 258 .enc, by decide, by decide, by decide⟩

/-- SymbolRangeErrors, PixelRangeErrors: the values next to the range. -/
theorem test_witness_ranges : (begun 258 .enc).mode = .enc ∧ 256 ≤ (256 : Word).toNat ∧ (begun 258 .penc).mode = .penc ∧
    (0xFFFFFFFF : Word).toInt < 0 ∧ 255 < (256 : Word).toInt := by decide

/-- EncodeEndFlushes: both modes, `w` empty and not. -/
theorem test_witness_encodeEnd : (midEncode 258 .enc).mode = .enc ∧ (midEncode 258 .enc).wValid = true ∧
    (begun 258 .penc).mode = .penc ∧ (begun 258 .penc).wValid = false := by decide

/-- The invariant in the middle of an encode, at room for three inserts, for one and for none. -/
theorem inv_midEncode : Inv (midEncode 260 .penc) ∧ Inv (midEncode 258 .enc) ∧ Inv (midEncode 257 .penc) :=
  ⟨inv_of_check (by decide), inv_of_check (by decide), inv_of_check (by decide)⟩

/-- PixelSerializesThreeDigits: the largest pixel, with room for exactly three inserts, and with none. -/
theorem test_witness_pixel : Inv (midEncode 260 .penc) ∧ (midEncode 260 .penc).mode = .penc ∧ (255 : Word).toInt = (255 : Nat) ∧
    (midEncode 260 .penc).nextCode.toNat + 3 = (midEncode 260 .penc).cfg.dictDepth ∧ Inv (midEncode 257 .penc) :=
  ⟨inv_midEncode.1, by decide, by decide, by decide, inv_midEncode.2.2⟩

/-- EncoderOutputCounts: every command it names completes; `P_PIX 255` emits all three codes it may. -/
theorem test_witness_counts : Inv (midEncode 258 .enc) ∧ Encoding (midEncode 258 .enc).toBlock ∧
    answers (exec (.eSym 99) (midEncode 258 .enc)) (fun t => t.mode == .enc) = true ∧
    answers (exec .eEnd (midEncode 258 .enc)) (fun t => t.mode == .idle) = true ∧
    answers (exec .nop (midEncode 258 .enc)) (fun t => t.mode == .enc) = true ∧
    answers (exec (.pPix 255) (midEncode 260 .penc)) (fun t => t.mode == .penc && t.pend.length == 3) = true ∧
    answers (exec .pEnd (midEncode 260 .penc)) (fun t => t.mode == .idle) = true :=
  ⟨inv_midEncode.2.1, by decide, by decide, by decide, by decide, by decide, by decide⟩

/-- FirstCode: 255 and 256. -/
theorem test_witness_firstCode : (begun 258 .dec).firstSeen = false ∧ (begun 258 .dec).mode = .dec ∧ (255 : Word).toNat < 256 ∧
    256 ≤ (256 : Word).toNat ∧ (begun 258 .pdec).firstSeen = false ∧ (begun 258 .pdec).mode = .pdec := by decide

/-- The invariant in the middle of a decode, with room for one insert and with none, and in each decode mode. -/
theorem inv_midDecode : Inv (midDecode 258 .dec) ∧ Inv (midDecode 257 .dec) ∧
    Inv { midDecode 258 .pdec with digBuf := [48, 49], pixCount := 4294967295 } ∧ Inv (midDecode 257 .pdec) :=
  ⟨inv_of_check (by decide), inv_of_check (by decide), inv_of_check (by decide), inv_of_check (by decide)⟩

/-- LaterCode: the last known code and the next free one, with room for exactly one insert. -/
theorem test_witness_laterCode : Inv (midDecode 258 .dec) ∧ (midDecode 258 .dec).firstSeen = true ∧
    (256 : Word).toNat + 1 = (midDecode 258 .dec).nextCode.toNat ∧ (257 : Word).toNat = (midDecode 258 .dec).nextCode.toNat ∧
    (midDecode 258 .dec).nextCode.toNat + 1 = (midDecode 258 .dec).cfg.dictDepth :=
  ⟨inv_midDecode.1, by decide, by decide, by decide, by decide⟩

/-- CorruptCodes: the code just above the next free one, in both decode modes. -/
theorem test_witness_corrupt : (midDecode 257 .dec).firstSeen = true ∧
    (midDecode 257 .dec).nextCode.toNat + 1 = (258 : Word).toNat ∧ (midDecode 257 .dec).mode = .dec ∧
    (midDecode 257 .pdec).mode = .pdec := by decide

/-- FullDictionaryOnDecode: the next free code of a full dictionary, in both decode modes. -/
theorem test_witness_full : Inv (midDecode 257 .dec) ∧ Inv (midDecode 257 .pdec) ∧ (midDecode 257 .dec).firstSeen = true ∧
    (257 : Word).toNat ≤ (midDecode 257 .dec).nextCode.toNat ∧
    (midDecode 257 .dec).nextCode.toNat = (midDecode 257 .dec).cfg.dictDepth :=
  ⟨inv_midDecode.2.1, inv_midDecode.2.2.2, by decide, by decide, by decide⟩

/-- DecodeEnd: its four cases. -/
theorem test_witness_decodeEnd : failed.mode = .error ∧ ((fresh 258 2).mode ≠ .error ∧ (fresh 258 2).mode ≠ .dec) ∧
    ((begun 258 .dec).mode = .dec ∧ (begun 258 .dec).firstSeen = false) ∧
    ((midDecode 258 .dec).mode = .dec ∧ (midDecode 258 .dec).firstSeen = true) := by decide

/-- DigitPush: chunks "255" (valid, at the bound), "256" (above it) and "2/5" (the code point below '0'). -/
theorem test_witness_digitPush :
    ((begun 258 .pdec).digBuf = [] ∧ ({ begun 258 .pdec with digBuf := [50] } : State).digBuf = [50]) ∧
    (48 ≤ (50 : Sym).toNat ∧ (50 : Sym).toNat ≤ 57 ∧ (53 : Sym).toNat ≤ 57 ∧
      100 * ((50 : Sym).toNat - 48) + 10 * ((53 : Sym).toNat - 48) + ((53 : Sym).toNat - 48) = 255) ∧
    ¬ (100 * ((50 : Sym).toNat - 48) + 10 * ((53 : Sym).toNat - 48) + ((54 : Sym).toNat - 48) ≤ 255) ∧
    ¬ (48 ≤ (47 : Sym).toNat) := by decide

/-- PixelCodeDeserializes: the first code, and a later one with room for exactly one insert, two digits waiting. -/
theorem test_witness_pixelCode :
    (Inv { begun 258 .pdec with imgW := 2 } ∧ (begun 258 .pdec).firstSeen = false ∧ (255 : Word).toNat < 256) ∧
    (Inv { midDecode 258 .pdec with digBuf := [48, 49], pixCount := 4294967295 } ∧ (midDecode 258 .pdec).firstSeen = true ∧
      (257 : Word).toNat ≤ (midDecode 258 .pdec).nextCode.toNat ∧
      (midDecode 258 .pdec).nextCode.toNat + 1 = (midDecode 258 .pdec).cfg.dictDepth) :=
  ⟨⟨inv_of_check (by decide), by decide, by decide⟩, inv_midDecode.2.2.1, by decide, by decide, by decide⟩

/-- PixelDecodeEnd: its six cases. -/
theorem test_witness_pixelEnd :
    failed.mode = .error ∧ ((begun 258 .dec).mode ≠ .error ∧ (begun 258 .dec).mode ≠ .pdec) ∧
    ((begun 258 .pdec).mode = .pdec ∧ (begun 258 .pdec).firstSeen = false) ∧
    ((midDecode 258 .pdec).firstSeen = true ∧ ({ midDecode 258 .pdec with digBuf := [48] } : State).digBuf ≠ [] ∧
      ({ midDecode 258 .pdec with digErr := true } : State).digErr = true) ∧
    ((midDecode 258 .pdec).digErr = false ∧ (midDecode 258 .pdec).digBuf = [] ∧
      ({ midDecode 258 .pdec with imgW := 1, imgH := 1 } : State).pixCount.toNat ≠ 1 * 1) ∧
    ({ midDecode 258 .pdec with imgW := 65535, imgH := 65535, pixCount := 4294836225 } : State).pixCount.toNat =
      (65535 : Dim).toNat * (65535 : Dim).toNat := by decide

/-- SaturatedCountNeverPasses: the first saturated count. -/
theorem test_witness_saturated : 2 ^ 32 - 1 ≤ 4294967295 := by decide

/-- InsertAssignsTheNextCode: the last insert, and the one after it. -/
theorem test_witness_insert : (258 : Nat) ≤ 2 ^ 32 - 2 ∧ 256 ≤ (midEncode 258 .enc).nextCode.toNat ∧
    (midEncode 258 .enc).nextCode.toNat + 1 = 258 ∧ (midEncode 257 .enc).nextCode.toNat = 257 := by decide

/-- Entry 256 of `midEncode` denotes "ab". -/
theorem denotes_ab (depth : Nat) (m : Mode) : Denotes (midEncode depth m).dmem 256 [97, 98] :=
  .entry 256 { parent := 97, suffix := 98 } [97] (by omega) rfl (by decide) (.seed 97 (by omega))

/-- GrowthStates, CodesAssignedInOrder: each growth state, and a command that moves from `GROWING` to `FULL`. -/
theorem test_witness_growth :
    (Inv (begun 258 .enc) ∧ growth 258 (begun 258 .enc).toBlock = .seed) ∧
    (Inv (midEncode 258 .enc) ∧ growth 258 (midEncode 258 .enc).toBlock = .growing) ∧
    (Inv (midDecode 257 .dec) ∧ growth 257 (midDecode 257 .dec).toBlock = .full) ∧
    isBegin (.eSym 99) = false ∧
    answers (exec (.eSym 99) (midEncode 258 .enc)) (fun t => growth t.cfg.dictDepth t.toBlock == .full) = true :=
  ⟨⟨inv_of_check (by decide), by decide⟩, ⟨inv_midEncode.2.1, by decide⟩, ⟨inv_midDecode.2.1, by decide⟩, by decide, by decide⟩

/-- EntryLengths: the last seed and the first entry. -/
theorem test_witness_lengths : Inv (midEncode 258 .enc) ∧ 256 < (midEncode 258 .enc).nextCode.toNat ∧
    Denotes (midEncode 258 .enc).dmem 256 [97, 98] ∧ Denotes (midEncode 258 .enc).dmem 255 [255] :=
  ⟨inv_midEncode.2.1, by decide, denotes_ab 258 .enc, .seed 255 (by omega)⟩

/-- No two known codes of `midEncode` denote one string. -/
theorem keys_midEncode (depth : Nat) (m : Mode) : KeysDistinct (midEncode depth m) := by
  have ab : ∀ {c : Nat} {str : Str}, 256 ≤ c → c < 257 → Denotes (midEncode depth m).dmem c str → c = 256 ∧ str = [97, 98] := by
    intro c str h1 h2 hd
    have hc : c = 256 := by omega
    exact ⟨hc, (hc ▸ hd : Denotes _ 256 str).unique (denotes_ab depth m)⟩
  have seed : ∀ {c : Nat} {str : Str}, c < 256 → Denotes (midEncode depth m).dmem c str → str = [BitVec.ofNat 8 c] :=
    fun h hd => hd.unique (.seed _ h)
  intro _ c c' str h1 h2 d1 d2
  have h1 : c < 257 := h1
  have h2 : c' < 257 := h2
  by_cases a1 : c < 256
  · by_cases a2 : c' < 256
    · have := (seed a1 d1).symm.trans (seed a2 d2)
      have := congrArg BitVec.toNat (List.cons.inj this).1
      simp only [BitVec.toNat_ofNat] at this
      omega
    · have := (seed a1 d1).symm.trans (ab (by omega) h2 d2).2
      simp at this
  · by_cases a2 : c' < 256
    · have := (seed a2 d2).symm.trans (ab (by omega) h1 d1).2
      simp at this
    · omega

/-- KeyLookupByPair: "a" and the symbol "b" make a key, "b" and "c" do not. -/
theorem test_witness_keyLookup : Inv (midEncode 258 .enc) ∧ KeysDistinct (midEncode 258 .enc) ∧
    Encoding (midEncode 258 .enc).toBlock ∧ 97 < (midEncode 258 .enc).nextCode.toNat ∧
    Denotes (midEncode 258 .enc).dmem 97 [97] ∧ Denotes (midEncode 258 .enc).dmem 256 [97, 98] ∧
    ([97] : Str) <+: [97, 98] :=
  ⟨inv_midEncode.2.1, keys_midEncode 258 .enc, by decide, by decide, .seed 97 (by omega), denotes_ab 258 .enc, ⟨[98], rfl⟩⟩

/-- The frames: each family's commands answer. -/
theorem test_witness_frames :
    answers (exec (.pdBegin 1 1) (fresh 258 2)) (fun t => t.mode == .pdec) = true ∧
    answers (exec (.eSym 99) (midEncode 258 .enc)) (fun t => t.nextCode != 257) = true ∧
    answers (exec (.pPix 255) (midEncode 260 .penc)) (fun t => t.nextCode == 260) = true ∧
    answers (exec (.dCode 257) (midDecode 258 .dec)) (fun t => t.nextCode != 257) = true ∧
    answers (exec .dEnd (midDecode 258 .dec)) (fun t => t.mode == .idle) = true ∧
    answers (exec (.pdCode 257) (midDecode 258 .pdec)) (fun t => t.nextCode != 257) = true ∧
    answers (exec .pdEnd (midDecode 258 .pdec)) (fun t => t.mode == .idle) = true := by decide

/-- EveryStepKeepsInv, NoStepStops, EncoderKeysStayDistinct: an encode in progress that accepts a command. -/
theorem test_witness_step : Inv { midEncode 258 .enc with agenda := [.issue 0x0200000063#40] } ∧
    KeysDistinct { midEncode 258 .enc with agenda := [.issue 0x0200000063#40] } ∧
    answers (step { midEncode 258 .enc with agenda := [.issue 0x0200000063#40] }) (fun t => t.nextCode == 258) = true :=
  ⟨inv_of_check (by decide), keys_midEncode 258 .enc, by decide⟩

/-- ReachableStateInvariants: reset, and a state one step after it. -/
theorem test_witness_reachable : Reachable State.reset ∧
    ∃ t, Reachable t ∧ t.mode = .enc ∧ t.cfg = Config.recommended := by
  refine ⟨.start Config.recommended [] (by decide), _,
    .step _ _ (.start Config.recommended [.issue 0x0100000000#40] (by decide)) rfl, rfl, rfl⟩

/-- The whole operations: they start from reset, and from `ERROR`. -/
theorem test_witness_operation : Inv (fresh 258 2) ∧ (fresh 258 2).mode = .idle ∧ (fresh 258 2).pend = [] ∧
    (fresh 258 2).outq = [] ∧ Inv failed ∧ failed.mode = .error ∧ failed.pend = [] ∧ failed.outq = [] :=
  ⟨inv_of_check (by decide), by decide, by decide, by decide, inv_of_check (by decide), by decide, by decide, by decide⟩

/-- GenericRoundTrip: the encodes of "AB" and of "" succeed, on capacities that the decoder shares. -/
theorem test_witness_roundTrip :
    answers (issueAll (encodeOperation [65, 66]) (fresh 257 2))
      (fun t => t.mode == .idle && (t.taken.drop (fresh 257 2).taken.length).map (·.data) == [65, 66]) = true ∧
    answers (issueAll (encodeOperation []) (fresh 257 2))
      (fun t => t.mode == .idle && (t.taken.drop (fresh 257 2).taken.length).map (·.data) == []) = true ∧
    (fresh 257 2).cfg.dictDepth = (fresh 257 9).cfg.dictDepth := by decide

/-- SaturationKeepsTheVerdict: the first values outside each field, and the last inside. -/
theorem test_witness_saturation : Inv (midEncode 258 .enc) ∧ 2 ^ 32 ≤ 4294967296 ∧ 4294967295 < 2 ^ 32 ∧
    (2 : Int) ^ 31 - 1 < 2147483648 ∧ (-2147483649 : Int) < -(2 ^ 31) ∧ -(2 ^ 31) ≤ (-2147483648 : Int) ∧
    (2147483647 : Int) ≤ 2 ^ 31 - 1 := ⟨inv_midEncode.2.1, by decide, by decide, by decide, by decide, by decide, by decide⟩

/-- ReshapeOfRowMajor: two rows of two. -/
theorem test_witness_reshape : ([[0, 128], [255, 64]] : List (List Word)).length = 2 ∧
    (∀ row ∈ ([[0, 128], [255, 64]] : List (List Word)), row.length = 2) ∧ 3 < 2 * 2 := by decide

end Sys2Proof.Tests
end

section
/-!
The status port (10_state.md R32 to R34), field by field, and the saturation of the pixel count (R27).
-/

namespace Sys2Proof.Machine

/-! ### The fields of the STATUS word (R34) -/

section StatusFields

open BitVec

/-- A field that lies above the low part of a concatenation is a field of the high part. -/
theorem extractLsb'_append_high {v w start len : Nat} {xhi : BitVec v} {xlo : BitVec w} {f : BitVec len}
    (h : xhi.extractLsb' start len = f) : (xhi ++ xlo).extractLsb' (start + w) len = f := by
  rw [extractLsb'_append_eq_of_le (Nat.le_add_left w start), Nat.add_sub_cancel, h]

variable (b : Block)

@[simp] theorem statusWord_mode : (statusWord b).extractLsb' 0 3 = modeBits b.mode := extractLsb'_append_eq_right

@[simp] theorem statusWord_ready : (statusWord b).extractLsb' 3 1 = ofBool (ready b) :=
  extractLsb'_append_high extractLsb'_append_eq_right

@[simp] theorem statusWord_err : (statusWord b).extractLsb' 4 4 = errBits b.err := by
  iterate 2 apply extractLsb'_append_high
  exact extractLsb'_append_eq_right

@[simp] theorem statusWord_wValid : (statusWord b).extractLsb' 8 1 = ofBool b.wValid := by
  iterate 3 apply extractLsb'_append_high
  exact extractLsb'_append_eq_right

@[simp] theorem statusWord_firstSeen : (statusWord b).extractLsb' 9 1 = ofBool b.firstSeen := by
  iterate 4 apply extractLsb'_append_high
  exact extractLsb'_append_eq_right

@[simp] theorem statusWord_digErr : (statusWord b).extractLsb' 10 1 = ofBool b.digErr := by
  iterate 5 apply extractLsb'_append_high
  exact extractLsb'_append_eq_right

@[simp] theorem statusWord_digPhase : (statusWord b).extractLsb' 11 2 = digPhase b := by
  iterate 6 apply extractLsb'_append_high
  exact extractLsb'_append_eq_right

@[simp] theorem statusWord_outEmpty : (statusWord b).extractLsb' 13 1 = ofBool (outEmpty b) := by
  iterate 7 apply extractLsb'_append_high
  exact extractLsb'_append_eq_right

@[simp] theorem statusWord_reserved : (statusWord b).extractLsb' 14 18 = 0 := by
  iterate 8 apply extractLsb'_append_high
  exact extractLsb'_eq_self

end StatusFields

theorem ofBool_eq_ite (c : Bool) : BitVec.ofBool c = if c then 1 else 0 := by cases c <;> rfl

theorem ready_iff (b : Block) : ready b = true ↔ b.pend = [] := List.isEmpty_iff

theorem outEmpty_iff (b : Block) : outEmpty b = true ↔ b.outq = [] := List.isEmpty_iff

theorem digPhase_toNat {b : Block} (h : b.digBuf.length ≤ 2) : (digPhase b).toNat = b.digBuf.length := by
  rw [digPhase, BitVec.toNat_ofNat, Nat.mod_eq_of_lt (by omega)]

/-! ### Saturation (R7, R27) -/

theorem sat32_of_ge {n : Nat} (h : 2 ^ 32 - 1 ≤ n) : (sat32 n).toNat = 2 ^ 32 - 1 := by
  rw [sat32, Nat.min_eq_right h]
  rfl

/-- R27: `IMG_W * IMG_H <= (2^16 - 1)^2 < 2^32 - 1`. -/
theorem dim_mul_lt (w h : Dim) : w.toNat * h.toNat < 2 ^ 32 - 1 :=
  calc w.toNat * h.toNat ≤ (2 ^ 16 - 1) * (2 ^ 16 - 1) := Nat.mul_le_mul (by omega) (by omega)
    _ < 2 ^ 32 - 1 := by decide

end Sys2Proof.Machine

namespace Sys2Proof.Proofs

open Sys2Proof.Machine Sys2Proof.Safety

/-- Settles O37: a saturated count is `2^32 - 1`, above every product of two dimensions. -/
theorem saturatedCountNeverPasses : Obligations.SaturatedCountNeverPasses := by
  intro n w h hn
  have hsat := sat32_of_ge hn
  exact ⟨hsat ▸ (dim_mul_lt w h).ne', hsat⟩

/-- Settles O10: each address reads its register; the two packed words by their fields, `DEPTH` because R5 keeps it below `2^32`. -/
theorem statusRegisterMap : Obligations.StatusRegisterMap := by
  intro cfg b hcfg
  have hdepth : (statusRead cfg 7 b).toNat = cfg.dictDepth := by
    show (BitVec.ofNat 32 cfg.dictDepth).toNat = _
    rw [BitVec.toNat_ofNat, Nat.mod_eq_of_lt (by omega)]
  have herrOp : (statusRead cfg 5 b).extractLsb' 0 8 = b.errOp := by
    show (b.errOp.setWidth 32).extractLsb' 0 8 = _
    rw [BitVec.extractLsb'_setWidth_of_le (by decide), BitVec.extractLsb'_eq_self]
  have herrOpUpper : (statusRead cfg 5 b).extractLsb' 8 24 = 0 := by
    show (b.errOp.setWidth 32).extractLsb' 8 24 = _
    apply BitVec.eq_of_getLsbD_eq
    intro i hi
    simp
  exact ⟨rfl, rfl, rfl, BitVec.extractLsb'_append_eq_left, BitVec.extractLsb'_append_eq_right, rfl, herrOp, herrOpUpper, rfl,
    hdepth⟩

/-- Settles O11: field by field; `DIG_PHASE` fits its two bits because `DIG_BUF` holds at most two symbols. -/
theorem statusWordFields : Obligations.StatusWordFields := by
  refine ⟨fun b hdig => ?_, by decide, by decide⟩
  simp [ofBool_eq_ite, ready_iff, outEmpty_iff, digPhase_toNat hdig]

end Sys2Proof.Proofs
end

section
/-!
R39's invariants and the rest of `Inv`: what each part of a command keeps (the codec procedures, the error entry, a BEGIN, a stream
command, an END), then every command, every step of 41_control.md R110, and so every reachable state.
-/

namespace Sys2Proof.Machine

open Sys2Proof.Safety

theorem errBits_eq_zero_iff (e : ErrCode) : errBits e = 0 ↔ e = .noError := by cases e <;> decide

/-! ### Items stay in their range (R77) -/

/-- Every item waiting in `PEND` is in its kind's range (R77). -/
def PendInRange (depth : Nat) (b : Block) : Prop := ∀ i ∈ b.pend, ItemInRange depth i

theorem PendInRange.append {depth : Nat} {b : Block} (h : PendInRange depth b) {items : List Item}
    (hi : ∀ i ∈ items, ItemInRange depth i) : ∀ i ∈ b.pend ++ items, ItemInRange depth i :=
  List.forall_mem_append.2 ⟨h, hi⟩

/-- `CoreInv` speaks of `NEXT_CODE`, `w` and the memory only. -/
theorem CoreInv.congr {depth : Nat} {b b' : Block} (h : CoreInv depth b) (hn : b'.nextCode = b.nextCode)
    (hw : b'.wCode = b.wCode) (hm : b'.dmem = b.dmem) : CoreInv depth b' := by
  obtain ⟨h1, h2, h3, h4, h5⟩ := h
  rw [← hn] at h2 h3 h5
  rw [← hw] at h3
  rw [← hm] at h4 h5
  exact ⟨h1, h2, h3, h4, h5⟩

/-- The code of `w` is below `DICT_DEPTH`. -/
theorem CoreInv.wCode_lt {depth : Nat} {b : Block} (h : CoreInv depth b) : b.wCode.toNat < depth :=
  lt_of_lt_of_le h.w_known h.next_range.2

theorem encStepRel_pendInRange {depth : Nat} {c : Sym} {b b' : Block} (h : CoreInv depth b) (hp : PendInRange depth b)
    (hr : EncStepRel depth c b b') : PendInRange depth b' := by
  cases hr with
  | start => exact hp
  | hit => exact hp
  | miss => exact hp.append (List.forall_mem_singleton.2 h.wCode_lt)

/-- What `EncFlush` emits (R123). -/
theorem flushed_inRange {depth : Nat} {b : Block} (h : CoreInv depth b) :
    ∀ i ∈ (if b.wValid then [{ kind := .code, data := b.wCode }] else [] : List Item), ItemInRange depth i := by
  split_ifs
  · exact List.forall_mem_singleton.2 h.wCode_lt
  · exact List.forall_mem_nil _

theorem emitSyms_pendInRange {depth : Nat} {str : Str} {b : Block} (hp : PendInRange depth b) :
    PendInRange depth (emitSyms str b) := by
  refine hp.append (List.forall_mem_map.2 fun s _ => ?_)
  show (symWord s).toNat < 256
  exact symWord_toNat s ▸ s.isLt

/-- The rest of a cut digit stream is no complete chunk (R181). -/
theorem chunks_rest_length (str : Str) : (chunks str).2.length ≤ 2 := by
  induction str using chunks.induct with
  | case1 x y z rest ih => exact ih
  | case2 rest h =>
    rcases rest with _ | ⟨x, _ | ⟨y, _ | ⟨z, rest⟩⟩⟩
    · simp [chunks]
    · simp [chunks]
    · simp [chunks]
    · exact absurd rfl (h x y z rest)

/-- The value of a valid chunk is a pixel (R181). -/
theorem chunks_value_le {str : Str} {v : Nat} (hv : some v ∈ (chunks str).1) : v ≤ 255 := by
  induction str using chunks.induct with
  | case1 x y z rest ih =>
    rw [chunks] at hv
    rcases List.mem_cons.1 hv with h | h
    · split_ifs at h with hc
      cases h
      exact hc.2
    · exact ih h
  | case2 rest h =>
    rw [chunks] at hv
    · cases hv
    · exact h

theorem chunkItems_inRange (depth : Nat) (str : Str) : ∀ i ∈ chunkItems (chunks str).1, ItemInRange depth i := by
  intro i hi
  obtain ⟨c, hc, hci⟩ := List.mem_filterMap.1 hi
  obtain ⟨v, rfl, rfl⟩ := Option.map_eq_some_iff.1 hci
  show (BitVec.ofNat 32 v).toNat ≤ 255
  rw [BitVec.toNat_ofNat]
  exact (Nat.mod_le _ _).trans (chunks_value_le hc)

/-! ### The codec procedures -/

/-- What every `EncStep` keeps, the steps of a string's symbols keep (R161). -/
theorem encSteps_keeps {P : Block → Prop} {depth : Nat} {operand : Word}
    (hstep : ∀ c b b', CoreInv depth b → P b → EncStepRel depth c b b' → P b') {cs : Str} {b b' : Block} (h : CoreInv depth b)
    (hP : P b) (he : encSteps depth operand cs b = .ok b') : P b' := by
  induction cs generalizing b with
  | nil =>
    cases he
    exact hP
  | cons c cs ih =>
    obtain ⟨b1, h1, h2⟩ := Res.bind_eq_ok he
    have hr := (encStep_eq_ok_iff h operand c).1 h1
    exact ih (encStepRel_coreInv h hr) (hstep c b b1 h hP hr) h2

/-- The steps of a string's symbols write the match, the dictionary and `PEND` only (R161). -/
theorem encSteps_frame {depth : Nat} {operand : Word} {cs : Str} {b b' : Block} (h : CoreInv depth b)
    (he : encSteps depth operand cs b = .ok b') :
    ∃ wv wc nc dm pe, b' = { b with wValid := wv, wCode := wc, nextCode := nc, dmem := dm, pend := pe } := by
  refine encSteps_keeps (P := fun b' => ∃ wv wc nc dm pe, b' = { b with
    wValid := wv, wCode := wc, nextCode := nc, dmem := dm, pend := pe }) ?_ h ⟨_, _, _, _, _, rfl⟩ he
  rintro c _ b2 - ⟨_, _, _, _, _, rfl⟩ hr
  obtain ⟨_, _, _, _, _, rfl⟩ := encStepRel_frame hr
  exact ⟨_, _, _, _, _, rfl⟩

/-- `DecStep` writes `FIRST_SEEN`, `w` and the dictionary only (R141). -/
theorem decStep_frame {depth : Nat} {k : Word} {b b' : Block} {str : Str} (h : decStep depth k b = .ok (b', str)) :
    ∃ fs wc nc dm, b' = { b with firstSeen := fs, wCode := wc, nextCode := nc, dmem := dm } := by
  cases hf : b.firstSeen with
  | false =>
    rw [decStep_first hf] at h
    split_ifs at h
    cases h
    exact ⟨_, _, _, _, rfl⟩
  | true =>
    rw [decStep, if_pos hf] at h
    obtain ⟨f, -, h⟩ := Res.bind_eq_ok h
    obtain ⟨b1, hins, h⟩ := Res.bind_eq_ok h
    obtain ⟨str', -, h⟩ := Res.map_eq_ok h
    obtain ⟨-, -, rfl⟩ := dictInsert_eq_ok hins
    cases h
    exact ⟨_, _, _, _, rfl⟩

theorem decStep_coreInv {depth : Nat} {k : Word} {b b' : Block} {str : Str} (h : CoreInv depth b)
    (hd : decStep depth k b = .ok (b', str)) : CoreInv depth b' := by
  rcases decStep_total h k with ⟨b1, str1, he, hcore, -⟩ | ⟨e, he, -⟩
  · cases he.symm.trans hd
    exact hcore
  · cases he.symm.trans hd

/-! ### The errors a command raises itself (R200) -/

theorem encStep_raise {depth : Nat} {operand x : Word} {c : Sym} {b : Block} {e : ErrCode} (h : CoreInv depth b)
    (he : encStep depth operand c b = .raise e x) : e = .dictFull := by
  rcases encStep_cases h operand c with ⟨b', -, ho⟩ | ⟨-, ho⟩
  · cases ho.symm.trans he
  · cases ho.symm.trans he
    rfl

theorem encSteps_raise {depth : Nat} {operand x : Word} {cs : Str} {b : Block} {e : ErrCode} (h : CoreInv depth b)
    (he : encSteps depth operand cs b = .raise e x) : e = .dictFull := by
  rcases encSteps_total h operand cs with ⟨b', ho⟩ | ho
  · cases ho.symm.trans he
  · cases ho.symm.trans he
    rfl

theorem decStep_raise {depth : Nat} {k x : Word} {b : Block} {e : ErrCode} (h : CoreInv depth b)
    (he : decStep depth k b = .raise e x) : e = .unknownCode ∨ e = .corruptStream ∨ e = .dictFull := by
  rcases decStep_total h k with ⟨b', str, ho, -⟩ | ⟨e', ho, herr⟩
  · cases ho.symm.trans he
  · cases ho.symm.trans he
    exact herr

theorem eSymBody_raise {depth : Nat} {c x : Word} {b : Block} {e : ErrCode} (h : CoreInv depth b)
    (he : eSymBody depth c b = .raise e x) : e ∈ ownErrors (.eSym c) := by
  unfold eSymBody at he
  split_ifs at he
  · simp [ownErrors, encStep_raise h he]
  · cases he
    simp [ownErrors]

theorem pPixBody_raise {depth : Nat} {v x : Word} {b : Block} {e : ErrCode} (h : CoreInv depth b)
    (he : pPixBody depth v b = .raise e x) : e ∈ ownErrors (.pPix v) := by
  unfold pPixBody at he
  split_ifs at he
  · simp [ownErrors, encSteps_raise h (Res.map_eq_raise he)]
  · cases he
    simp [ownErrors]

theorem dCodeBody_raise {depth : Nat} {k x : Word} {b : Block} {e : ErrCode} (h : CoreInv depth b)
    (he : dCodeBody depth k b = .raise e x) : e ∈ ownErrors (.dCode k) := by
  simpa [ownErrors] using decStep_raise h (Res.map_eq_raise he)

theorem pdCodeBody_raise {depth : Nat} {k x : Word} {b : Block} {e : ErrCode} (h : CoreInv depth b)
    (he : pdCodeBody depth k b = .raise e x) : e ∈ ownErrors (.pdCode k) := by
  simpa [ownErrors] using decStep_raise h (Res.map_eq_raise he)

theorem dEndBody_raise {x : Word} {b : Block} {e : ErrCode} (he : dEndBody b = .raise e x) : e ∈ ownErrors .dEnd := by
  unfold dEndBody at he
  split_ifs at he
  cases he
  simp [ownErrors]

theorem pdEndBody_raise {x : Word} {b : Block} {e : ErrCode} (he : pdEndBody b = .raise e x) : e ∈ ownErrors .pdEnd := by
  unfold pdEndBody at he
  split_ifs at he
  all_goals
    cases he
    simp [ownErrors]

/-- `DIG_BUF` and `DIG_ERR` are clear where `PD_END` succeeds (R183). -/
theorem pdEndBody_eq_ok {b b' : Block} (h : pdEndBody b = .ok b') :
    b.digBuf = [] ∧ b.digErr = false ∧ b' = { b with mode := .idle } := by
  unfold pdEndBody at h
  split_ifs at h with hfirst hdig hsize
  cases h
  simp only [ne_eq, List.length_eq_zero_iff, not_or, not_not, Bool.not_eq_true] at hdig
  exact ⟨hdig.2, hdig.1, rfl⟩

theorem dEndBody_eq_ok {b b' : Block} (h : dEndBody b = .ok b') : b' = { b with mode := .idle } := by
  unfold dEndBody at h
  split_ifs at h
  cases h
  rfl

/-- An error that the block latches in `ERR`: not `NONE`, and not the host adapter's error (R200, R207). -/
def LatchedError (e : ErrCode) : Prop := e ≠ .noError ∧ e ≠ .malformedFile

theorem latchedError_protocol : LatchedError .protocol := ⟨nofun, nofun⟩

theorem latchedError_illegalCommand : LatchedError .illegalCommand := ⟨nofun, nofun⟩

theorem latchedError_of_own {i : Instr} {e : ErrCode} (h : e ∈ ownErrors i) : LatchedError e := by
  have hno : ∀ i, ErrCode.noError ∉ ownErrors i ∧ ErrCode.malformedFile ∉ ownErrors i := by
    intro i
    cases i <;> simp [ownErrors]
  exact ⟨fun he => (hno i).1 (he ▸ h), fun he => (hno i).2 (he ▸ h)⟩

end Sys2Proof.Machine

namespace Sys2Proof.Safety

open Sys2Proof.Machine

/-! ### The invariant, per kind of update of the block -/

/-- The invariant speaks of the parameters and the block only, not of the host's side. -/
theorem Inv.of_block {s t : State} (h : Inv s) (hcfg : t.cfg = s.cfg) (hb : t.toBlock = s.toBlock) : Inv t := by
  obtain ⟨b, cfg, agenda, taken, reads⟩ := t
  cases hcfg
  cases hb
  exact { h with }

theorem Inv.pendInRange {s : State} (h : Inv s) : PendInRange s.cfg.dictDepth s.toBlock :=
  (List.forall_mem_append.1 h.items).1

theorem Inv.outqInRange {s : State} (h : Inv s) : ∀ i ∈ s.outq, ItemInRange s.cfg.dictDepth i :=
  (List.forall_mem_append.1 h.items).2

theorem Inv.reset {s : State} (h : s.cfg.Legal) : Inv (withBlock s Block.reset) where
  cfg_legal := h
  next_range := ⟨le_rfl, h.1⟩
  w_known := (by decide : (0 : Word).toNat < (256 : Word).toNat)
  memory_wf := reset_memory_wf _
  entries c h1 h2 := absurd h2 (Nat.not_lt.2 h1)
  err_iff := iff_of_true rfl nofun
  err_not_file := nofun
  err_regs _ := ⟨rfl, rfl⟩
  dig_len := Nat.zero_le _
  dig_outside _ _ := ⟨rfl, rfl⟩
  decode_w_valid _ := rfl
  encode_first _ := rfl
  generic_image _ := ⟨rfl, rfl, rfl⟩
  outq_len := Nat.zero_le _
  items := List.forall_mem_nil _

/-- The error entry (R212). -/
theorem Inv.raiseError {s : State} (h : Inv s) {e : ErrCode} (he : LatchedError e) (op : BitVec 8) (arg : Word) :
    Inv (raiseError e op arg s) :=
  { h with
    err_iff := by simp [he.1]
    err_not_file := he.2
    err_regs := fun hm => absurd rfl hm
    dig_outside := fun _ hm => absurd rfl hm
    decode_w_valid := by simp [Decoding]
    encode_first := by simp [Encoding]
    generic_image := by simp }

/-- A BEGIN: `OpInit`, the dimensions and the mode (R119, R120, R140, R160, R180). -/
theorem Inv.begun {s : State} (h : Inv s) {m : Mode} {w ht : Dim} (hm : m ≠ .error)
    (hdim : m = .enc ∨ m = .dec → w = 0 ∧ ht = 0) :
    Inv (withBlock s { opInit s.toBlock with imgW := w, imgH := ht, mode := m }) :=
  { h with
    next_range := ⟨le_rfl, h.cfg_legal.1⟩
    w_known := (by decide : (0 : Word).toNat < (256 : Word).toNat)
    entries := fun c h1 h2 => absurd h2 (Nat.not_lt.2 h1)
    err_iff := iff_of_true rfl hm
    err_not_file := nofun
    err_regs := fun _ => ⟨rfl, rfl⟩
    dig_len := Nat.zero_le _
    dig_outside := fun _ _ => ⟨rfl, rfl⟩
    decode_w_valid := fun _ => rfl
    encode_first := fun _ => rfl
    generic_image := fun hg => ⟨(hdim hg).1, (hdim hg).2, rfl⟩ }

/-- What a stream command that completes leaves as it was, by the mode it runs in (R24 to R28). -/
structure StreamFrame (b b' : Block) : Prop where
  mode : b'.mode = b.mode
  err : b'.err = b.err
  errOp : b'.errOp = b.errOp
  errArg : b'.errArg = b.errArg
  imgW : b'.imgW = b.imgW
  imgH : b'.imgH = b.imgH
  outq : b'.outq = b.outq
  wValid : Decoding b → b'.wValid = b.wValid
  firstSeen : Encoding b → b'.firstSeen = b.firstSeen
  pixCount : b.mode = .enc ∨ b.mode = .dec → b'.pixCount = b.pixCount
  dig : b.mode ≠ .pdec → b'.digBuf = b.digBuf ∧ b'.digErr = b.digErr

theorem StreamFrame.encode {b : Block} {wv : Bool} {wc nc pc : Word} {dm : Memory} {pe : List Item} (hm : Encoding b)
    (hpc : b.mode = .enc → pc = b.pixCount) : StreamFrame b
      { b with wValid := wv, wCode := wc, nextCode := nc, pixCount := pc, dmem := dm, pend := pe } where
  mode := rfl
  err := rfl
  errOp := rfl
  errArg := rfl
  imgW := rfl
  imgH := rfl
  outq := rfl
  wValid hd := by rcases hm with hm | hm <;> simp [Decoding, hm] at hd
  firstSeen _ := rfl
  pixCount hg := by
    rcases hg with hg | hg
    · exact hpc hg
    · simp [Encoding, hg] at hm
  dig _ := ⟨rfl, rfl⟩

theorem StreamFrame.decode {b : Block} {fs de : Bool} {wc nc pc : Word} {dm : Memory} {buf : List Sym} {pe : List Item}
    (hm : Decoding b) (hdec : b.mode = .dec → pc = b.pixCount ∧ buf = b.digBuf ∧ de = b.digErr) : StreamFrame b
      { b with firstSeen := fs, wCode := wc, nextCode := nc, pixCount := pc, digBuf := buf, digErr := de, dmem := dm, pend := pe } where
  mode := rfl
  err := rfl
  errOp := rfl
  errArg := rfl
  imgW := rfl
  imgH := rfl
  outq := rfl
  wValid _ := rfl
  firstSeen he := by rcases hm with hm | hm <;> simp [Encoding, hm] at he
  pixCount hg := by
    rcases hg with hg | hg
    · simp [Decoding, hg] at hm
    · exact (hdec hg).1
  dig hp := (hdec (hm.resolve_right hp)).2

/-- A stream command that completes. -/
theorem Inv.stream {s : State} {b : Block} (h : Inv s) (hf : StreamFrame s.toBlock b) (hcore : CoreInv s.cfg.dictDepth b)
    (hp : PendInRange s.cfg.dictDepth b) (hlen : b.digBuf.length ≤ 2) : Inv (withBlock s b) where
  cfg_legal := h.cfg_legal
  next_range := hcore.next_range
  w_known := hcore.w_known
  memory_wf := hcore.memory_wf
  entries := hcore.entries
  err_iff := by simpa [hf.mode, hf.err] using h.err_iff
  err_not_file := by simpa [hf.err] using h.err_not_file
  err_regs := by simpa [hf.mode, hf.errOp, hf.errArg] using h.err_regs
  dig_len := hlen
  dig_outside hm he := by
    rw [withBlock_toBlock, hf.mode] at hm he
    obtain ⟨hbuf, herr⟩ := hf.dig hm
    exact (h.dig_outside hm he).imp hbuf.trans herr.trans
  decode_w_valid hm := by
    rw [withBlock_toBlock, Decoding, hf.mode] at hm
    exact (hf.wValid hm).trans (h.decode_w_valid hm)
  encode_first hm := by
    rw [withBlock_toBlock, Encoding, hf.mode] at hm
    exact (hf.firstSeen hm).trans (h.encode_first hm)
  generic_image hm := by
    rw [withBlock_toBlock, hf.mode] at hm
    obtain ⟨hw, hh, hc⟩ := h.generic_image hm
    exact ⟨hf.imgW.trans hw, hf.imgH.trans hh, (hf.pixCount hm).trans hc⟩
  outq_len := by simpa [hf.outq] using h.outq_len
  items := List.forall_mem_append.2 ⟨hp, by simpa [hf.outq] using h.outqInRange⟩

/-- An END that succeeds: back to `IDLE`, with what the last flush emits (R123, R124, R143, R163, R183). -/
theorem Inv.ended {s : State} (h : Inv s) {items : List Item} (hm : s.mode ≠ .error) (hdig : s.digBuf = [] ∧ s.digErr = false)
    (hp : ∀ i ∈ items, ItemInRange s.cfg.dictDepth i) :
    Inv (withBlock s { s.toBlock with mode := .idle, pend := s.pend ++ items }) :=
  { h with
    err_iff := iff_of_true (h.err_iff.2 hm) nofun
    err_regs := fun _ => h.err_regs hm
    dig_outside := fun _ _ => hdig
    decode_w_valid := by simp [Decoding]
    encode_first := by simp [Encoding]
    generic_image := by simp
    items := List.forall_mem_append.2 ⟨h.pendInRange.append hp, h.outqInRange⟩ }

/-! ### The invariant, per command (R111) -/

theorem Inv.eSymBody {s : State} {c : Word} {b : Block} (h : Inv s) (hm : s.mode = .enc)
    (hb : eSymBody s.cfg.dictDepth c s.toBlock = .ok b) : Inv (withBlock s b) := by
  unfold Machine.eSymBody at hb
  split_ifs at hb
  have hcore := CoreInv.of_inv h
  have hr := (encStep_eq_ok_iff hcore _ _).1 hb
  have hcore' := encStepRel_coreInv hcore hr
  have hp := encStepRel_pendInRange hcore h.pendInRange hr
  obtain ⟨wv, wc, nc, dm, pe, rfl⟩ := encStepRel_frame hr
  exact h.stream (.encode (.inl hm) fun _ => rfl) hcore' hp h.dig_len

theorem Inv.pPixBody {s : State} {v : Word} {b : Block} (h : Inv s) (hm : s.mode = .penc)
    (hb : pPixBody s.cfg.dictDepth v s.toBlock = .ok b) : Inv (withBlock s b) := by
  unfold Machine.pPixBody at hb
  split_ifs at hb
  obtain ⟨b1, hs, rfl⟩ := Res.map_eq_ok hb
  have hcore := CoreInv.of_inv h
  have hcore' := encSteps_coreInv hcore hs
  have hp := encSteps_keeps (P := PendInRange s.cfg.dictDepth) (fun _ _ _ => encStepRel_pendInRange) hcore h.pendInRange hs
  obtain ⟨wv, wc, nc, dm, pe, rfl⟩ := encSteps_frame hcore hs
  exact h.stream (.encode (.inr hm) (by simp [hm])) (hcore'.congr rfl rfl rfl) hp h.dig_len

theorem Inv.dCodeBody {s : State} {k : Word} {b : Block} (h : Inv s) (hm : s.mode = .dec)
    (hb : dCodeBody s.cfg.dictDepth k s.toBlock = .ok b) : Inv (withBlock s b) := by
  obtain ⟨⟨b1, str⟩, hd, rfl⟩ := Res.map_eq_ok hb
  have hcore := decStep_coreInv (CoreInv.of_inv h) hd
  obtain ⟨fs, wc, nc, dm, rfl⟩ := decStep_frame hd
  exact h.stream (.decode (.inl hm) fun _ => ⟨rfl, rfl, rfl⟩) (hcore.congr rfl rfl rfl) (emitSyms_pendInRange h.pendInRange)
    h.dig_len

theorem Inv.pdCodeBody {s : State} {k : Word} {b : Block} (h : Inv s) (hm : s.mode = .pdec)
    (hb : pdCodeBody s.cfg.dictDepth k s.toBlock = .ok b) : Inv (withBlock s b) := by
  obtain ⟨⟨b1, str⟩, hd, rfl⟩ := Res.map_eq_ok hb
  have hcore := decStep_coreInv (CoreInv.of_inv h) hd
  obtain ⟨fs, wc, nc, dm, rfl⟩ := decStep_frame hd
  rw [digitPushes_eq _ _ (by exact h.dig_len)]
  exact h.stream (.decode (.inr hm) (by simp [hm])) (hcore.congr rfl rfl rfl)
    (h.pendInRange.append (chunkItems_inRange _ _)) (chunks_rest_length _)

/-- The rule of `E_END` and of `P_END` (R124, R163). -/
theorem Inv.encodeEnd {s : State} (h : Inv s) (hm : Encoding s.toBlock) :
    Inv (withBlock s { encFlush s.toBlock with mode := .idle }) := by
  have hpdec : s.mode ≠ .pdec := by rcases hm with hm | hm <;> simp [hm]
  have herr : s.mode ≠ .error := by rcases hm with hm | hm <;> simp [hm]
  rw [encFlush_eq]
  exact h.ended herr (h.dig_outside hpdec herr) (flushed_inRange (CoreInv.of_inv h))

/-- An END of a decode operation emits nothing (R143, R183). -/
theorem Inv.decodeEnd {s : State} (h : Inv s) (hm : s.mode ≠ .error) (hdig : s.digBuf = [] ∧ s.digErr = false) :
    Inv (withBlock s { s.toBlock with mode := .idle }) := by
  simpa using h.ended (items := []) hm hdig (List.forall_mem_nil _)

theorem Inv.dEndBody {s : State} {b : Block} (h : Inv s) (hm : s.mode = .dec) (hb : dEndBody s.toBlock = .ok b) :
    Inv (withBlock s b) := by
  rw [dEndBody_eq_ok hb]
  exact h.decodeEnd (by simp [hm]) (h.dig_outside (by simp [hm]) (by simp [hm]))

theorem Inv.pdEndBody {s : State} {b : Block} (h : Inv s) (hm : s.mode = .pdec) (hb : pdEndBody s.toBlock = .ok b) :
    Inv (withBlock s b) := by
  obtain ⟨hbuf, herr, rfl⟩ := pdEndBody_eq_ok hb
  exact h.decodeEnd (by simp [hm]) ⟨hbuf, herr⟩

theorem Inv.inOperation {i : Instr} {m : Mode} {op : BitVec 8} {x : Word} {body : Block → Res Block} {s t : State} (h : Inv s)
    (ht : inOperation m op x body s = .next t) (hok : ∀ b, s.mode = m → body s.toBlock = .ok b → Inv (withBlock s b))
    (hraise : ∀ e a, body s.toBlock = .raise e a → e ∈ ownErrors i) : Inv t := by
  rcases inOperation_cases ht with ⟨-, rfl⟩ | ⟨-, -, rfl⟩ | ⟨-, hm, b, hb, rfl⟩ | ⟨-, -, e, a, he, rfl⟩
  · exact h
  · exact h.raiseError latchedError_protocol op x
  · exact hok b hm hb
  · exact h.raiseError (latchedError_of_own (hraise e a he)) op a

theorem Inv.beginOperation {op : BitVec 8} {x : Word} {body : Block → Block} {s t : State} (h : Inv s)
    (ht : beginOperation op x body s = .next t) (hbody : Inv (withBlock s (body s.toBlock))) : Inv t := by
  rcases beginOperation_cases ht with ⟨-, rfl⟩ | ⟨-, -, rfl⟩
  · exact hbody
  · exact h.raiseError latchedError_protocol op x

theorem Inv.exec {i : Instr} {s t : State} (h : Inv s) (ht : exec i s = .next t) : Inv t := by
  have hcore := CoreInv.of_inv h
  cases i with
  | nop =>
    cases ht
    exact h
  | eBegin => exact h.beginOperation ht (h.begun nofun fun _ => ⟨rfl, rfl⟩)
  | eSym c => exact h.inOperation ht (fun _ => h.eSymBody) (fun _ _ => eSymBody_raise hcore)
  | eEnd =>
    refine h.inOperation (i := .eEnd) (body := fun b => .ok (Machine.eEndBody b)) ht ?_ nofun
    rintro _ hm ⟨⟩
    exact h.encodeEnd (.inl hm)
  | dBegin => exact h.beginOperation ht (h.begun nofun fun _ => ⟨rfl, rfl⟩)
  | dCode k => exact h.inOperation ht (fun _ => h.dCodeBody) (fun _ _ => dCodeBody_raise hcore)
  | dEnd => exact h.inOperation ht (fun _ => h.dEndBody) (fun _ _ => dEndBody_raise)
  | pBegin w ht' => exact h.beginOperation ht (h.begun nofun (by simp))
  | pPix v => exact h.inOperation ht (fun _ => h.pPixBody) (fun _ _ => pPixBody_raise hcore)
  | pEnd =>
    refine h.inOperation (i := .pEnd) (body := fun b => .ok (Machine.pEndBody b)) ht ?_ nofun
    rintro _ hm ⟨⟩
    exact h.encodeEnd (.inr hm)
  | pdBegin w ht' => exact h.beginOperation ht (h.begun nofun (by simp))
  | pdCode k => exact h.inOperation ht (fun _ => h.pdCodeBody) (fun _ _ => pdCodeBody_raise hcore)
  | pdEnd => exact h.inOperation ht (fun _ => h.pdEndBody) (fun _ _ => pdEndBody_raise)

theorem Inv.illegalWord {cmd : Cmd} {s t : State} (h : Inv s) (ht : illegalWord cmd s = .next t) : Inv t := by
  unfold Machine.illegalWord at ht
  split_ifs at ht
  · cases ht
    exact h
  · cases ht
    exact h.raiseError latchedError_illegalCommand _ _

theorem Inv.execWord {cmd : Cmd} {s t : State} (h : Inv s) (ht : execWord cmd s = .next t) : Inv t := by
  unfold Machine.execWord at ht
  split at ht
  · exact h.exec ht
  · exact h.illegalWord ht

/-! ### The invariant, per step (R110), and in every reachable state -/

theorem drainEnabled_room {cfg : Config} {b : Block} (h : drainEnabled cfg b = true) : b.outq.length < cfg.outDepth := by
  simp only [drainEnabled, Bool.and_eq_true, decide_eq_true_eq] at h
  exact h.2

theorem Inv.drainStep {s : State} (h : Inv s) : Inv (drainStep s) := by
  unfold Machine.drainStep drainBlock
  split_ifs with hd
  · have hroom := drainEnabled_room hd
    have hp := h.pendInRange
    exact { h with
      outq_len := by
        simp only [withBlock_toBlock, withBlock_cfg, List.length_append, List.length_take]
        omega
      items := List.forall_mem_append.2 ⟨fun i hi => hp i (List.mem_of_mem_drop hi),
        List.forall_mem_append.2 ⟨h.outqInRange, fun i hi => hp i (List.mem_of_mem_take hi)⟩⟩ }
  · exact h

theorem Inv.popStep {s : State} (h : Inv s) : Inv (popStep s) :=
  { h with
    outq_len := (List.drop_sublist 1 _).length_le.trans h.outq_len
    items := List.forall_mem_append.2 ⟨h.pendInRange, fun i hi => h.outqInRange i (List.mem_of_mem_drop hi)⟩ }

theorem Inv.step {s t : State} (h : Inv s) (ht : step s = .next t) : Inv t := by
  have hrest (rest : List Event) : Inv { s with agenda := rest } := h.of_block rfl rfl
  change agendaStep s = .next t at ht
  unfold agendaStep at ht
  split at ht
  · cases ht
    exact h.drainStep
  · rename_i cmd rest _
    unfold issueStep at ht
    split_ifs at ht
    · exact (hrest rest).execWord ht
    · cases ht
      exact h.drainStep
  · cases ht
    exact (hrest _).drainStep
  · cases ht
    exact (hrest _).popStep
  · cases ht
    exact h.of_block rfl rfl
  · cases ht
    exact Inv.reset h.cfg_legal

/-- Reset holds the invariant and every step keeps it, so every reachable state has it. -/
theorem Reachable.inv {s : State} (h : Reachable s) : Inv s := by
  induction h with
  | start cfg agenda hcfg => exact Inv.reset (s := { State.resetWith cfg with agenda := agenda }) hcfg
  | step s t _ hs ih => exact ih.step hs

end Sys2Proof.Safety

namespace Sys2Proof.Proofs

open Sys2Proof.Machine Sys2Proof.Safety

/-- Settles O53: R39's items are clauses of the invariant that every reachable state has. -/
theorem reachableStateInvariants : Obligations.ReachableStateInvariants := by
  intro s hs
  have h := hs.inv
  refine ⟨h.next_range, fun _ _ => h.w_known, fun _ _ => h.w_known, fun c h1 h2 => ?_,
    (errBits_eq_zero_iff s.err).trans h.err_iff, h.dig_len, h.dig_outside⟩
  obtain ⟨e, hr, hp⟩ := h.entries c h1 h2
  exact ⟨e, hr, hp, e.suffix.isLt⟩

end Sys2Proof.Proofs
end

section
/-!
The rule of a system's step (20_memory.md R64): one step of the block at the named place, written back there.
-/

namespace Sys2Proof.Machine

/-- Once for all that is said of a system: what a step at place `n` that answers can have done. -/
theorem systemStep_eq_some_iff {n : Nat} {sys sys' : System} :
    systemStep n sys = some sys' ↔ ∃ s s', sys[n]? = some s ∧ step s = .next s' ∧ sys' = sys.set n s' := by
  unfold systemStep
  cases hget : sys[n]? with
  | none => simp
  | some s => cases hstep : step s <;> simp [hstep, eq_comm]

end Sys2Proof.Machine

namespace Sys2Proof.Proofs

open Sys2Proof.Machine

/-- Settles O14: the step writes place `n` of the list only, so every other place and the length are kept. -/
theorem instancesShareNothing : Obligations.InstancesShareNothing := by
  intro n m sys sys' hstep hne
  obtain ⟨s, s', -, -, rfl⟩ := systemStep_eq_some_iff.mp hstep
  exact ⟨List.getElem?_set_ne hne.symm, List.length_set⟩

end Sys2Proof.Proofs
end

section
/-!
The command word (30_encoding.md R70 to R75): the fields of a command's word, everything the decoder can answer, and what makes a word
illegal.
-/

namespace Sys2Proof

/-! ### The fields of a word (R70, R71) -/

/-- A word is its opcode field above its operand field. -/
theorem cmdOpcode_append_cmdOperand (cmd : Cmd) : cmdOpcode cmd ++ cmdOperand cmd = cmd :=
  (BitVec.extractLsb'_append_extractLsb'_eq_extractLsb' rfl).trans BitVec.extractLsb'_eq_self

theorem dimWidth_append_dimHeight (x : Word) : dimWidth x ++ dimHeight x = x :=
  (BitVec.extractLsb'_append_extractLsb'_eq_extractLsb' rfl).trans BitVec.extractLsb'_eq_self

@[simp] theorem dimWidth_append (w h : Dim) : dimWidth (w ++ h) = w := BitVec.extractLsb'_append_eq_left

@[simp] theorem dimHeight_append (w h : Dim) : dimHeight (w ++ h) = h := BitVec.extractLsb'_append_eq_right

theorem encodedFields : ∀ i : Instr, Laws.EncodedFields.Statement i
  | .nop => Laws.EncodedFields.nop
  | .eBegin => Laws.EncodedFields.eBegin
  | .eSym c => Laws.EncodedFields.eSym c
  | .eEnd => Laws.EncodedFields.eEnd
  | .dBegin => Laws.EncodedFields.dBegin
  | .dCode k => Laws.EncodedFields.dCode k
  | .dEnd => Laws.EncodedFields.dEnd
  | .pBegin w h => Laws.EncodedFields.pBegin w h
  | .pPix v => Laws.EncodedFields.pPix v
  | .pEnd => Laws.EncodedFields.pEnd
  | .pdBegin w h => Laws.EncodedFields.pdBegin w h
  | .pdCode k => Laws.EncodedFields.pdCode k
  | .pdEnd => Laws.EncodedFields.pdEnd

@[simp] theorem cmdOpcode_encode (i : Instr) : cmdOpcode (encode i) = i.opcode := (encodedFields i).1

@[simp] theorem cmdOperand_encode (i : Instr) : cmdOperand (encode i) = i.operand := (encodedFields i).2.1

@[simp] theorem legal_encode (i : Instr) : legal (encode i) = true := (encodedFields i).2.2

/-- A word is the word of a command as soon as both fields are the command's. -/
theorem encode_eq_of_fields {i : Instr} {cmd : Cmd} (hop : cmdOpcode cmd = i.opcode) (hx : cmdOperand cmd = i.operand) :
    encode i = cmd := by
  rw [encode, ← hop, ← hx, cmdOpcode_append_cmdOperand]

/-! ### What makes a word illegal (R73) -/

theorem formOf_eq_none_iff (op : BitVec 8) : formOf op = none ↔
    op ∉ ([0x00, 0x01, 0x02, 0x03, 0x11, 0x12, 0x13, 0x21, 0x22, 0x23, 0x31, 0x32, 0x33] : List (BitVec 8)) := by
  revert op
  decide

theorem formOf_eq_noOperand_iff (op : BitVec 8) : formOf op = some .noOperand ↔
    op ∈ ([0x00, 0x01, 0x03, 0x11, 0x13, 0x23, 0x33] : List (BitVec 8)) := by
  revert op
  decide

/-- R73's two cases. -/
theorem legal_eq_false_iff (cmd : Cmd) : legal cmd = false ↔
    formOf (cmdOpcode cmd) = none ∨ (formOf (cmdOpcode cmd) = some .noOperand ∧ cmdOperand cmd ≠ 0) := by
  unfold legal
  split
  next h => simp [h]
  next h => simp [h]
  next hne h => simpa [h] using fun hf => (hne hf).elim

/-! ### What the decoder can answer (R70 to R73) -/

theorem decode_encode (i : Instr) : decode (encode i) = .ok i := by
  unfold decode
  rw [cmdOpcode_encode, cmdOperand_encode]
  cases i with
  | nop | eBegin | eEnd | dBegin | dEnd | pEnd | pdEnd => rfl
  | eSym | dCode | pPix | pdCode => rfl
  | pBegin w h => simp [Instr.opcode, Instr.operand]
  | pdBegin w h => simp [Instr.opcode, Instr.operand]

/-- A right answer of the decoder to a word: the command whose word it is, or an error where the word is illegal. -/
def RightAnswer (cmd : Cmd) (r : Except DecodeError Instr) : Prop :=
  (∃ i, r = .ok i ∧ encode i = cmd) ∨ (∃ e, r = .error e ∧ legal cmd = false)

theorem rightAnswer_ok {cmd : Cmd} {i : Instr} (hop : cmdOpcode cmd = i.opcode) (hx : cmdOperand cmd = i.operand) :
    RightAnswer cmd (.ok i) := .inl ⟨i, rfl, encode_eq_of_fields hop hx⟩

theorem rightAnswer_decodeNone {cmd : Cmd} {i : Instr} (hop : cmdOpcode cmd = i.opcode) (hx : i.operand = 0)
    (hform : formOf i.opcode = some .noOperand) : RightAnswer cmd (decodeNone i (cmdOpcode cmd) (cmdOperand cmd)) := by
  unfold decodeNone
  split_ifs with h0
  · exact rightAnswer_ok hop (h0.trans hx.symm)
  · exact .inr ⟨_, rfl, (legal_eq_false_iff cmd).2 (.inr ⟨hop ▸ hform, h0⟩)⟩

/-- Once for all words: what `decode` answers, row by row of the opcode map (R72), the last row being every other opcode. -/
theorem rightAnswer_decode (cmd : Cmd) : RightAnswer cmd (decode cmd) := by
  simp only [decode]
  split
  case h_1 hop | h_2 hop | h_4 hop | h_5 hop | h_7 hop | h_10 hop | h_13 hop => exact rightAnswer_decodeNone hop rfl rfl
  case h_3 hop | h_6 hop | h_9 hop | h_12 hop => exact rightAnswer_ok hop rfl
  case h_8 hop | h_11 hop => exact rightAnswer_ok hop (dimWidth_append_dimHeight _).symm
  case h_14 =>
    refine .inr ⟨_, rfl, (legal_eq_false_iff cmd).2 (.inl ((formOf_eq_none_iff _).2 ?_))⟩
    simp_all

theorem encode_of_decode {cmd : Cmd} {i : Instr} (h : decode cmd = .ok i) : encode i = cmd := by
  rcases rightAnswer_decode cmd with ⟨j, hj, henc⟩ | ⟨e, he, -⟩
  · cases hj.symm.trans h
    exact henc
  · cases he.symm.trans h

theorem legal_iff_decode (cmd : Cmd) : legal cmd = true ↔ ∃ i, decode cmd = .ok i := by
  constructor
  · intro hl
    rcases rightAnswer_decode cmd with ⟨i, hi, -⟩ | ⟨e, -, hn⟩
    · exact ⟨i, hi⟩
    · cases hl.symm.trans hn
  · rintro ⟨i, hi⟩
    exact encode_of_decode hi ▸ legal_encode i

theorem decode_of_illegal {cmd : Cmd} (h : legal cmd = false) : ∃ e, decode cmd = .error e := by
  rcases rightAnswer_decode cmd with ⟨i, -, rfl⟩ | ⟨e, he, -⟩
  · cases (legal_encode i).symm.trans h
  · exact ⟨e, he⟩

end Sys2Proof

namespace Sys2Proof.Machine

/-- An illegal word runs no command (R111). -/
theorem execWord_of_illegal {cmd : Cmd} (h : legal cmd = false) (s : State) : execWord cmd s = illegalWord cmd s := by
  obtain ⟨e, he⟩ := decode_of_illegal h
  rw [execWord, he]

end Sys2Proof.Machine

namespace Sys2Proof.Proofs

open Sys2Proof.Machine

/-- Settles O2: command by command, from the two fields of its word. -/
theorem decodeOfEncode : Obligations.DecodeOfEncode := decode_encode

/-- Settles O3: the decoder's answer to every word is right, and the word of a command is legal. -/
theorem encodeOfDecode : Obligations.EncodeOfDecode :=
  ⟨legal_iff_decode, fun _ _ => encode_of_decode⟩

/-- Settles O4: R73's two cases by the opcode map; an illegal word runs no command, so it is left to `illegalWord`. -/
theorem illegalWords : Obligations.IllegalWords := by
  refine ⟨fun cmd => ?_, fun cmd s hl => ⟨fun hm => ?_, fun hm => ?_⟩, rfl⟩
  · rw [legal_eq_false_iff, formOf_eq_none_iff, formOf_eq_noOperand_iff]
    rfl
  · rw [execWord_of_illegal hl, illegalWord, if_neg hm]
    rfl
  · rw [execWord_of_illegal hl, illegalWord, if_pos hm]

end Sys2Proof.Proofs
end

section
/-!
Output items (30_encoding.md R76): the fields of an item's word, and that a command adds items of its own kind to `PEND` and no others.
-/

namespace Sys2Proof.Machine

open Sys2Proof.Safety

/-! ### The word of an item -/

@[simp] theorem itemWord_data (item : Item) : (itemWord item).extractLsb' 0 32 = item.data := BitVec.extractLsb'_append_eq_right

@[simp] theorem itemWord_kind (item : Item) : (itemWord item).extractLsb' 32 2 = kindBits item.kind :=
  BitVec.extractLsb'_append_eq_left

/-! ### What a procedure adds to `PEND` -/

/-- From `b` to `b'`, `PEND` keeps its items and gets none but items of kind `k`; no item where `k` is `none`. -/
def Emits (k : Option Kind) (b b' : Block) : Prop :=
  ∃ items, b'.pend = b.pend ++ items ∧ ∀ item ∈ items, some item.kind = k

theorem Emits.of_pend_eq {k : Option Kind} {b b' : Block} (h : b'.pend = b.pend) : Emits k b b' :=
  ⟨[], h.trans (List.append_nil _).symm, List.forall_mem_nil _⟩

theorem Emits.trans {k : Option Kind} {b b' b'' : Block} (h : Emits k b b') (h' : Emits k b' b'') : Emits k b b'' := by
  obtain ⟨items, hp, hk⟩ := h
  obtain ⟨items', hp', hk'⟩ := h'
  exact ⟨items ++ items', by rw [hp', hp, List.append_assoc], List.forall_mem_append.2 ⟨hk, hk'⟩⟩

theorem emit_emits (k : Kind) (v : Word) (b : Block) : Emits (some k) b (emit k v b) :=
  ⟨_, rfl, List.forall_mem_singleton.2 rfl⟩

theorem emitSyms_emits (str : Str) (b : Block) : Emits (some .sym) b (emitSyms str b) :=
  ⟨_, rfl, List.forall_mem_map.2 fun _ _ => rfl⟩

theorem dictInsert_pend {depth : Nat} {operand p : Word} {s : Sym} {b b' : Block} (h : dictInsert depth operand p s b = .ok b') :
    b'.pend = b.pend := by
  obtain ⟨-, -, rfl⟩ := dictInsert_eq_ok h
  rfl

/-! ### The encoder (R121, R123, R161) -/

theorem encStep_emits {depth : Nat} {operand : Word} {c : Sym} {b b' : Block} (h : encStep depth operand c b = .ok b') :
    Emits (some .code) b b' := by
  unfold encStep at h
  split_ifs at h
  · split at h
    · cases h
      exact .of_pend_eq rfl
    · obtain ⟨b1, hins, rfl⟩ := Res.map_eq_ok h
      have hp := dictInsert_pend hins
      exact (emit_emits .code b.wCode b).trans (.of_pend_eq hp)
  · cases h
    exact .of_pend_eq rfl

theorem encSteps_emits {depth : Nat} {operand : Word} {cs : Str} {b b' : Block} (h : encSteps depth operand cs b = .ok b') :
    Emits (some .code) b b' := by
  induction cs generalizing b with
  | nil =>
    cases h
    exact .of_pend_eq rfl
  | cons c cs ih =>
    obtain ⟨b1, h1, h2⟩ := Res.bind_eq_ok h
    exact (encStep_emits h1).trans (ih h2)

theorem encFlush_emits (b : Block) : Emits (some .code) b (encFlush b) := by
  unfold encFlush
  split_ifs
  · exact emit_emits .code b.wCode b
  · exact .of_pend_eq rfl

theorem eSymBody_emits {depth : Nat} {c : Word} {b b' : Block} (h : eSymBody depth c b = .ok b') : Emits (some .code) b b' := by
  unfold eSymBody at h
  split_ifs at h
  exact encStep_emits h

theorem pPixBody_emits {depth : Nat} {v : Word} {b b' : Block} (h : pPixBody depth v b = .ok b') : Emits (some .code) b b' := by
  unfold pPixBody at h
  split_ifs at h
  obtain ⟨b1, hs, rfl⟩ := Res.map_eq_ok h
  exact (encSteps_emits hs).trans (.of_pend_eq (countPixel_pend b1))

/-! ### The decoders (R142, R181, R182) -/

theorem decStep_pend {depth : Nat} {k : Word} {b b' : Block} {str : Str} (h : decStep depth k b = .ok (b', str)) :
    b'.pend = b.pend := by
  obtain ⟨_, _, _, _, rfl⟩ := decStep_frame h
  rfl

theorem digitPush_emits (s : Sym) (b : Block) : Emits (some .pix) b (digitPush s b) := by
  unfold digitPush
  split
  · unfold completeChunk
    split_ifs
    · exact emit_emits .pix _ _
    · exact .of_pend_eq rfl
  · exact .of_pend_eq rfl

theorem digitPushes_emits (str : Str) (b : Block) : Emits (some .pix) b (digitPushes str b) := by
  induction str generalizing b with
  | nil => exact .of_pend_eq rfl
  | cons s str ih => exact (digitPush_emits s b).trans (ih (digitPush s b))

theorem dCodeBody_emits {depth : Nat} {k : Word} {b b' : Block} (h : dCodeBody depth k b = .ok b') : Emits (some .sym) b b' := by
  obtain ⟨⟨b1, str⟩, hd, rfl⟩ := Res.map_eq_ok h
  exact (Emits.of_pend_eq (decStep_pend hd)).trans (emitSyms_emits str b1)

theorem pdCodeBody_emits {depth : Nat} {k : Word} {b b' : Block} (h : pdCodeBody depth k b = .ok b') :
    Emits (some .pix) b b' := by
  obtain ⟨⟨b1, str⟩, hd, rfl⟩ := Res.map_eq_ok h
  exact (Emits.of_pend_eq (decStep_pend hd)).trans (digitPushes_emits str b1)

/-! ### Every command (R76) -/

/-- An error entry emits nothing (R212), so a stream or END command emits what its rule emits. -/
theorem inOperation_emits {k : Option Kind} {m : Mode} {op : BitVec 8} {x : Word} {body : Block → Res Block} {s t : State}
    (ht : inOperation m op x body s = .next t) (hbody : ∀ b, body s.toBlock = .ok b → Emits k s.toBlock b) :
    Emits k s.toBlock t.toBlock := by
  rcases inOperation_cases ht with ⟨-, rfl⟩ | ⟨-, -, rfl⟩ | ⟨-, -, b, hb, rfl⟩ | ⟨-, -, e, a, -, rfl⟩
  · exact .of_pend_eq rfl
  · exact .of_pend_eq rfl
  · exact hbody b hb
  · exact .of_pend_eq rfl

theorem beginOperation_emits {k : Option Kind} {op : BitVec 8} {x : Word} {body : Block → Block} {s t : State}
    (ht : beginOperation op x body s = .next t) (hbody : (body s.toBlock).pend = s.pend) : Emits k s.toBlock t.toBlock := by
  rcases beginOperation_cases ht with ⟨-, rfl⟩ | ⟨-, -, rfl⟩
  · exact .of_pend_eq hbody
  · exact .of_pend_eq rfl

/-- `E_END` and `P_END` emit what the flush emits (R124, R163). -/
theorem encodeEnd_emits (b : Block) : Emits (some .code) b { encFlush b with mode := .idle } :=
  (encFlush_emits b).trans (.of_pend_eq rfl)

theorem dEndBody_pend {b b' : Block} (h : dEndBody b = .ok b') : b'.pend = b.pend := by
  rw [dEndBody_eq_ok h]

theorem pdEndBody_pend {b b' : Block} (h : pdEndBody b = .ok b') : b'.pend = b.pend := by
  obtain ⟨-, -, rfl⟩ := pdEndBody_eq_ok h
  rfl

theorem exec_emits {i : Instr} {s t : State} (ht : exec i s = .next t) : Emits (emitKind i) s.toBlock t.toBlock := by
  cases i with
  | nop =>
    cases ht
    exact .of_pend_eq rfl
  | eBegin => exact beginOperation_emits ht rfl
  | eSym c => exact inOperation_emits ht fun _ => eSymBody_emits
  | eEnd =>
    refine inOperation_emits (body := fun b => .ok (eEndBody b)) ht ?_
    rintro _ ⟨⟩
    exact encodeEnd_emits _
  | dBegin => exact beginOperation_emits ht rfl
  | dCode k => exact inOperation_emits ht fun _ => dCodeBody_emits
  | dEnd => exact inOperation_emits ht fun _ hb => .of_pend_eq (dEndBody_pend hb)
  | pBegin w h => exact beginOperation_emits ht rfl
  | pPix v => exact inOperation_emits ht fun _ => pPixBody_emits
  | pEnd =>
    refine inOperation_emits (body := fun b => .ok (pEndBody b)) ht ?_
    rintro _ ⟨⟩
    exact encodeEnd_emits _
  | pdBegin w h => exact beginOperation_emits ht rfl
  | pdCode k => exact inOperation_emits ht fun _ => pdCodeBody_emits
  | pdEnd => exact inOperation_emits ht fun _ hb => .of_pend_eq (pdEndBody_pend hb)

/-- R76's table: which commands emit which kind. -/
theorem emitKind_eq_some {i : Instr} {k : Kind} (h : some k = emitKind i) :
    (k = .code ∧ ((∃ c, i = .eSym c) ∨ i = .eEnd ∨ (∃ v, i = .pPix v) ∨ i = .pEnd)) ∨
    (k = .sym ∧ ∃ c, i = .dCode c) ∨ (k = .pix ∧ ∃ c, i = .pdCode c) := by
  cases i with
  | nop | eBegin | dBegin | dEnd | pBegin | pdBegin | pdEnd => cases h
  | eSym c => exact .inl ⟨Option.some.inj h, .inl ⟨c, rfl⟩⟩
  | eEnd => exact .inl ⟨Option.some.inj h, .inr (.inl rfl)⟩
  | pPix v => exact .inl ⟨Option.some.inj h, .inr (.inr (.inl ⟨v, rfl⟩))⟩
  | pEnd => exact .inl ⟨Option.some.inj h, .inr (.inr (.inr rfl))⟩
  | dCode c => exact .inr (.inl ⟨Option.some.inj h, c, rfl⟩)
  | pdCode c => exact .inr (.inr ⟨Option.some.inj h, c, rfl⟩)

end Sys2Proof.Machine

namespace Sys2Proof.Proofs

open Sys2Proof.Machine

/-- Settles O15: the two fields of an item's word, and what every command adds to `PEND`, by the kind it may emit. -/
theorem outputItemFormat : Obligations.OutputItemFormat := by
  refine ⟨fun item => ⟨itemWord_data item, ?_⟩, fun i s t ht => ?_⟩
  · rw [itemWord_kind]
    rfl
  · obtain ⟨items, hp, hk⟩ := exec_emits ht
    exact ⟨items, hp, fun item hi => emitKind_eq_some (hk item hi)⟩

end Sys2Proof.Proofs
end

section
/-!
The strings of the dictionary (40_dictionary.md): the lengths of entries (R97, R98), and the keys of an encode operation, which every
step keeps distinct (R96).
-/

namespace Sys2Proof.Safety

open Sys2Proof.Machine

/-! ### The strings of codes (R97, R98, R96) -/

/-- R97 and R98, by induction along the parents: an entry is one symbol longer than its parent, whose code is smaller. -/
theorem Denotes.length_bounds {m : Memory} {c : Nat} {str : Str} (h : Denotes m c str) :
    (c < 256 → str.length = 1) ∧ (256 ≤ c → 2 ≤ str.length ∧ str.length ≤ c - 254) := by
  induction h with
  | seed c hc => exact ⟨fun _ => rfl, fun h => absurd hc (Nat.not_lt.2 h)⟩
  | entry c e str hc _ hp _ ih =>
    refine ⟨fun h => absurd hc (Nat.not_le.2 h), fun _ => ?_⟩
    obtain ⟨hseed, hentry⟩ := ih
    rw [List.length_append, List.length_singleton]
    by_cases hparent : e.parent.toNat < 256
    · have := hseed hparent
      omega
    · have := hentry (Nat.not_lt.1 hparent)
      omega

/-- A non-empty initial part of a code's string is the string of the code itself or of one of its ancestors. -/
theorem Denotes.exists_of_isPrefix {m : Memory} {c : Nat} {str pre : Str} (h : Denotes m c str) (hne : pre ≠ [])
    (hpre : pre <+: str) : ∃ e, e ≤ c ∧ Denotes m e pre := by
  induction h with
  | seed c hc =>
    rcases List.prefix_concat_iff (l₂ := []) |>.1 hpre with rfl | hnil
    · exact ⟨c, le_rfl, .seed c hc⟩
    · exact absurd (List.prefix_nil.1 hnil) hne
  | entry c e str hc hr hp hd ih =>
    rcases List.prefix_concat_iff.1 hpre with rfl | hstr
    · exact ⟨c, le_rfl, .entry c e str hc hr hp hd⟩
    · obtain ⟨a, ha, hpa⟩ := ih hstr
      exact ⟨a, ha.trans hp.le, hpa⟩

/-! ### The keys of an encode operation (R96) -/

/-- No two codes below `n` denote one string. -/
def DistinctKeys (m : Memory) (n : Nat) : Prop :=
  ∀ c c' str, c < n → c' < n → Denotes m c str → Denotes m c' str → c = c'

theorem keysDistinct_iff (s : State) :
    KeysDistinct s ↔ (Encoding s.toBlock → DistinctKeys s.dmem s.nextCode.toNat) := Iff.rfl

/-- The seeds alone are distinct, whatever the memory holds (R51, R90). -/
theorem distinctKeys_seeds (m : Memory) : DistinctKeys m 256 := by
  intro c c' str hc hc' hd hd'
  have hsym := (hd.unique (.seed c hc)).symm.trans (hd'.unique (.seed c' hc'))
  have hnat := congrArg BitVec.toNat (List.singleton_inj.1 hsym)
  rwa [BitVec.toNat_ofNat, BitVec.toNat_ofNat, Nat.mod_eq_of_lt hc, Nat.mod_eq_of_lt hc'] at hnat

/-- Where the keys are distinct, comparing `Str(p) ++ [s]` with a key is comparing the pair with its entry: the strings of two
parents are equal only if the parents are (R96). -/
theorem DistinctKeys.denotes_concat_iff {m : Memory} {n e : Nat} {p : Word} {w : Str} {s : Sym} (h : DistinctKeys m n)
    (hk : Known m n) (hp : p.toNat < n) (hw : Denotes m p.toNat w) (he : e < n) :
    Denotes m e (w ++ [s]) ↔ 256 ≤ e ∧ Memory.read m e = some { parent := p, suffix := s } := by
  constructor
  · intro hd
    have h256 : 256 ≤ e := by
      by_contra hseed
      have hlen := hd.length_bounds.1 (Nat.not_le.1 hseed)
      rw [List.length_append, List.length_singleton] at hlen
      exact hw.ne_nil (List.length_eq_zero_iff.1 (by omega))
    obtain ⟨x, str, hr, hx, hstr, heq⟩ := hd.entry_eq h256
    obtain ⟨rfl, hsuffix⟩ := List.append_inj' heq rfl
    have hparent : p = x.parent := BitVec.eq_of_toNat_eq (h _ _ w hp (hx.trans he) hw hstr)
    rw [hr, hparent, List.singleton_inj.1 hsuffix]
    exact ⟨h256, rfl⟩
  · rintro ⟨h256, hr⟩
    obtain ⟨x, hx, hlt⟩ := hk e h256 he
    cases hr.symm.trans hx
    exact .entry e _ w h256 hr hlt hw

/-- An insert of a pair that no entry holds keeps the keys distinct (R96). -/
theorem DistinctKeys.write {m : Memory} {n : Nat} {p : Word} {s : Sym} (h : DistinctKeys m n) (hk : Known m n)
    (hn : 256 ≤ n) (hp : p.toNat < n) (hnew : ¬ HasPair m n p s) :
    DistinctKeys (Memory.write m n { parent := p, suffix := s }) (n + 1) := by
  obtain ⟨w, hw⟩ := Denotes.exists hk hp
  have hne : ∀ c str, c < n → Denotes (Memory.write m n { parent := p, suffix := s }) c str →
      ¬ Denotes (Memory.write m n { parent := p, suffix := s }) n str := by
    intro c str hc hd hdn
    obtain rfl := hdn.unique (.written hn hp hw)
    obtain ⟨h256, hr⟩ := (h.denotes_concat_iff hk hp hw hc).1 (hd.of_write hc)
    exact hnew ⟨c, h256, hc, hr⟩
  intro c c' str hc hc' hd hd'
  rcases Nat.lt_succ_iff_lt_or_eq.1 hc with hlt | rfl <;> rcases Nat.lt_succ_iff_lt_or_eq.1 hc' with hlt' | rfl
  · exact h c c' str hlt hlt' (hd.of_write hlt) (hd'.of_write hlt')
  · exact absurd hd' (hne c str hlt hd)
  · exact absurd hd (hne c' str hlt' hd')
  · rfl

/-- `EncStep` inserts only where its search found nothing, so it keeps the keys distinct (R121, R96). -/
theorem encStepRel_distinctKeys {depth : Nat} {c : Sym} {b b' : Block} (h : CoreInv depth b)
    (hk : DistinctKeys b.dmem b.nextCode.toNat) (hr : EncStepRel depth c b b') : DistinctKeys b'.dmem b'.nextCode.toNat := by
  cases hr with
  | start => exact hk
  | hit => exact hk
  | miss _ hnew hd =>
    simp only [nextCode_add_one h.depth_legal.2 (lt_of_le_of_ne h.next_range.2 hd)]
    exact hk.write h.entries h.next_range.1 h.w_known hnew

theorem KeysDistinct.of_not_encoding {s : State} (h : ¬ Encoding s.toBlock) : KeysDistinct s := fun he => absurd he h

theorem KeysDistinct.of_idle {s : State} (h : s.mode = .idle) : KeysDistinct s := .of_not_encoding (by simp [Encoding, h])

theorem KeysDistinct.of_error {s : State} (h : s.mode = .error) : KeysDistinct s := .of_not_encoding (by simp [Encoding, h])

theorem KeysDistinct.of_decoding {s : State} (h : Decoding s.toBlock) : KeysDistinct s :=
  .of_not_encoding (by rcases h with h | h <;> simp [Encoding, h])

/-- A BEGIN leaves the seeds only (R90). -/
theorem KeysDistinct.of_seeds {s : State} (h : s.nextCode = 256) : KeysDistinct s := fun _ => by
  rw [h]
  exact distinctKeys_seeds _

/-- Distinct keys speak of the mode, the memory and `NEXT_CODE` only. -/
theorem KeysDistinct.congr {s t : State} (h : KeysDistinct s) (hm : t.mode = s.mode) (hd : t.dmem = s.dmem)
    (hn : t.nextCode = s.nextCode) : KeysDistinct t := by
  rw [keysDistinct_iff, Encoding, hm, hd, hn]
  exact h

theorem KeysDistinct.inOperation {m : Mode} {op : BitVec 8} {x : Word} {body : Block → Res Block} {s t : State}
    (h : KeysDistinct s) (ht : inOperation m op x body s = .next t)
    (hok : ∀ b, s.mode = m → body s.toBlock = .ok b → KeysDistinct (withBlock s b)) : KeysDistinct t := by
  rcases inOperation_cases ht with ⟨-, rfl⟩ | ⟨-, -, rfl⟩ | ⟨-, hm, b, hb, rfl⟩ | ⟨-, -, e, a, -, rfl⟩
  · exact h
  · exact .of_error rfl
  · exact hok b hm hb
  · exact .of_error rfl

theorem KeysDistinct.beginOperation {op : BitVec 8} {x : Word} {body : Block → Block} {s t : State}
    (ht : beginOperation op x body s = .next t) (hbody : (body s.toBlock).nextCode = 256) : KeysDistinct t := by
  rcases beginOperation_cases ht with ⟨-, rfl⟩ | ⟨-, -, rfl⟩
  · exact .of_seeds hbody
  · exact .of_error rfl

theorem KeysDistinct.eSymBody {s : State} {c : Word} {b : Block} (h : KeysDistinct s) (hi : Inv s) (hm : s.mode = .enc)
    (hb : eSymBody s.cfg.dictDepth c s.toBlock = .ok b) : KeysDistinct (withBlock s b) := by
  unfold Machine.eSymBody at hb
  split_ifs at hb
  have hcore := CoreInv.of_inv hi
  exact fun _ => encStepRel_distinctKeys hcore (h (.inl hm)) ((encStep_eq_ok_iff hcore _ _).1 hb)

theorem KeysDistinct.pPixBody {s : State} {v : Word} {b : Block} (h : KeysDistinct s) (hi : Inv s) (hm : s.mode = .penc)
    (hb : pPixBody s.cfg.dictDepth v s.toBlock = .ok b) : KeysDistinct (withBlock s b) := by
  unfold Machine.pPixBody at hb
  split_ifs at hb
  obtain ⟨b', hs, rfl⟩ := Res.map_eq_ok hb
  have hkeys : DistinctKeys b'.dmem b'.nextCode.toNat := encSteps_keeps (P := fun b => DistinctKeys b.dmem b.nextCode.toNat)
    (fun _ _ _ => encStepRel_distinctKeys) (CoreInv.of_inv hi) (h (.inr hm)) hs
  exact fun _ => hkeys

/-- A decode operation stays one, and R96 does not speak of it (R99). -/
theorem keysDistinct_dCodeBody {s : State} {depth : Nat} {k : Word} {b : Block} (hm : s.mode = .dec)
    (hb : dCodeBody depth k s.toBlock = .ok b) : KeysDistinct (withBlock s b) := by
  obtain ⟨⟨b', str⟩, hd, rfl⟩ := Res.map_eq_ok hb
  obtain ⟨_, _, _, _, rfl⟩ := decStep_frame hd
  exact .of_decoding (.inl hm)

theorem keysDistinct_pdCodeBody {s : State} {depth : Nat} {k : Word} {b : Block} (hm : s.mode = .pdec)
    (hb : pdCodeBody depth k s.toBlock = .ok b) : KeysDistinct (withBlock s b) := by
  obtain ⟨⟨b', str⟩, hd, rfl⟩ := Res.map_eq_ok hb
  obtain ⟨_, _, _, _, rfl⟩ := decStep_frame hd
  obtain ⟨_, _, _, _, hpush⟩ := digitPushes_frame str _
  rw [hpush]
  exact .of_decoding (.inr hm)

theorem KeysDistinct.exec {i : Instr} {s t : State} (h : KeysDistinct s) (hi : Inv s) (ht : exec i s = .next t) :
    KeysDistinct t := by
  cases i with
  | nop =>
    cases ht
    exact h
  | eBegin | dBegin | pBegin | pdBegin => exact .beginOperation ht rfl
  | eSym c => exact h.inOperation ht fun _ => h.eSymBody hi
  | pPix v => exact h.inOperation ht fun _ => h.pPixBody hi
  | dCode k => exact h.inOperation ht fun _ => keysDistinct_dCodeBody
  | pdCode k => exact h.inOperation ht fun _ => keysDistinct_pdCodeBody
  | eEnd =>
    refine h.inOperation (body := fun b => .ok (Machine.eEndBody b)) ht ?_
    rintro _ - ⟨⟩
    exact .of_idle rfl
  | pEnd =>
    refine h.inOperation (body := fun b => .ok (Machine.pEndBody b)) ht ?_
    rintro _ - ⟨⟩
    exact .of_idle rfl
  | dEnd =>
    refine h.inOperation ht fun b _ hb => ?_
    rw [dEndBody_eq_ok hb]
    exact .of_idle rfl
  | pdEnd =>
    refine h.inOperation ht fun b _ hb => ?_
    obtain ⟨-, -, rfl⟩ := pdEndBody_eq_ok hb
    exact .of_idle rfl

theorem KeysDistinct.execWord {cmd : Cmd} {s t : State} (h : KeysDistinct s) (hi : Inv s)
    (ht : execWord cmd s = .next t) : KeysDistinct t := by
  unfold Machine.execWord at ht
  split at ht
  · exact h.exec hi ht
  · unfold illegalWord at ht
    split_ifs at ht
    · cases ht
      exact h
    · cases ht
      exact .of_error rfl

theorem KeysDistinct.drainStep {s : State} (h : KeysDistinct s) : KeysDistinct (drainStep s) := by
  unfold Machine.drainStep drainBlock
  split_ifs
  · exact h.congr rfl rfl rfl
  · exact h

theorem KeysDistinct.step {s t : State} (h : KeysDistinct s) (hi : Inv s) (ht : step s = .next t) : KeysDistinct t := by
  have hrest (rest : List Event) : KeysDistinct { s with agenda := rest } := h.congr rfl rfl rfl
  change agendaStep s = .next t at ht
  unfold agendaStep at ht
  split at ht
  · cases ht
    exact h.drainStep
  · rename_i cmd rest _
    unfold issueStep at ht
    split_ifs at ht
    · exact (hrest rest).execWord (hi.of_block rfl rfl) ht
    · cases ht
      exact h.drainStep
  · cases ht
    exact (hrest _).drainStep
  · cases ht
    exact h.congr rfl rfl rfl
  · cases ht
    exact h.congr rfl rfl rfl
  · cases ht
    exact .of_idle rfl

end Sys2Proof.Safety

namespace Sys2Proof.Proofs

open Sys2Proof.Machine Sys2Proof.Safety

/-- Settles O52: a BEGIN leaves the seeds alone, `EncStep` inserts only a pair its search did not find, and no other step touches
an encode operation's keys. -/
theorem encoderKeysStayDistinct : Obligations.EncoderKeysStayDistinct := fun _ _ hi h ht => h.step hi ht

/-- Settles O41: the bounds along the parents, and `c < NEXT_CODE <= DICT_DEPTH`. -/
theorem entryLengths : Obligations.EntryLengths := by
  intro s c str h hc hd
  obtain ⟨hseed, hentry⟩ := hd.length_bounds
  refine ⟨hseed, fun h256 => ?_⟩
  obtain ⟨hlow, hhigh⟩ := hentry h256
  have hnext := h.next_range.2
  exact ⟨hlow, hhigh, hhigh.trans (show c - 254 ≤ s.cfg.dictDepth - 255 by omega)⟩

/-- Settles O42: a key's string and its entry's pair decide each other, and an initial part of it belongs to an ancestor. -/
theorem keyLookupByPair : Obligations.KeyLookupByPair := by
  intro s p w c h hkeys henc hp hw
  have hdistinct : DistinctKeys s.dmem s.nextCode.toNat := hkeys henc
  have hword : (BitVec.ofNat 32 p).toNat = p := by
    rw [BitVec.toNat_ofNat, Nat.mod_eq_of_lt (hp.trans s.nextCode.isLt)]
  have hpair : ∀ e, e < s.nextCode.toNat → (Denotes s.dmem e (w ++ [c]) ↔
      256 ≤ e ∧ Memory.read s.dmem e = some { parent := BitVec.ofNat 32 p, suffix := c }) := fun e he =>
    hdistinct.denotes_concat_iff h.entries (hword.symm ▸ hp) (hword.symm ▸ hw) he
  refine ⟨⟨?_, ?_⟩, fun pre hne hpre => ?_⟩
  · rintro ⟨e, he, hd⟩
    obtain ⟨h256, hr⟩ := (hpair e he).1 hd
    exact ⟨e, ⟨h256, he, hr⟩, fun e' ⟨h256', he', hr'⟩ =>
      hdistinct e' e _ he' he ((hpair e' he').2 ⟨h256', hr'⟩) hd⟩
  · rintro ⟨e, ⟨h256, he, hr⟩, -⟩
    exact ⟨e, he, (hpair e he).2 ⟨h256, hr⟩⟩
  · obtain ⟨e, he, hd⟩ := hw.exists_of_isPrefix hne hpre
    exact ⟨e, lt_of_le_of_lt he hp, hd⟩

end Sys2Proof.Proofs
end

section
/-!
The growth of the dictionary (40_dictionary.md): an insert (R93), the growth states (R94), and how far a command moves `NEXT_CODE` and
what it writes (R95).
-/

namespace Sys2Proof.Machine

open Sys2Proof.Safety

/-! ### The growth states (R94) -/

theorem growth_eq_full_iff (depth : Nat) (b : Block) : growth depth b = .full ↔ b.nextCode.toNat = depth := by
  unfold growth
  split_ifs with hfull hseed
  · exact iff_of_true rfl hfull
  · exact iff_of_false nofun hfull
  · exact iff_of_false nofun hfull

theorem growth_eq_seed_iff (depth : Nat) (b : Block) :
    growth depth b = .seed ↔ b.nextCode.toNat ≠ depth ∧ b.nextCode.toNat = 256 := by
  unfold growth
  split_ifs with hfull hseed
  · exact iff_of_false nofun fun h => h.1 hfull
  · exact iff_of_true rfl ⟨hfull, hseed⟩
  · exact iff_of_false nofun fun h => hseed h.2

theorem growth_eq_growing_iff (depth : Nat) (b : Block) :
    growth depth b = .growing ↔ b.nextCode.toNat ≠ depth ∧ b.nextCode.toNat ≠ 256 := by
  unfold growth
  split_ifs with hfull hseed
  · exact iff_of_false nofun fun h => h.1 hfull
  · exact iff_of_false nofun fun h => h.2 hseed
  · exact iff_of_true rfl ⟨hfull, hseed⟩

/-! ### How far a command grows the dictionary (R95) -/

/-- `NEXT_CODE` rises by at most `n`, and only entries from the old `NEXT_CODE` up to the new one are written. -/
structure Grows (n : Nat) (b b' : Block) : Prop where
  le : b.nextCode.toNat ≤ b'.nextCode.toNat
  le_add : b'.nextCode.toNat ≤ b.nextCode.toNat + n
  read_eq : ∀ c, c < b.nextCode.toNat ∨ b'.nextCode.toNat ≤ c → Memory.read b'.dmem c = Memory.read b.dmem c

theorem Grows.of_eq {n : Nat} {b b' : Block} (hn : b'.nextCode = b.nextCode) (hm : b'.dmem = b.dmem) : Grows n b b' where
  le := by rw [hn]
  le_add := by
    rw [hn]
    exact Nat.le_add_right _ n
  read_eq c _ := by rw [hm]

theorem Grows.trans {n k : Nat} {b b' b'' : Block} (h : Grows n b b') (h' : Grows k b' b'') : Grows (n + k) b b'' where
  le := h.le.trans h'.le
  le_add := by
    have := h.le_add
    have := h'.le_add
    omega
  read_eq c hc := (h'.read_eq c (hc.imp_left (·.trans_le h.le))).trans (h.read_eq c (hc.imp_right h'.le.trans))

theorem Grows.mono {n k : Nat} {b b' : Block} (h : Grows n b b') (hk : n ≤ k) : Grows k b b' :=
  { h with le_add := h.le_add.trans (Nat.add_le_add_left hk _) }

/-- A change of the other registers does not touch the dictionary. -/
theorem Grows.congr_right {n : Nat} {b b' b'' : Block} (h : Grows n b b') (hn : b''.nextCode = b'.nextCode)
    (hm : b''.dmem = b'.dmem) : Grows n b b'' := h.trans (.of_eq (n := 0) hn hm)

/-- One insert below capacity (R93). -/
theorem Grows.insert {depth : Nat} {b b' : Block} {e : Entry} (hd : depth ≤ 2 ^ 32 - 2) (hlt : b.nextCode.toNat < depth)
    (hn : b'.nextCode = b.nextCode + 1) (hm : b'.dmem = Memory.write b.dmem b.nextCode.toNat e) : Grows 1 b b' := by
  have hadd : b'.nextCode.toNat = b.nextCode.toNat + 1 := hn ▸ nextCode_add_one hd hlt
  refine ⟨by omega, by omega, fun c hc => ?_⟩
  rw [hm, Memory.read_write_other _ _ _ _ (by omega)]

theorem encStepRel_grows {depth : Nat} {c : Sym} {b b' : Block} (h : CoreInv depth b) (hr : EncStepRel depth c b b') :
    Grows 1 b b' := by
  cases hr with
  | start => exact .of_eq rfl rfl
  | hit => exact .of_eq rfl rfl
  | miss _ _ hd => exact .insert h.depth_legal.2 (lt_of_le_of_ne h.next_range.2 hd) rfl rfl

/-- Each symbol of a string makes at most one insert (R161). -/
theorem encSteps_grows {depth : Nat} {operand : Word} {cs : Str} {b b' : Block} (h : CoreInv depth b)
    (he : encSteps depth operand cs b = .ok b') : Grows cs.length b b' := by
  induction cs generalizing b with
  | nil =>
    cases he
    exact .of_eq rfl rfl
  | cons c cs ih =>
    obtain ⟨b1, h1, h2⟩ := Res.bind_eq_ok he
    have hr := (encStep_eq_ok_iff h operand c).1 h1
    rw [List.length_cons, Nat.add_comm]
    exact (encStepRel_grows h hr).trans (ih (encStepRel_coreInv h hr) h2)

/-- The first code makes no insert, a later one exactly one (R141). -/
theorem decStep_grows {depth : Nat} {k : Word} {b b' : Block} {str : Str} (h : CoreInv depth b)
    (hd : decStep depth k b = .ok (b', str)) : Grows 1 b b' := by
  cases hf : b.firstSeen with
  | false =>
    rw [decStep_first hf] at hd
    split_ifs at hd
    cases hd
    exact .of_eq rfl rfl
  | true =>
    by_cases hk : k.toNat ≤ b.nextCode.toNat
    · rcases decStep_later h hf hk with ⟨-, he⟩ | ⟨hlt, _, _, _, -, -, -, -, -, he⟩
      · cases he.symm.trans hd
      · cases he.symm.trans hd
        exact .insert h.depth_legal.2 hlt rfl rfl
    · cases (decStep_corrupt hf (Nat.not_le.1 hk)).symm.trans hd

theorem eSymBody_grows {depth : Nat} {c : Word} {b b' : Block} (h : CoreInv depth b) (hb : eSymBody depth c b = .ok b') :
    Grows 1 b b' := by
  unfold eSymBody at hb
  split_ifs at hb
  exact encStepRel_grows h ((encStep_eq_ok_iff h _ _).1 hb)

theorem pPixBody_grows {depth : Nat} {v : Word} {b b' : Block} (h : CoreInv depth b) (hb : pPixBody depth v b = .ok b') :
    Grows 3 b b' := by
  unfold pPixBody at hb
  split_ifs at hb
  obtain ⟨b1, hs, rfl⟩ := Res.map_eq_ok hb
  exact (encSteps_grows h hs).congr_right rfl rfl

theorem dCodeBody_grows {depth : Nat} {k : Word} {b b' : Block} (h : CoreInv depth b) (hb : dCodeBody depth k b = .ok b') :
    Grows 1 b b' := by
  obtain ⟨⟨b1, str⟩, hd, rfl⟩ := Res.map_eq_ok hb
  exact (decStep_grows h hd).congr_right rfl rfl

theorem pdCodeBody_grows {depth : Nat} {k : Word} {b b' : Block} (h : CoreInv depth b)
    (hb : pdCodeBody depth k b = .ok b') : Grows 1 b b' := by
  obtain ⟨⟨b1, str⟩, hd, rfl⟩ := Res.map_eq_ok hb
  obtain ⟨_, _, _, _, hpush⟩ := digitPushes_frame str b1
  rw [hpush]
  exact (decStep_grows h hd).congr_right rfl rfl

theorem encodeEnd_grows (n : Nat) (b : Block) : Grows n b { encFlush b with mode := .idle } := by
  rw [encFlush_eq]
  exact .of_eq rfl rfl

theorem inOperation_grows {n : Nat} {m : Mode} {op : BitVec 8} {x : Word} {body : Block → Res Block} {s t : State}
    (ht : inOperation m op x body s = .next t) (hok : ∀ b, body s.toBlock = .ok b → Grows n s.toBlock b) :
    Grows n s.toBlock t.toBlock := by
  rcases inOperation_cases ht with ⟨-, rfl⟩ | ⟨-, -, rfl⟩ | ⟨-, -, b, hb, rfl⟩ | ⟨-, -, e, a, -, rfl⟩
  · exact .of_eq rfl rfl
  · exact .of_eq rfl rfl
  · exact hok b hb
  · exact .of_eq rfl rfl

/-- A command that is no BEGIN assigns at most three new codes: `P_PIX` one per digit, every other at most one. -/
theorem exec_grows {i : Instr} {s t : State} (h : Inv s) (ht : exec i s = .next t) (hb : isBegin i = false) :
    Grows 3 s.toBlock t.toBlock := by
  have hcore := CoreInv.of_inv h
  cases i with
  | eBegin | dBegin | pBegin | pdBegin => cases hb
  | nop =>
    cases ht
    exact .of_eq rfl rfl
  | eSym c => exact inOperation_grows ht fun b hb => (eSymBody_grows hcore hb).mono (by decide)
  | pPix v => exact inOperation_grows ht fun b hb => pPixBody_grows hcore hb
  | dCode k => exact inOperation_grows ht fun b hb => (dCodeBody_grows hcore hb).mono (by decide)
  | pdCode k => exact inOperation_grows ht fun b hb => (pdCodeBody_grows hcore hb).mono (by decide)
  | eEnd =>
    refine inOperation_grows (body := fun b => .ok (eEndBody b)) ht ?_
    rintro _ ⟨⟩
    exact encodeEnd_grows 3 _
  | pEnd =>
    refine inOperation_grows (body := fun b => .ok (pEndBody b)) ht ?_
    rintro _ ⟨⟩
    exact encodeEnd_grows 3 _
  | dEnd =>
    refine inOperation_grows ht fun b hb => ?_
    rw [dEndBody_eq_ok hb]
    exact .of_eq rfl rfl
  | pdEnd =>
    refine inOperation_grows ht fun b hb => ?_
    obtain ⟨-, -, rfl⟩ := pdEndBody_eq_ok hb
    exact .of_eq rfl rfl

/-! ### No command writes the parameters (R5) -/

theorem inOperation_cfg {m : Mode} {op : BitVec 8} {x : Word} {body : Block → Res Block} {s t : State}
    (ht : inOperation m op x body s = .next t) : t.cfg = s.cfg := by
  rcases inOperation_cases ht with ⟨-, rfl⟩ | ⟨-, -, rfl⟩ | ⟨-, -, b, -, rfl⟩ | ⟨-, -, e, a, -, rfl⟩
  · rfl
  · rfl
  · rfl
  · rfl

theorem beginOperation_cfg {op : BitVec 8} {x : Word} {body : Block → Block} {s t : State}
    (ht : beginOperation op x body s = .next t) : t.cfg = s.cfg := by
  rcases beginOperation_cases ht with ⟨-, rfl⟩ | ⟨-, -, rfl⟩
  · rfl
  · rfl

theorem exec_cfg {i : Instr} {s t : State} (ht : exec i s = .next t) : t.cfg = s.cfg := by
  cases i with
  | nop =>
    cases ht
    rfl
  | eBegin | dBegin | pBegin | pdBegin => exact beginOperation_cfg ht
  | eSym | dCode | dEnd | pPix | pdCode | pdEnd => exact inOperation_cfg ht
  | eEnd => exact inOperation_cfg (body := fun b => .ok (eEndBody b)) ht
  | pEnd => exact inOperation_cfg (body := fun b => .ok (pEndBody b)) ht

end Sys2Proof.Machine

namespace Sys2Proof.Proofs

open Sys2Proof.Machine Sys2Proof.Safety

/-- Settles O38: the two ends of `DictInsert`, and the new entry's string from its parent's. -/
theorem insertAssignsTheNextCode : Obligations.InsertAssignsTheNextCode := by
  intro depth operand p c b hdepth h256
  refine ⟨dictInsert_of_full, fun hlt => ⟨_, dictInsert_of_not_full h256 hlt, nextCode_add_one hdepth hlt,
    Memory.read_write_same _ _ _, fun a ha => Memory.read_write_other _ _ _ _ ha, fun str hp hd => .written h256 hp hd, rfl⟩⟩

/-- Settles O39: the three states by the range of `NEXT_CODE`, an insert by its two ends, and `exec_grows` for the commands. -/
theorem growthStates : Obligations.GrowthStates := by
  refine ⟨fun s h => ?_, fun s operand p c h => ?_, fun i s t h ht hb => ?_⟩
  · have hrange := h.next_range
    rw [growth_eq_full_iff, growth_eq_seed_iff, growth_eq_growing_iff]
    exact ⟨Iff.rfl, by omega, by omega⟩
  · have hrange := h.next_range
    rw [ne_eq, growth_eq_full_iff]
    refine ⟨⟨dictInsert_of_full, fun hr => (dictInsert_eq_raise hr).1⟩, fun hfull => ?_⟩
    have hlt := lt_of_le_of_ne hrange.2 hfull
    refine ⟨_, dictInsert_of_not_full hrange.1 hlt, ?_⟩
    rw [growth_eq_full_iff, ne_eq, growth_eq_seed_iff, nextCode_add_one h.cfg_legal.2.1 hlt]
    exact ⟨Iff.rfl, by omega⟩
  · have hle := (exec_grows h ht hb).le
    have hdepth := (h.exec ht).next_range.2
    rw [growth_eq_full_iff, growth_eq_full_iff]
    rw [exec_cfg ht] at hdepth ⊢
    exact ⟨hle, fun hfull => le_antisymm hdepth (hfull ▸ hle)⟩

/-- Settles O40: `exec_grows`, and the invariant after the command, which has every known entry written. -/
theorem codesAssignedInOrder : Obligations.CodesAssignedInOrder := by
  intro i s t h ht hb
  have hg := exec_grows h ht hb
  refine ⟨hg.le, hg.le_add, fun c hc => hg.read_eq c (.inl hc), fun c h1 h2 hnone => ?_⟩
  obtain ⟨e, hr, -⟩ := (h.exec ht).entries c (h.next_range.1.trans h1) h2
  cases hnone.symm.trans hr

end Sys2Proof.Proofs
end

section
/-!
Control (41_control.md): what each event at the head of the agenda does (R110, R114, R115, R117), accepting a word (R111), the BEGIN
commands (R119) and the mode FSM (R112).
-/

namespace Sys2Proof.Machine

open Sys2Proof.Safety

/-! ### One step, by what stands on the agenda (R110) -/

theorem step_of_agenda_nil {s : State} (h : s.agenda = []) : step s = .next (drainStep s) := by
  rw [step, agendaStep, h]

theorem step_of_drain {s : State} {rest : List Event} (h : s.agenda = .drain :: rest) :
    step s = .next (drainStep { s with agenda := rest }) := by
  rw [step, agendaStep, h]

theorem step_of_pop {s : State} {rest : List Event} (h : s.agenda = .pop :: rest) :
    step s = .next (popStep { s with agenda := rest }) := by
  rw [step, agendaStep, h]

theorem step_of_read {s : State} {raddr : BitVec 3} {rest : List Event} (h : s.agenda = .read raddr :: rest) :
    step s = .next (readStep raddr { s with agenda := rest }) := by
  rw [step, agendaStep, h]

/-- With `READY` the word at the head of the channel is accepted. -/
theorem step_of_issue_ready {s : State} {cmd : Cmd} {rest : List Event} (h : s.agenda = .issue cmd :: rest)
    (hp : s.pend = []) : step s = execWord cmd { s with agenda := rest } := by
  rw [step, agendaStep, h]
  exact if_pos ((ready_iff s.toBlock).2 hp)

/-- A word placed on a `READY` block is accepted by the very next step, which leaves the agenda as it was. -/
theorem step_withFetchWord {s : State} (w : Nat) (hp : s.pend = []) :
    step (s.withFetchWord 40 w) = execWord (BitVec.ofNat 40 w) s := by
  have hplaced : s.withFetchWord 40 w = { s with agenda := .issue (BitVec.ofNat 40 w) :: s.agenda } := by
    have hword : BitVec.ofNat 40 (w % 2 ^ 40) = BitVec.ofNat 40 w := by
      apply BitVec.eq_of_toNat_eq
      rw [BitVec.toNat_ofNat, BitVec.toNat_ofNat, Nat.mod_mod]
    rw [State.withFetchWord, presentWord, if_pos ((ready_iff s.toBlock).2 hp), hword]
  rw [hplaced]
  exact step_of_issue_ready rfl hp

/-! ### Drain (R114) -/

theorem drainStep_of_enabled {s : State} {item : Item} {items : List Item} (hp : s.pend = item :: items)
    (hroom : s.outq.length < s.cfg.outDepth) : drainStep s = { s with outq := s.outq ++ [item], pend := items } := by
  simp [drainStep, drainBlock, drainEnabled, withBlock, hp, hroom]

/-- Where `drain` is disabled the block holds its state (R225, R235). -/
theorem drainStep_of_disabled {s : State} (h : s.pend = [] ∨ s.cfg.outDepth ≤ s.outq.length) : drainStep s = s := by
  have hoff : ¬ drainEnabled s.cfg s.toBlock = true := by
    simpa [drainEnabled, ← or_iff_not_imp_left] using h
  rw [drainStep, drainBlock, if_neg hoff, withBlock_self]

theorem run_succ_of_step {M : Host.Core} {s t : M.State} (n : Nat) (h : M.step s = .next t) : M.run (n + 1) s = M.run n t := by
  rw [Host.Core.run, h]

/-- With no event to come each step drains one item, as long as `PEND` and the room in `OUTQ` last (R241). -/
theorem run_drains {s : State} {n : Nat} (ha : s.agenda = []) (hn : n ≤ s.pend.length)
    (hroom : s.outq.length + n ≤ s.cfg.outDepth) :
    core.run n s = .next { s with outq := s.outq ++ s.pend.take n, pend := s.pend.drop n } := by
  induction n generalizing s with
  | zero => simp [Host.Core.run]
  | succ n ih =>
    obtain ⟨item, items, hp⟩ := List.exists_cons_of_length_pos (Nat.zero_lt_of_lt hn)
    have hitems : n ≤ items.length := by
      rw [hp, List.length_cons] at hn
      exact Nat.le_of_succ_le_succ hn
    have hspace : (s.outq ++ [item]).length + n ≤ s.cfg.outDepth := by
      rw [List.length_append, List.length_singleton]
      omega
    rw [run_succ_of_step (M := core) n (step_of_agenda_nil ha), drainStep_of_enabled hp (by omega), ih]
    · simp [hp]
    · exact ha
    · exact hitems
    · exact hspace

/-! ### Pop (R115) -/

theorem popStep_of_cons {s : State} {item : Item} {items : List Item} (h : s.outq = item :: items) :
    popStep s = { s with outq := items, taken := s.taken ++ [item] } := by
  rw [popStep, h]
  rfl

theorem popStep_of_nil {s : State} (h : s.outq = []) : popStep s = s := by
  have hdrop : s.outq.drop 1 = s.outq := by rw [h, List.drop_nil]
  have htaken : s.taken ++ s.outq.take 1 = s.taken := by rw [h, List.take_nil, List.append_nil]
  rw [popStep, hdrop, htaken]

/-! ### Accepting a word (R111, R211) -/

theorem execWord_of_decode {cmd : Cmd} {i : Instr} (h : decode cmd = .ok i) (s : State) : execWord cmd s = exec i s := by
  rw [execWord, h]

/-- An illegal word is dropped in `ERROR`. -/
theorem execWord_illegal_of_error {cmd : Cmd} {s : State} (hl : legal cmd = false) (hm : s.mode = .error) :
    execWord cmd s = .next s := by
  rw [execWord_of_illegal hl, illegalWord, if_pos hm]

/-- An illegal word takes the error entry outside `ERROR`. -/
theorem execWord_illegal_of_ne_error {cmd : Cmd} {s : State} (hl : legal cmd = false) (hm : s.mode ≠ .error) :
    execWord cmd s = .next (raiseError .illegalCommand (cmdOpcode cmd) (cmdOperand cmd) s) := by
  rw [execWord_of_illegal hl, illegalWord, if_neg hm]

/-- `NOP` has form `NONE`, so its operand must be 0 (R73). -/
theorem legal_nop_operand {x : Word} (hx : x ≠ 0) : legal (0x00#8 ++ x) = false := by
  rw [legal_eq_false_iff, Laws.EncodedFields.cmdOpcode_append, Laws.EncodedFields.cmdOperand_append]
  exact .inr ⟨rfl, hx⟩

/-! ### The BEGIN commands (R119) -/

theorem beginOperation_of_legal {op : BitVec 8} {x : Word} {body : Block → Block} {s : State}
    (h : s.mode = .idle ∨ s.mode = .error) : beginOperation op x body s = .next (withBlock s (body s.toBlock)) := if_pos h

/-- `DMEM`, `PEND` and `OUTQ` are the same in both blocks. -/
def SameStores (b b' : Block) : Prop := b'.dmem = b.dmem ∧ b'.pend = b.pend ∧ b'.outq = b.outq

theorem SameStores.refl (b : Block) : SameStores b b := ⟨rfl, rfl, rfl⟩

theorem beginOperation_sameStores {op : BitVec 8} {x : Word} {body : Block → Block} {s t : State}
    (ht : beginOperation op x body s = .next t) (hbody : SameStores s.toBlock (body s.toBlock)) :
    SameStores s.toBlock t.toBlock := by
  rcases beginOperation_cases ht with ⟨-, rfl⟩ | ⟨-, -, rfl⟩
  · exact hbody
  · exact .refl _

theorem exec_begin_sameStores {i : Instr} {s t : State} (ht : exec i s = .next t) (hb : isBegin i = true) :
    SameStores s.toBlock t.toBlock := by
  cases i with
  | eBegin | dBegin | pBegin | pdBegin => exact beginOperation_sameStores ht (.refl _)
  | nop | eSym | eEnd | dCode | dEnd | pPix | pEnd | pdCode | pdEnd => cases hb

/-! ### How a procedure ends, in every block -/

/-- Where a procedure completes its value has `P`, and where it raises the error is one of `es`; no invariant is asked for. -/
structure Res.Ends {α : Type} (P : α → Prop) (es : List ErrCode) (r : Res α) : Prop where
  ok : ∀ a, r = .ok a → P a
  raise : ∀ e x, r = .raise e x → e ∈ es

section Ends

variable {α β : Type} {P : α → Prop} {Q : β → Prop} {es es' : List ErrCode}

theorem Res.Ends.of_ok {a : α} (h : P a) : (Res.ok a).Ends P es := ⟨fun _ ha => by cases ha; exact h, nofun⟩

theorem Res.Ends.of_raise {e : ErrCode} {x : Word} (h : e ∈ es) : (Res.raise e x).Ends P es :=
  ⟨nofun, fun _ _ he => by cases he; exact h⟩

theorem Res.Ends.of_fault (f : Fault) : (Res.fault f).Ends P es := ⟨nofun, nofun⟩

theorem Res.Ends.mono {r : Res α} (h : r.Ends P es) (hes : es ⊆ es') : r.Ends P es' := ⟨h.ok, fun e x he => hes (h.raise e x he)⟩

theorem Res.Ends.bind {r : Res α} {f : α → Res β} (h : r.Ends P es) (hf : ∀ a, P a → (f a).Ends Q es) : (r.bind f).Ends Q es := by
  constructor
  · intro b hb
    obtain ⟨a, ha, hfa⟩ := Res.bind_eq_ok hb
    exact (hf a (h.ok a ha)).ok b hfa
  · intro e x he
    rcases Res.bind_eq_raise he with hr | ⟨a, ha, hfa⟩
    · exact h.raise e x hr
    · exact (hf a (h.ok a ha)).raise e x hfa

theorem Res.Ends.map {r : Res α} {f : α → β} (h : r.Ends P es) (hf : ∀ a, P a → Q (f a)) : (r.map f).Ends Q es := by
  constructor
  · intro b hb
    obtain ⟨a, ha, rfl⟩ := Res.map_eq_ok hb
    exact hf a (h.ok a ha)
  · exact fun e x he => h.raise e x (Res.map_eq_raise he)

end Ends

/-- The procedure raises nothing. -/
abbrev Res.NoRaise {α : Type} (r : Res α) : Prop := r.Ends (fun _ => True) []

theorem dmemRead_noRaise (m : Memory) (c : Nat) : (dmemRead m c).NoRaise := by
  unfold dmemRead
  split
  · exact .of_ok trivial
  · exact .of_fault _

theorem dictFirstFuel_noRaise (m : Memory) (fuel c : Nat) : (dictFirstFuel m fuel c).NoRaise := by
  induction fuel generalizing c with
  | zero => exact .of_fault _
  | succ fuel ih =>
    unfold dictFirstFuel
    split_ifs
    · exact .of_ok trivial
    · refine (dmemRead_noRaise m c).bind fun e _ => ?_
      split_ifs
      · exact ih _
      · exact .of_fault _

theorem dictStrFuel_noRaise (m : Memory) (fuel c : Nat) : (dictStrFuel m fuel c).NoRaise := by
  induction fuel generalizing c with
  | zero => exact .of_fault _
  | succ fuel ih =>
    unfold dictStrFuel
    split_ifs
    · exact .of_ok trivial
    · refine (dmemRead_noRaise m c).bind fun e _ => ?_
      split_ifs
      · exact (ih _).map fun _ _ => trivial
      · exact .of_fault _

theorem dictFirst_noRaise (m : Memory) (c : Nat) : (dictFirst m c).NoRaise := dictFirstFuel_noRaise m (c + 1) c

theorem dictStr_noRaise (m : Memory) (c : Nat) : (dictStr m c).NoRaise := dictStrFuel_noRaise m (c + 1) c

theorem dictInsert_ends (depth : Nat) (operand p : Word) (s : Sym) (b : Block) :
    (dictInsert depth operand p s b).Ends (fun b' => b'.mode = b.mode) [.dictFull] := by
  constructor
  · intro b' h
    obtain ⟨-, -, rfl⟩ := dictInsert_eq_ok h
    rfl
  · intro e x h
    exact List.mem_singleton.2 (dictInsert_eq_raise h).2.1

theorem encStep_ends (depth : Nat) (operand : Word) (c : Sym) (b : Block) :
    (encStep depth operand c b).Ends (fun b' => b'.mode = b.mode) [.dictFull] := by
  unfold encStep
  split_ifs
  · split
    · exact .of_ok rfl
    · exact (dictInsert_ends depth operand b.wCode c (emit .code b.wCode b)).map fun _ hm => hm
  · exact .of_ok rfl

theorem encSteps_ends (depth : Nat) (operand : Word) (cs : Str) (b : Block) :
    (encSteps depth operand cs b).Ends (fun b' => b'.mode = b.mode) [.dictFull] := by
  induction cs generalizing b with
  | nil => exact .of_ok rfl
  | cons c cs ih => exact (encStep_ends depth operand c b).bind fun b' hm => hm ▸ ih b'

theorem decClassify_ends (k : Word) (b : Block) : (decClassify k b).Ends (fun _ => True) [.corruptStream] := by
  unfold decClassify
  split_ifs
  · exact (dictFirst_noRaise _ _).mono (List.nil_subset _)
  · exact (dictFirst_noRaise _ _).mono (List.nil_subset _)
  · exact .of_raise (List.mem_singleton.2 rfl)

/-- The errors of `DecStep` (R141): `UnknownCodeError` of a first code, the others of a later code. -/
theorem decStep_ends (depth : Nat) (k : Word) (b : Block) :
    (decStep depth k b).Ends (fun r => r.1.mode = b.mode) [.unknownCode, .corruptStream, .dictFull] := by
  unfold decStep
  split_ifs
  · refine ((decClassify_ends k b).mono (by simp)).bind fun f _ => ?_
    refine ((dictInsert_ends depth k b.wCode f b).mono (by simp)).bind fun b' hm => ?_
    exact ((dictStr_noRaise _ _).mono (List.nil_subset _)).map fun _ _ => hm
  · unfold decFirstCode
    split_ifs
    · exact .of_ok rfl
    · exact .of_raise (by simp)

/-! ### How the body of a command ends in its own mode (R112) -/

/-- The mode a command that succeeds in its own mode leaves (R112). -/
def doneMode (i : Instr) : Mode := if isEnd i then .idle else ownMode i

/-- R112 for a command in its own mode: it leaves the mode of `doneMode` or raises one of its own errors. -/
abbrev EndsOwn (i : Instr) (r : Res Block) : Prop := r.Ends (fun b => b.mode = doneMode i) (ownErrors i)

theorem eSymBody_endsOwn (depth : Nat) (c : Word) {b : Block} (hm : b.mode = .enc) : EndsOwn (.eSym c) (eSymBody depth c b) := by
  unfold eSymBody
  split_ifs
  · have henc := (encStep_ends depth c (wordSym c) b).mono (es' := ownErrors (.eSym c)) (by simp [ownErrors])
    rwa [hm] at henc
  · exact .of_raise (by simp [ownErrors])

theorem pPixBody_endsOwn (depth : Nat) (v : Word) {b : Block} (hm : b.mode = .penc) : EndsOwn (.pPix v) (pPixBody depth v b) := by
  unfold pPixBody
  split_ifs
  · exact ((encSteps_ends depth v _ b).mono (by simp [ownErrors])).map fun _ hb => hb.trans hm
  · exact .of_raise (by simp [ownErrors])

theorem dCodeBody_endsOwn (depth : Nat) (k : Word) {b : Block} (hm : b.mode = .dec) : EndsOwn (.dCode k) (dCodeBody depth k b) :=
  (decStep_ends depth k b).map fun _ hr => hr.trans hm

theorem pdCodeBody_endsOwn (depth : Nat) (k : Word) {b : Block} (hm : b.mode = .pdec) :
    EndsOwn (.pdCode k) (pdCodeBody depth k b) := by
  refine (decStep_ends depth k b).map fun r hr => ?_
  obtain ⟨_, _, _, _, hpush⟩ := digitPushes_frame r.2 r.1
  rw [hpush]
  exact hr.trans hm

theorem dEndBody_endsOwn (b : Block) : EndsOwn .dEnd (dEndBody b) := by
  refine ⟨fun b' hb => ?_, fun _ _ => dEndBody_raise⟩
  rw [dEndBody_eq_ok hb]
  rfl

theorem pdEndBody_endsOwn (b : Block) : EndsOwn .pdEnd (pdEndBody b) := by
  refine ⟨fun b' hb => ?_, fun _ _ => pdEndBody_raise⟩
  obtain ⟨-, -, rfl⟩ := pdEndBody_eq_ok hb
  rfl

/-! ### The mode FSM (R112) -/

/-- The values of `MODE` that are never held (R21). -/
theorem modeBits_ne_reserved (m : Mode) : modeBits m ≠ 5 ∧ modeBits m ≠ 6 := by cases m <;> decide

/-- No operation's mode is `ERROR`. -/
theorem ownMode_ne_error (i : Instr) : ownMode i ≠ .error := by cases i <;> nofun

/-- R112's row of a BEGIN command. -/
def BeginRow (i : Instr) (s t : State) : Prop :=
  (s.mode = .idle ∨ s.mode = .error → t.mode = ownMode i) ∧
  (s.mode ≠ .idle → s.mode ≠ .error → t.mode = .error ∧ t.err = .protocol)

/-- R112's row of a stream or END command. -/
def OperationRow (i : Instr) (s t : State) : Prop :=
  (s.mode = .error → t = s) ∧
  (s.mode ≠ .error → s.mode ≠ ownMode i → t.mode = .error ∧ t.err = .protocol) ∧
  (s.mode = ownMode i → t.mode = doneMode i ∨ (t.mode = .error ∧ t.err ∈ ownErrors i))

theorem beginOperation_row {i : Instr} {op : BitVec 8} {x : Word} {body : Block → Block} {s t : State}
    (ht : beginOperation op x body s = .next t) (hbody : (body s.toBlock).mode = ownMode i) : BeginRow i s t := by
  rcases beginOperation_cases ht with ⟨hm, rfl⟩ | ⟨hidle, herr, rfl⟩
  · exact ⟨fun _ => hbody, fun hidle herr => absurd hm (not_or.2 ⟨hidle, herr⟩)⟩
  · exact ⟨fun hm => absurd hm (not_or.2 ⟨hidle, herr⟩), fun _ _ => ⟨rfl, rfl⟩⟩

theorem inOperation_row {i : Instr} {op : BitVec 8} {x : Word} {body : Block → Res Block} {s t : State}
    (ht : inOperation (ownMode i) op x body s = .next t) (hbody : s.mode = ownMode i → EndsOwn i (body s.toBlock)) :
    OperationRow i s t := by
  rcases inOperation_cases ht with ⟨herr, rfl⟩ | ⟨herr, hm, rfl⟩ | ⟨herr, hm, b, hb, rfl⟩ | ⟨herr, hm, e, a, he, rfl⟩
  · exact ⟨fun _ => rfl, fun h => absurd herr h, fun hm => absurd (hm.symm.trans herr) (ownMode_ne_error i)⟩
  · exact ⟨fun h => absurd h herr, fun _ _ => ⟨rfl, rfl⟩, fun h => absurd h hm⟩
  · exact ⟨fun h => absurd h herr, fun _ h => absurd hm h, fun _ => .inl ((hbody hm).ok b hb)⟩
  · exact ⟨fun h => absurd h herr, fun _ h => absurd hm h, fun _ => .inr ⟨rfl, (hbody hm).raise e a he⟩⟩

theorem exec_beginRow {i : Instr} {s t : State} (ht : exec i s = .next t) (hb : isBegin i = true) : BeginRow i s t := by
  cases i with
  | eBegin | dBegin | pBegin | pdBegin => exact beginOperation_row ht rfl
  | nop | eSym | eEnd | dCode | dEnd | pPix | pEnd | pdCode | pdEnd => cases hb

theorem exec_operationRow {i : Instr} {s t : State} (ht : exec i s = .next t) (hb : isBegin i = false) (hn : i ≠ .nop) :
    OperationRow i s t := by
  cases i with
  | nop => exact absurd rfl hn
  | eBegin | dBegin | pBegin | pdBegin => cases hb
  | eSym c => exact inOperation_row (i := .eSym c) ht (eSymBody_endsOwn s.cfg.dictDepth c)
  | eEnd => exact inOperation_row (i := .eEnd) (body := fun b => .ok (eEndBody b)) ht fun _ => .of_ok rfl
  | dCode k => exact inOperation_row (i := .dCode k) ht (dCodeBody_endsOwn s.cfg.dictDepth k)
  | dEnd => exact inOperation_row (i := .dEnd) ht fun _ => dEndBody_endsOwn _
  | pPix v => exact inOperation_row (i := .pPix v) ht (pPixBody_endsOwn s.cfg.dictDepth v)
  | pEnd => exact inOperation_row (i := .pEnd) (body := fun b => .ok (pEndBody b)) ht fun _ => .of_ok rfl
  | pdCode k => exact inOperation_row (i := .pdCode k) ht (pdCodeBody_endsOwn s.cfg.dictDepth k)
  | pdEnd => exact inOperation_row (i := .pdEnd) ht fun _ => pdEndBody_endsOwn _

end Sys2Proof.Machine

namespace Sys2Proof.Proofs

open Sys2Proof.Machine Sys2Proof.Safety

/-- Settles O13: by induction on the number of steps, each of which drains the head of `PEND`. -/
theorem coreDrainsByItself : Obligations.CoreDrainsByItself := by
  refine ⟨fun s n ha hn hroom => run_drains ha hn hroom, fun s ha h => ?_⟩
  rw [step_of_agenda_nil ha, drainStep_of_disabled h]

/-- Settles O16: R112's rows for `NOP`, the BEGINs and all other commands, and its row of an illegal word. -/
theorem modeAfterEveryCommand : Obligations.ModeAfterEveryCommand := by
  refine ⟨fun i s t ht => ?_, fun cmd s t hl ht => ⟨fun hm => ?_, fun hm => ?_⟩⟩
  · refine ⟨?_, fun hb => (exec_beginRow ht hb).1, fun hb => (exec_beginRow ht hb).2,
      fun hb hn => (exec_operationRow ht hb hn).1, fun hb hn => (exec_operationRow ht hb hn).2.1,
      fun hb hn => (exec_operationRow ht hb hn).2.2, modeBits_ne_reserved t.mode⟩
    rintro rfl
    cases ht
    rfl
  · cases (execWord_illegal_of_error hl hm).symm.trans ht
    rfl
  · cases (execWord_illegal_of_ne_error hl hm).symm.trans ht
    exact ⟨rfl, rfl⟩

/-- Settles O5: the word at the head of a `READY` block's channel is accepted, and so is a word that is placed there. -/
theorem stepRunsTheDecodedCommand : Obligations.StepRunsTheDecodedCommand := by
  refine ⟨fun s cmd rest => step_of_issue_ready, fun s => step_withFetchWord, fun s cmd rest i ha hp hd => ?_,
    fun s w i hp hd => ?_⟩
  · rw [step_of_issue_ready ha hp, execWord_of_decode hd]
  · rw [step_withFetchWord w hp, execWord_of_decode hd]

/-- Settles O7: the two cases of `drain`. -/
theorem drainMovesOneItem : Obligations.DrainMovesOneItem := by
  refine fun s rest ha => ⟨fun item items hp hroom => ?_, fun h => ?_⟩
  · exact (step_of_drain ha).trans (congrArg _ (drainStep_of_enabled hp hroom))
  · exact (step_of_drain ha).trans (congrArg _ (drainStep_of_disabled h))

/-- Settles O8: `pop` moves the first item of `OUTQ`, if there is one, to the host. -/
theorem popTakesTheHead : Obligations.PopTakesTheHead := by
  refine fun s rest ha => ⟨fun item items hq => ?_, fun hq => ?_⟩
  · exact (step_of_pop ha).trans (congrArg _ (popStep_of_cons hq))
  · exact (step_of_pop ha).trans (congrArg _ (popStep_of_nil hq))

/-- Settles O9: the step is `readStep`. -/
theorem readReturnsTheStatusWord : Obligations.ReadReturnsTheStatusWord := fun _ _ _ => step_of_read

/-- Settles O21: in `IDLE` and `ERROR` a BEGIN runs its body, `OpInit` with the mode and the dimensions. -/
theorem beginInitialises : Obligations.BeginInitialises := fun _ hm =>
  ⟨beginOperation_of_legal hm, beginOperation_of_legal hm, fun _ _ => beginOperation_of_legal hm,
    fun _ _ => beginOperation_of_legal hm⟩

/-- Settles O22: `NOP` answers the state it is given; its opcode with a non-zero operand is an illegal word. -/
theorem nopHasNoEffect : Obligations.NopHasNoEffect := by
  refine ⟨fun _ => rfl, rfl, fun x s hx => ⟨fun hm => ?_, execWord_illegal_of_error (legal_nop_operand hx)⟩⟩
  rw [execWord_illegal_of_ne_error (legal_nop_operand hx) hm, Laws.EncodedFields.cmdOpcode_append,
    Laws.EncodedFields.cmdOperand_append]
  rfl

/-- Settles O44: neither a BEGIN's body nor the error entry touches the memory or a queue. -/
theorem beginFrame : Obligations.BeginFrame := by
  intro i s t ht hi
  have hsame : SameStores s.toBlock t.toBlock := by
    rcases hi with hb | rfl
    · exact exec_begin_sameStores ht hb
    · cases ht
      exact .refl _
  obtain ⟨hmem, hqueues⟩ := hsame
  exact ⟨fun c => by rw [hmem], hqueues⟩

end Sys2Proof.Proofs
end

section
/-!
The encoder's commands (42_generic_encode.md, 44_pixel_encode.md): `E_SYM` case by case (R121, R122), the END commands (R123, R124, R163),
and what a command of an encode operation emits and inserts (R127, R162).
-/

namespace Sys2Proof.Machine

open Sys2Proof.Safety

/-! ### `DictFind` and `EncStep`, case by case (R92, R121) -/

theorem dictFind_eq_some {depth : Nat} {b : Block} {p : Word} {c : Sym} {e : Nat} (hm : Memory.wf depth b.dmem)
    (hl : LowestPair b.dmem b.nextCode.toNat p c e) : dictFind p c b = some (BitVec.ofNat 32 e) := by
  rcases dictFind_cases hm p c with ⟨e', hl', hf⟩ | ⟨hn, -⟩
  · rw [hf, hl'.unique hl]
  · exact absurd hl.hasPair hn

theorem dictFind_eq_none {depth : Nat} {b : Block} {p : Word} {c : Sym} (hm : Memory.wf depth b.dmem)
    (hn : ¬ HasPair b.dmem b.nextCode.toNat p c) : dictFind p c b = none := by
  rcases dictFind_cases hm p c with ⟨e, hl, -⟩ | ⟨-, hf⟩
  · exact absurd hl.hasPair hn
  · exact hf

section EncStepCases

variable {depth : Nat} {operand : Word} {c : Sym} {b : Block}

theorem encStep_of_empty (hv : b.wValid = false) :
    encStep depth operand c b = .ok { b with wCode := symWord c, wValid := true } := by
  simp [encStep, hv]

theorem encStep_of_lowestPair {e : Nat} (hm : Memory.wf depth b.dmem) (hv : b.wValid = true)
    (hl : LowestPair b.dmem b.nextCode.toNat b.wCode c e) :
    encStep depth operand c b = .ok { b with wCode := BitVec.ofNat 32 e } := by
  simp [encStep, hv, dictFind_eq_some hm hl]

/-- Where `wc` is no key, `EncStep` emits and inserts. -/
theorem encStep_of_not_hasPair (hm : Memory.wf depth b.dmem) (hv : b.wValid = true)
    (hn : ¬ HasPair b.dmem b.nextCode.toNat b.wCode c) : encStep depth operand c b =
      (dictInsert depth operand b.wCode c (emit .code b.wCode b)).map fun b' => { b' with wCode := symWord c } := by
  simp [encStep, hv, dictFind_eq_none hm hn]

end EncStepCases

/-! ### `E_SYM`, `E_END` and `P_END` in their own mode (R122, R124, R163) -/

theorem symWord_wordSym {c : Word} (hc : symInRange c) : symWord (wordSym c) = c := by
  apply BitVec.eq_of_toNat_eq
  rw [symWord_toNat, wordSym, BitVec.toNat_setWidth, Nat.mod_eq_of_lt hc]

theorem wordSym_symWord (c : Sym) : wordSym (symWord c) = c := by
  apply BitVec.eq_of_toNat_eq
  rw [wordSym, BitVec.toNat_setWidth, symWord_toNat, Nat.mod_eq_of_lt c.isLt]

theorem exec_eSym_of_enc {c : Word} {s : State} (hm : s.mode = .enc) (hc : symInRange c) :
    exec (.eSym c) s = finish 0x02 s (encStep s.cfg.dictDepth c (wordSym c) s.toBlock) := by
  have hbody : eSymBody s.cfg.dictDepth c s.toBlock = encStep s.cfg.dictDepth c (wordSym c) s.toBlock := if_pos hc
  rw [← hbody]
  exact inOperation_own hm nofun

theorem exec_eEnd_of_enc {s : State} (hm : s.mode = .enc) : exec .eEnd s = .next (withBlock s (eEndBody s.toBlock)) :=
  inOperation_own (body := fun b => .ok (eEndBody b)) hm nofun

theorem exec_pEnd_of_penc {s : State} (hm : s.mode = .penc) : exec .pEnd s = .next (withBlock s (pEndBody s.toBlock)) :=
  inOperation_own (body := fun b => .ok (pEndBody b)) hm nofun

/-! ### What an encode operation emits goes with its inserts (R127) -/

/-- The item of a code (R76). -/
def codeItem (k : Word) : Item := { kind := .code, data := k }

/-- From `b` to `b'` the codes are emitted, each with one insert and each below `NEXT_CODE` as it stood at its own insert. -/
structure EmitsWithInserts (codes : List Word) (b b' : Block) : Prop where
  pend : b'.pend = b.pend ++ codes.map codeItem
  next : b'.nextCode.toNat = b.nextCode.toNat + codes.length
  below : ∀ j k, codes[j]? = some k → k.toNat < b.nextCode.toNat + j

theorem EmitsWithInserts.nil {b b' : Block} (hp : b'.pend = b.pend) (hn : b'.nextCode = b.nextCode) :
    EmitsWithInserts [] b b' where
  pend := by simp [hp]
  next := by simp [hn]
  below := by simp

theorem EmitsWithInserts.append {ks ks' : List Word} {b b' b'' : Block} (h : EmitsWithInserts ks b b')
    (h' : EmitsWithInserts ks' b' b'') : EmitsWithInserts (ks ++ ks') b b'' where
  pend := by rw [h'.pend, h.pend, List.map_append, List.append_assoc]
  next := by rw [h'.next, h.next, List.length_append, Nat.add_assoc]
  below j k hk := by
    rcases Nat.lt_or_ge j ks.length with hj | hj
    · rw [List.getElem?_append_left hj] at hk
      exact h.below j k hk
    · rw [List.getElem?_append_right hj] at hk
      have hlt := h'.below _ k hk
      have hnext := h.next
      omega

theorem EmitsWithInserts.congr_right {ks : List Word} {b b' b'' : Block} (h : EmitsWithInserts ks b b')
    (hp : b''.pend = b'.pend) (hn : b''.nextCode = b'.nextCode) : EmitsWithInserts ks b b'' := by
  simpa using h.append (.nil hp hn)

/-- With one code at most, every code is below the first `NEXT_CODE`. -/
theorem EmitsWithInserts.forall_mem_lt {ks : List Word} {b b' : Block} (h : EmitsWithInserts ks b b') (hlen : ks.length ≤ 1) :
    ∀ k ∈ ks, k.toNat < b.nextCode.toNat := by
  intro k hk
  obtain ⟨j, hj, hget⟩ := List.getElem_of_mem hk
  have hlt := h.below j k (hget ▸ List.getElem?_eq_getElem hj)
  omega

theorem encStepRel_wValid {depth : Nat} {c : Sym} {b b' : Block} (hr : EncStepRel depth c b b') : b'.wValid = true := by
  cases hr with
  | start => rfl
  | hit _ hv => exact hv
  | miss hv => exact hv

theorem encStepRel_emitsWithInserts {depth : Nat} {c : Sym} {b b' : Block} (h : CoreInv depth b) (hr : EncStepRel depth c b b') :
    ∃ codes, codes.length ≤ 1 ∧ EmitsWithInserts codes b b' := by
  cases hr with
  | start => exact ⟨[], Nat.zero_le 1, .nil rfl rfl⟩
  | hit => exact ⟨[], Nat.zero_le 1, .nil rfl rfl⟩
  | miss _ _ hd =>
    have hadd := nextCode_add_one h.depth_legal.2 (lt_of_le_of_ne h.next_range.2 hd)
    refine ⟨[b.wCode], le_rfl, rfl, hadd, fun j k hk => ?_⟩
    obtain rfl := List.mem_singleton.1 (List.mem_of_getElem? hk)
    exact Nat.lt_add_right j h.w_known

/-- Each symbol of a string emits at most one code (R161, R162). -/
theorem encSteps_emitsWithInserts {depth : Nat} {operand : Word} {cs : Str} {b b' : Block} (h : CoreInv depth b)
    (he : encSteps depth operand cs b = .ok b') : ∃ codes, codes.length ≤ cs.length ∧ EmitsWithInserts codes b b' := by
  induction cs generalizing b with
  | nil =>
    cases he
    exact ⟨[], le_rfl, .nil rfl rfl⟩
  | cons c cs ih =>
    obtain ⟨b1, h1, h2⟩ := Res.bind_eq_ok he
    have hr := (encStep_eq_ok_iff h operand c).1 h1
    obtain ⟨ks, hlen, hks⟩ := encStepRel_emitsWithInserts h hr
    obtain ⟨ks', hlen', hks'⟩ := ih (encStepRel_coreInv h hr) h2
    refine ⟨ks ++ ks', ?_, hks.append hks'⟩
    rw [List.length_append, List.length_cons]
    omega

/-- After one symbol or more `w` is not empty. -/
theorem encSteps_wValid {depth : Nat} {operand : Word} {cs : Str} {b b' : Block} (h : CoreInv depth b) (hne : cs ≠ [])
    (he : encSteps depth operand cs b = .ok b') : b'.wValid = true := by
  cases cs with
  | nil => exact absurd rfl hne
  | cons c cs =>
    obtain ⟨b1, h1, h2⟩ := Res.bind_eq_ok he
    have hr := (encStep_eq_ok_iff h operand c).1 h1
    exact encSteps_keeps (P := fun b => b.wValid = true) (fun _ _ _ _ _ => encStepRel_wValid) (encStepRel_coreInv h hr)
      (encStepRel_wValid hr) h2

theorem eSymBody_counts {depth : Nat} {c : Word} {b b' : Block} (h : CoreInv depth b) (hb : eSymBody depth c b = .ok b') :
    b'.wValid = true ∧ ∃ codes, codes.length ≤ 1 ∧ EmitsWithInserts codes b b' := by
  unfold eSymBody at hb
  split_ifs at hb
  have hr := (encStep_eq_ok_iff h _ _).1 hb
  exact ⟨encStepRel_wValid hr, encStepRel_emitsWithInserts h hr⟩

theorem pPixBody_counts {depth : Nat} {v : Word} {b b' : Block} (h : CoreInv depth b) (hb : pPixBody depth v b = .ok b') :
    b'.wValid = true ∧ ∃ codes, codes.length ≤ 3 ∧ EmitsWithInserts codes b b' := by
  unfold pPixBody at hb
  split_ifs at hb
  obtain ⟨b1, hs, rfl⟩ := Res.map_eq_ok hb
  obtain ⟨codes, hlen, hcodes⟩ := encSteps_emitsWithInserts h hs
  have hv : b1.wValid = true := encSteps_wValid h (List.cons_ne_nil _ _) hs
  exact ⟨hv, codes, hlen, hcodes.congr_right rfl rfl⟩

/-! ### The commands that complete while an encode operation is in progress (R111) -/

/-- A stream or END command that leaves no error has run its rule, in its own mode. -/
theorem inOperation_completes {m : Mode} {op : BitVec 8} {x : Word} {body : Block → Res Block} {s t : State}
    (ht : inOperation m op x body s = .next t) (htm : t.mode ≠ .error) :
    s.mode = m ∧ ∃ b, body s.toBlock = .ok b ∧ t = withBlock s b := by
  rcases inOperation_cases ht with ⟨hm, rfl⟩ | ⟨-, -, rfl⟩ | ⟨-, hm, b, hb, rfl⟩ | ⟨-, -, e, a, -, rfl⟩
  · exact absurd hm htm
  · exact absurd rfl htm
  · exact ⟨hm, b, hb, rfl⟩
  · exact absurd rfl htm

/-- A BEGIN or a command of another operation raises `ProtocolError` while `s` encodes. -/
theorem exec_encoding_own {i : Instr} {s t : State} (hs : Encoding s.toBlock) (ht : exec i s = .next t) (htm : t.mode ≠ .error) :
    i = .nop ∨ (isBegin i = false ∧ ownMode i = s.mode) := by
  have herr : s.mode ≠ .error := by rcases hs with hs | hs <;> simp [hs]
  have hidle : s.mode ≠ .idle := by rcases hs with hs | hs <;> simp [hs]
  cases hb : isBegin i with
  | true => exact absurd ((exec_beginRow ht hb).2 hidle herr).1 htm
  | false =>
    by_cases hn : i = .nop
    · exact .inl hn
    · refine .inr ⟨rfl, ?_⟩
      by_contra hm
      exact htm ((exec_operationRow ht hb hn).2.1 herr (Ne.symm hm)).1

/-- The codes an END of an encode operation emits (R123). -/
def flushCodes (b : Block) : List Word := if b.wValid then [b.wCode] else []

/-- `EncFlush` writes `PEND` only (R123). -/
theorem encFlush_eq_flushCodes (b : Block) : encFlush b = { b with pend := b.pend ++ (flushCodes b).map codeItem } := by
  rw [encFlush_eq, flushCodes]
  split_ifs <;> rfl

theorem flushCodes_length (b : Block) : (flushCodes b).length = if b.wValid then 1 else 0 := by
  unfold flushCodes
  split_ifs <;> rfl

theorem flushCodes_lt {depth : Nat} {b : Block} (h : CoreInv depth b) : ∀ k ∈ flushCodes b, k.toNat < b.nextCode.toNat := by
  unfold flushCodes
  split_ifs
  · exact List.forall_mem_singleton.2 h.w_known
  · exact List.forall_mem_nil _

end Sys2Proof.Machine

namespace Sys2Proof.Proofs

open Sys2Proof.Machine Sys2Proof.Safety

/-- Settles O25: `EncFlush` writes `PEND` only, and END then sets the mode. -/
theorem encodeEndFlushes : Obligations.EncodeEndFlushes := by
  refine fun s => ⟨fun hm => ?_, fun hm => ?_⟩
  · rw [exec_eEnd_of_enc hm, eEndBody, encFlush_eq]
    rfl
  · rw [exec_pEnd_of_penc hm, pEndBody, encFlush_eq]
    rfl

/-- Settles O23: the cases of `EncStep`, on the symbol of an operand in range. -/
theorem symbolStep : Obligations.SymbolStep := by
  intro c s hm hc hwf h256
  rw [exec_eSym_of_enc hm hc]
  refine ⟨fun hv => ?_, fun e hv hl => ?_, fun hv hn hroom => ?_, fun hv hn hfull => ?_⟩
  · rw [encStep_of_empty hv, symWord_wordSym hc]
    rfl
  · rw [encStep_of_lowestPair (c := wordSym c) hwf hv hl]
    rfl
  · rw [encStep_of_not_hasPair (c := wordSym c) hwf hv hn,
      dictInsert_of_not_full (b := emit .code s.wCode s.toBlock) h256 hroom, Res.map_ok, symWord_wordSym hc]
    rfl
  · rw [encStep_of_not_hasPair (c := wordSym c) hwf hv hn, dictInsert_of_full (b := emit .code s.wCode s.toBlock) hfull]
    rfl

/-- Settles O28: the codes by the steps of the symbols, each of which emits one code with its insert or none; an END by its flush;
every other command raises. -/
theorem encoderOutputCounts : Obligations.EncoderOutputCounts := by
  intro i s t h hs ht htm
  have hcore := CoreInv.of_inv h
  rcases exec_encoding_own hs ht htm with rfl | ⟨hb, hown⟩
  · cases ht
    exact ⟨[], by simp⟩
  cases i with
  | eBegin | dBegin | pBegin | pdBegin => cases hb
  | nop | dCode | dEnd | pdCode | pdEnd => rcases hs with hs | hs <;> cases hown.trans hs
  | eSym c =>
    obtain ⟨-, b, hbody, rfl⟩ := inOperation_completes ht htm
    obtain ⟨hv, codes, hlen, hcodes⟩ := eSymBody_counts hcore hbody
    exact ⟨codes, hcodes.pend, fun _ => ⟨hlen, hcodes.next, hv, hcodes.forall_mem_lt hlen⟩, by simp, by simp, nofun⟩
  | pPix v =>
    obtain ⟨-, b, hbody, rfl⟩ := inOperation_completes ht htm
    obtain ⟨hv, codes, hlen, hcodes⟩ := pPixBody_counts hcore hbody
    exact ⟨codes, hcodes.pend, by simp, fun _ => ⟨hlen, hcodes.next, hv, hcodes.below⟩, by simp, nofun⟩
  | eEnd =>
    cases (exec_eEnd_of_enc hown.symm).symm.trans ht
    rw [eEndBody, encFlush_eq_flushCodes]
    exact ⟨flushCodes s.toBlock, rfl, by simp, by simp, fun _ => ⟨flushCodes_length _, rfl, flushCodes_lt hcore⟩, nofun⟩
  | pEnd =>
    cases (exec_pEnd_of_penc hown.symm).symm.trans ht
    rw [pEndBody, encFlush_eq_flushCodes]
    exact ⟨flushCodes s.toBlock, rfl, by simp, by simp, fun _ => ⟨flushCodes_length _, rfl, flushCodes_lt hcore⟩, nofun⟩

end Sys2Proof.Proofs
end

section
/-!
The generic encode against the source's compress (42_generic_encode.md R126): the key list of the source and the codes of the block name
the same strings, `EncStep` and the source's step go along with each other, and so do whole operations.
-/

namespace Sys2Proof.Machine

open Sys2Proof.Safety

/-! ### The source's key list and the block's codes (R96) -/

/-- Every symbol's code denotes it, whatever the memory holds (R91). -/
theorem denotes_symbol (m : Memory) (c : Sym) : Denotes m c.toNat [c] := by
  simpa using Denotes.seed (m := m) c.toNat c.isLt

theorem denotes_symWord (m : Memory) (c : Sym) : Denotes m (symWord c).toNat [c] :=
  symWord_toNat c ▸ denotes_symbol m c

/-- `keys` lists the strings of the codes 256 up to `n - 1`, in order. -/
structure KeysOf (m : Memory) (n : Nat) (keys : List Str) : Prop where
  next : n = 256 + keys.length
  denotes : ∀ i (h : i < keys.length), Denotes m (256 + i) keys[i]

theorem KeysOf.seeds (m : Memory) : KeysOf m 256 [] := ⟨rfl, nofun⟩

/-- An insert of `w + [s]` appends that key. -/
theorem KeysOf.write {m : Memory} {n : Nat} {keys : List Str} {p : Word} {s : Sym} {w : Str} (h : KeysOf m n keys)
    (hp : p.toNat < n) (hw : Denotes m p.toNat w) :
    KeysOf (Memory.write m n { parent := p, suffix := s }) (n + 1) (keys ++ [w ++ [s]]) := by
  obtain ⟨rfl, hd⟩ := h
  refine ⟨by simp [Nat.add_assoc], fun i hi => ?_⟩
  rcases Nat.lt_or_ge i keys.length with hlt | hge
  · rw [List.getElem_append_left hlt]
    exact (hd i hlt).write (by omega)
  · have hi' : i = keys.length := by
      rw [List.length_append, List.length_singleton] at hi
      omega
    subst hi'
    rw [List.getElem_concat_length rfl]
    exact .written (Nat.le_add_right _ _) hp hw

/-- A string of more than one symbol, or none, is looked up in the key list. -/
theorem refCode_of_length_ne_one (keys : List Str) {str : Str} (h : str.length ≠ 1) :
    refCode keys str = (keys.findIdx? fun k => decide (k = str)).map (256 + ·) := by
  rcases str with _ | ⟨a, _ | ⟨b, str⟩⟩
  · rfl
  · exact absurd rfl h
  · rfl

/-- Where the keys are distinct, the source's code of a string is the known code that denotes it. -/
theorem KeysOf.refCode_eq_some_iff {m : Memory} {n : Nat} {keys : List Str} (h : KeysOf m n keys) (hk : DistinctKeys m n)
    {str : Str} {c : Nat} : refCode keys str = some c ↔ c < n ∧ Denotes m c str := by
  obtain ⟨rfl, hd⟩ := h
  by_cases hlen : str.length = 1
  · obtain ⟨a, rfl⟩ := List.length_eq_one_iff.1 hlen
    have hlt : a.toNat < 256 + keys.length := Nat.lt_add_right _ a.isLt
    show some a.toNat = some c ↔ _
    rw [Option.some.injEq]
    exact ⟨fun hc => hc ▸ ⟨hlt, denotes_symbol m a⟩, fun ⟨hc, hd'⟩ => hk _ _ _ hlt hc (denotes_symbol m a) hd'⟩
  · rw [refCode_of_length_ne_one keys hlen, Option.map_eq_some_iff]
    constructor
    · rintro ⟨i, hi, rfl⟩
      obtain ⟨hlt, hkey, -⟩ := List.findIdx?_eq_some_iff_getElem.1 hi
      exact ⟨Nat.add_lt_add_left hlt 256, of_decide_eq_true hkey ▸ hd i hlt⟩
    · rintro ⟨hc, hdc⟩
      have h256 : 256 ≤ c := Nat.not_lt.1 fun hseed => hlen (hdc.length_bounds.1 hseed)
      obtain ⟨i, rfl⟩ := Nat.exists_eq_add_of_le h256
      have hi : i < keys.length := Nat.lt_of_add_lt_add_left hc
      refine ⟨i, List.findIdx?_eq_some_iff_getElem.2 ⟨hi, decide_eq_true ((hd i hi).unique hdc), fun j hj => ?_⟩, rfl⟩
      rw [decide_eq_true_eq]
      intro hkey
      have hj' := hj.trans hi
      have := hk (256 + j) (256 + i) str (by omega) hc (hkey ▸ hd j hj') hdc
      omega

/-! ### The source's step, case by case -/

theorem refEncStep_of_isSome {r : RefEnc} {c : Sym} (h : (refCode r.keys (r.w ++ [c])).isSome = true) :
    refEncStep r c = { r with w := r.w ++ [c] } := if_pos h

theorem refEncStep_of_eq_none {r : RefEnc} {c : Sym} {k : Nat} (h : refCode r.keys (r.w ++ [c]) = none)
    (hw : refCode r.keys r.w = some k) :
    refEncStep r c = { keys := r.keys ++ [r.w ++ [c]], w := [c], out := r.out ++ [k] } := by
  rw [refEncStep, h, hw]
  rfl

/-- §4.1 compress, step 3: the code of `w`, if `w` is not empty, goes out last. -/
def refFinish (r : RefEnc) : List Nat := if r.w = [] then r.out else r.out ++ (refCode r.keys r.w).toList

/-- §4.1 compress in its three steps. -/
theorem refCompress_eq (str : Str) : refCompress str = refFinish (str.foldl refEncStep { keys := [], w := [], out := [] }) := rfl

/-! ### The simulation (R126) -/

/-- The items of the source's codes. -/
def codeItems (ks : List Nat) : List Item := ks.map fun k => codeItem (BitVec.ofNat 32 k)

/-- The block stands where the source's variables stand: same keys, same match; and what it has emitted is what the source has put
out, where the host had `base` before the operation and has taken `sent` by now. -/
structure Simulates (depth : Nat) (base sent : List Item) (b : Block) (r : RefEnc) : Prop where
  core : CoreInv depth b
  distinct : DistinctKeys b.dmem b.nextCode.toNat
  keys : KeysOf b.dmem b.nextCode.toNat r.keys
  w_empty : b.wValid = false → r.w = []
  w_denotes : b.wValid = true → Denotes b.dmem b.wCode.toNat r.w
  out : sent ++ b.pend = base ++ codeItems r.out

/-- After a BEGIN (R90, R119). -/
theorem Simulates.begun {depth : Nat} {sent : List Item} {b : Block} (h : CoreInv depth b) (hn : b.nextCode = 256)
    (hv : b.wValid = false) : Simulates depth (sent ++ b.pend) sent b { keys := [], w := [], out := [] } where
  core := h
  distinct := hn ▸ distinctKeys_seeds _
  keys := hn ▸ KeysOf.seeds _
  w_empty _ := rfl
  w_denotes ht := by cases hv.symm.trans ht
  out := (List.append_nil _).symm

section Simulates

variable {depth : Nat} {base sent : List Item} {b : Block} {r : RefEnc}

theorem Simulates.refCode_w (h : Simulates depth base sent b r) (hv : b.wValid = true) :
    refCode r.keys r.w = some b.wCode.toNat :=
  (h.keys.refCode_eq_some_iff h.distinct).2 ⟨h.core.w_known, h.w_denotes hv⟩

/-- Where the search of the block finds a pair, the source finds the string, at the same code. -/
theorem Simulates.refCode_of_lowestPair (h : Simulates depth base sent b r) (hv : b.wValid = true) {c : Sym} {e : Nat}
    (hl : LowestPair b.dmem b.nextCode.toNat b.wCode c e) : refCode r.keys (r.w ++ [c]) = some e := by
  obtain ⟨h256, hlt, hr, -⟩ := hl
  exact (h.keys.refCode_eq_some_iff h.distinct).2
    ⟨hlt, (h.distinct.denotes_concat_iff h.core.entries h.core.w_known (h.w_denotes hv) hlt).2 ⟨h256, hr⟩⟩

/-- Where it finds none, the string is no key of the source either. -/
theorem Simulates.refCode_of_not_hasPair (h : Simulates depth base sent b r) (hv : b.wValid = true) {c : Sym}
    (hn : ¬ HasPair b.dmem b.nextCode.toNat b.wCode c) : refCode r.keys (r.w ++ [c]) = none := by
  rw [Option.eq_none_iff_forall_ne_some]
  intro e he
  obtain ⟨hlt, hd⟩ := (h.keys.refCode_eq_some_iff h.distinct).1 he
  obtain ⟨h256, hr⟩ := (h.distinct.denotes_concat_iff h.core.entries h.core.w_known (h.w_denotes hv) hlt).1 hd
  exact hn ⟨e, h256, hlt, hr⟩

/-- `EncStep` and the source's step on one symbol (R121, R126). -/
theorem Simulates.encStep (h : Simulates depth base sent b r) {c : Sym} {b' : Block} (hr : EncStepRel depth c b b') :
    Simulates depth base sent b' (refEncStep r c) := by
  have hcore := encStepRel_coreInv h.core hr
  have hdistinct := encStepRel_distinctKeys h.core h.distinct hr
  cases hr with
  | start hv =>
    have hw := h.w_empty hv
    rw [refEncStep_of_isSome (by rw [hw]; rfl), hw]
    exact ⟨hcore, hdistinct, h.keys, nofun, fun _ => denotes_symWord _ c, h.out⟩
  | hit e hv hl =>
    have hcode := h.refCode_of_lowestPair hv hl
    rw [refEncStep_of_isSome (by rw [hcode]; rfl)]
    obtain ⟨hlt, hd⟩ := (h.keys.refCode_eq_some_iff h.distinct).1 hcode
    have he : (BitVec.ofNat 32 e).toNat = e := by
      rw [BitVec.toNat_ofNat, Nat.mod_eq_of_lt (hlt.trans b.nextCode.isLt)]
    exact ⟨hcore, hdistinct, h.keys, fun hv' => absurd (hv.symm.trans hv') nofun, fun _ => he.symm ▸ hd, h.out⟩
  | miss hv hn hd =>
    rw [refEncStep_of_eq_none (h.refCode_of_not_hasPair hv hn) (h.refCode_w hv)]
    have hadd := nextCode_add_one h.core.depth_legal.2 (lt_of_le_of_ne h.core.next_range.2 hd)
    refine ⟨hcore, hdistinct, ?_, fun hv' => absurd (hv.symm.trans hv') nofun, fun _ => denotes_symWord _ c, ?_⟩
    · simp only [hadd]
      exact h.keys.write h.core.w_known (h.w_denotes hv)
    · rw [← List.append_assoc, h.out]
      simp [codeItems, codeItem]

/-- `EncStep` of each symbol of a string and the source's steps (R161, R126). -/
theorem Simulates.encSteps (h : Simulates depth base sent b r) {operand : Word} {cs : Str} {b' : Block}
    (he : encSteps depth operand cs b = .ok b') : Simulates depth base sent b' (cs.foldl refEncStep r) := by
  induction cs generalizing b r with
  | nil =>
    cases he
    exact h
  | cons c cs ih =>
    obtain ⟨b1, h1, h2⟩ := Res.bind_eq_ok he
    exact ih (h.encStep ((encStep_eq_ok_iff h.core operand c).1 h1)) h2

/-- The last flush and the source's step 3 (R123, R126). -/
theorem Simulates.encFlush (h : Simulates depth base sent b r) :
    sent ++ (encFlush b).pend = base ++ codeItems (refFinish r) := by
  rw [encFlush_eq_flushCodes, ← List.append_assoc, h.out]
  cases hv : b.wValid with
  | false => simp [flushCodes, hv, refFinish, h.w_empty hv]
  | true =>
    have hne : r.w ≠ [] := (h.w_denotes hv).ne_nil
    simp [flushCodes, hv, refFinish, hne, h.refCode_w hv, codeItems]

end Simulates

/-! ### The commands of a generic encode, one after another (R83, R126, R215) -/

theorem issueAll_cons_of_next {i : Instr} {s t : State} (is : List Instr) (h : exec i s = .next t) :
    issueAll (i :: is) s = issueAll is (settle t) := by
  rw [issueAll, h]

theorem inOperation_of_error {m : Mode} {op : BitVec 8} {x : Word} {body : Block → Res Block} {s : State}
    (hm : s.mode = .error) : inOperation m op x body s = .next s := if_pos hm

/-- In `ERROR` every command but a BEGIN leaves the state (R215). -/
theorem exec_of_error {i : Instr} {s : State} (hm : s.mode = .error) (hb : isBegin i = false) : exec i s = .next s := by
  cases i with
  | nop => rfl
  | eBegin | dBegin | pBegin | pdBegin => cases hb
  | eSym | dCode | dEnd | pPix | pdCode | pdEnd => exact inOperation_of_error hm
  | eEnd => exact inOperation_of_error (body := fun b => .ok (eEndBody b)) hm
  | pEnd => exact inOperation_of_error (body := fun b => .ok (pEndBody b)) hm

/-- The machine stands in `ERROR` with the error `e`. -/
abbrev FailedWith (e : ErrCode) (s : State) : Prop := s.mode = .error ∧ s.err = e

/-- After an error the rest of the operation is dropped. -/
theorem issueAll_of_failed {is : List Instr} {s : State} {e : ErrCode} (h : FailedWith e s) (his : ∀ i ∈ is, isBegin i = false) :
    ∃ t, issueAll is s = .next t ∧ FailedWith e t := by
  induction is generalizing s with
  | nil => exact ⟨s, rfl, h⟩
  | cons i is ih =>
    obtain ⟨hb, his'⟩ := List.forall_mem_cons.1 his
    rw [issueAll_cons_of_next is (exec_of_error h.1 hb)]
    exact ih h his'

/-- An encode operation of mode `m` is in progress, and stands where the source's variables stand. -/
structure Encodes (m : Mode) (base : List Item) (s : State) (r : RefEnc) : Prop where
  mode : s.mode = m
  sim : Simulates s.cfg.dictDepth base (s.taken ++ s.outq) s.toBlock r

section Encodes

variable {m : Mode} {base : List Item} {s : State} {r : RefEnc}

/-- The host's wait moves items, and loses none. -/
theorem Encodes.settle (h : Encodes m base s r) : Encodes m base (settle s) r where
  mode := h.mode
  sim := { h.sim with
    core := h.sim.core.congr rfl rfl rfl
    out := by simpa [Machine.settle] using h.sim.out }

/-- `E_SYM` of a symbol is the source's step, or ends in `DictFullError` (R122). -/
theorem Encodes.exec_eSym (h : Encodes .enc base s r) (c : Sym) :
    ∃ t, exec (.eSym (symWord c)) s = .next t ∧ (Encodes .enc base t (refEncStep r c) ∨ FailedWith .dictFull t) := by
  have hrange : symInRange (symWord c) := by
    rw [symInRange, symWord_toNat]
    exact c.isLt
  rw [exec_eSym_of_enc h.mode hrange, wordSym_symWord]
  rcases encStep_cases h.sim.core (symWord c) c with ⟨b, hr, he⟩ | ⟨-, he⟩
  · rw [he]
    have hsim := h.sim.encStep hr
    obtain ⟨_, _, _, _, _, rfl⟩ := encStepRel_frame hr
    exact ⟨_, rfl, .inl ⟨h.mode, hsim⟩⟩
  · rw [he]
    exact ⟨_, rfl, .inr ⟨rfl, rfl⟩⟩

/-- The symbols of a string and `E_END`, from where the source's variables stand. -/
theorem Encodes.issueAll (h : Encodes .enc base s r) (str : Str) :
    ∃ t, issueAll (str.map (fun c => .eSym (symWord c)) ++ [.eEnd]) s = .next t ∧
      ((t.mode = .idle ∧ t.taken = base ++ codeItems (refFinish (str.foldl refEncStep r))) ∨ FailedWith .dictFull t) := by
  induction str generalizing s r with
  | nil =>
    refine ⟨_, issueAll_cons_of_next [] (exec_eEnd_of_enc h.mode), .inl ⟨rfl, ?_⟩⟩
    have hout := h.sim.encFlush
    rw [encFlush_eq] at hout
    simp only [Machine.settle, withBlock, eEndBody, encFlush_eq]
    exact hout
  | cons c str ih =>
    obtain ⟨t, ht, hcase⟩ := h.exec_eSym c
    rw [List.map_cons, List.cons_append, issueAll_cons_of_next _ ht]
    rcases hcase with hrun | hfull
    · exact ih hrun.settle
    · have hrest : ∀ i ∈ str.map (fun c => .eSym (symWord c)) ++ [.eEnd], isBegin i = false :=
        List.forall_mem_append.2 ⟨List.forall_mem_map.2 fun _ _ => rfl, List.forall_mem_singleton.2 rfl⟩
      obtain ⟨u, hu, hfail⟩ := issueAll_of_failed (s := Machine.settle t) hfull hrest
      exact ⟨u, hu, .inr hfail⟩

end Encodes

/-- `E_BEGIN` puts the block where the source starts (R120). -/
theorem encodes_of_eBegin {s : State} (h : Inv s) :
    Encodes .enc (s.taken ++ s.outq ++ s.pend) (withBlock s (eBeginBody s.toBlock)) { keys := [], w := [], out := [] } where
  mode := rfl
  sim := Simulates.begun (CoreInv.of_inv (h.begun nofun fun _ => ⟨rfl, rfl⟩ : Inv (withBlock s (eBeginBody s.toBlock)))) rfl rfl

end Sys2Proof.Machine

namespace Sys2Proof.Proofs

open Sys2Proof.Machine Sys2Proof.Safety

/-- Settles O54: `E_BEGIN` puts the block where the source starts, every symbol keeps it there or ends in `DictFullError`, and the
last flush is the source's last step. -/
theorem encodeMatchesTheSource : Obligations.EncodeMatchesTheSource := by
  intro s str h hm hp hq
  have hbegun := (encodes_of_eBegin h).settle
  rw [hp, hq, List.append_nil, List.append_nil] at hbegun
  obtain ⟨t, ht, hend⟩ := hbegun.issueAll str
  have hbegin : exec .eBegin s = .next (withBlock s (eBeginBody s.toBlock)) := beginOperation_of_legal hm
  rw [← refCompress_eq] at hend
  exact ⟨t, (issueAll_cons_of_next _ hbegin).trans ht, hend⟩

end Sys2Proof.Proofs
end

section
/-!
The generic decoder's commands (43_generic_decode.md): `D_CODE` by what `DecStep` answers (R141, R142), `D_END` in every mode
(R143), and the words of form `NONE` that are illegal (R73).
-/

namespace Sys2Proof.Machine

open Sys2Proof.Safety

/-! ### A word of form `NONE` with a non-zero operand (R73, R211) -/

theorem legal_noOperand {op : BitVec 8} {x : Word} (hop : formOf op = some .noOperand) (hx : x ≠ 0) : legal (op ++ x) = false := by
  rw [legal_eq_false_iff, Laws.EncodedFields.cmdOpcode_append, Laws.EncodedFields.cmdOperand_append]
  exact .inr ⟨hop, hx⟩

theorem execWord_noOperand_of_ne_error {op : BitVec 8} {x : Word} {s : State} (hop : formOf op = some .noOperand) (hx : x ≠ 0)
    (hm : s.mode ≠ .error) : execWord (op ++ x) s = .next (raiseError .illegalCommand op x s) := by
  rw [execWord_illegal_of_ne_error (legal_noOperand hop hx) hm, Laws.EncodedFields.cmdOpcode_append,
    Laws.EncodedFields.cmdOperand_append]

/-! ### A stream or END command outside its mode (R111) -/

theorem inOperation_of_other {m : Mode} {op : BitVec 8} {x : Word} {body : Block → Res Block} {s : State} (he : s.mode ≠ .error)
    (hm : s.mode ≠ m) : inOperation m op x body s = .next (raiseError .protocol op x s) := by
  rw [inOperation, if_neg he, if_neg hm]

/-! ### `D_CODE` and `PD_CODE` in their own mode, by what `DecStep` answers (R142, R182) -/

section CodeCommands

variable {k : Word} {s : State}

theorem exec_dCode_of_dec (hm : s.mode = .dec) : exec (.dCode k) s = finish 0x12 s (dCodeBody s.cfg.dictDepth k s.toBlock) :=
  inOperation_own hm nofun

theorem exec_pdCode_of_pdec (hm : s.mode = .pdec) :
    exec (.pdCode k) s = finish 0x32 s (pdCodeBody s.cfg.dictDepth k s.toBlock) := inOperation_own hm nofun

theorem exec_dCode_of_ok {b : Block} {str : Str} (hm : s.mode = .dec)
    (h : decStep s.cfg.dictDepth k s.toBlock = .ok (b, str)) : exec (.dCode k) s = .next (withBlock s (emitSyms str b)) := by
  rw [exec_dCode_of_dec hm, dCodeBody, h]
  rfl

theorem exec_dCode_of_raise {e : ErrCode} {x : Word} (hm : s.mode = .dec)
    (h : decStep s.cfg.dictDepth k s.toBlock = .raise e x) : exec (.dCode k) s = .next (raiseError e 0x12 x s) := by
  rw [exec_dCode_of_dec hm, dCodeBody, h]
  rfl

theorem exec_pdCode_of_raise {e : ErrCode} {x : Word} (hm : s.mode = .pdec)
    (h : decStep s.cfg.dictDepth k s.toBlock = .raise e x) : exec (.pdCode k) s = .next (raiseError e 0x32 x s) := by
  rw [exec_pdCode_of_pdec hm, pdCodeBody, h]
  rfl

end CodeCommands

/-! ### `D_END` in its own mode (R143) -/

theorem exec_dEnd_of_dec {s : State} (hm : s.mode = .dec) : exec .dEnd s = finish 0x13 s (dEndBody s.toBlock) :=
  inOperation_own hm nofun

theorem exec_dEnd_of_not_firstSeen {s : State} (hm : s.mode = .dec) (hf : s.firstSeen = false) :
    exec .dEnd s = .next (raiseError .emptyInput 0x13 0 s) := by
  rw [exec_dEnd_of_dec hm, dEndBody, hf]
  rfl

theorem exec_dEnd_of_firstSeen {s : State} (hm : s.mode = .dec) (hf : s.firstSeen = true) :
    exec .dEnd s = .next (withBlock s { s.toBlock with mode := .idle }) := by
  rw [exec_dEnd_of_dec hm, dEndBody, if_pos hf]
  rfl

end Sys2Proof.Machine

namespace Sys2Proof.Proofs

open Sys2Proof.Machine Sys2Proof.Safety

/-- Settles O30: `DecStep` with room in the dictionary, whose symbols `D_CODE` emits. -/
theorem laterCode : Obligations.LaterCode := by
  intro k s h hm hf hk hroom
  rcases decStep_later (CoreInv.of_inv h) hf hk with ⟨hfull, -⟩ | ⟨-, w, f, str, hw, -, hhead, hknown, hself, hstep⟩
  · exact absurd hfull hroom.ne
  · refine ⟨w, str, f, hw, hhead, hknown, fun heq => ?_, exec_dCode_of_ok hm hstep⟩
    obtain ⟨hstr, hwhead⟩ := hself heq
    rw [hstr, List.take_one, hwhead, Option.toList_some]

/-- Settles O32: `DecStep` with the dictionary full raises, in both decode modes. -/
theorem fullDictionaryOnDecode : Obligations.FullDictionaryOnDecode := by
  intro k s h hf hk hfull
  have hraise : decStep s.cfg.dictDepth k s.toBlock = .raise .dictFull k := by
    rcases decStep_later (CoreInv.of_inv h) hf hk with ⟨-, hraise⟩ | ⟨hroom, -⟩
    · exact hraise
    · exact absurd hfull hroom.ne
  exact ⟨fun hm => exec_dCode_of_raise hm hraise, fun hm => exec_pdCode_of_raise hm hraise, rfl⟩

/-- Settles O33: R111's checks, then the two ends of `D_END`; its opcode with a non-zero operand is an illegal word. -/
theorem decodeEnd : Obligations.DecodeEnd :=
  ⟨fun _ => ⟨fun hm => exec_of_error hm rfl, inOperation_of_other, exec_dEnd_of_not_firstSeen, exec_dEnd_of_firstSeen⟩, rfl,
    fun _ _ hx => ⟨execWord_noOperand_of_ne_error rfl hx, execWord_illegal_of_error (legal_noOperand rfl hx)⟩, rfl⟩

end Sys2Proof.Proofs
end

section
/-!
The generic decode against the source's decompress (43_generic_decode.md R145): the key list of the source and the codes of
the block name the same strings, `DecStep` and the source's step 4 go along with each other, and so do whole operations. A
decode meets a full dictionary only where its codes are too many for `DICT_DEPTH`.
-/

namespace Sys2Proof.Machine

open Sys2Proof.Safety

/-! ### The source's lookup and the block's codes -/

/-- The source's string of a known code is the denoted one. -/
theorem KeysOf.refString_of_denotes {m : Memory} {n k : Nat} {keys : List Str} {str : Str} (h : KeysOf m n keys) (hk : k < n)
    (hd : Denotes m k str) : refString keys k = some str := by
  obtain ⟨rfl, hkeys⟩ := h
  rcases Nat.lt_or_ge k 256 with hseed | h256
  · rw [refString, if_pos hseed, (Denotes.seed k hseed).unique hd]
  · obtain ⟨i, rfl⟩ := Nat.exists_eq_add_of_le h256
    have hi : i < keys.length := Nat.lt_of_add_lt_add_left hk
    rw [refString, if_neg h256.not_gt, Nat.add_sub_cancel_left, List.getElem?_eq_getElem hi, (hkeys i hi).unique hd]

theorem refString_of_ge {keys : List Str} {k : Nat} (hk : 256 + keys.length ≤ k) : refString keys k = none := by
  rw [refString, if_neg (by omega), List.getElem?_eq_none (by omega)]

/-! ### The source's step 4, case by case -/

theorem refEntry_of_key {r : RefDec} {k : Nat} {str : Str} (h : refString r.keys k = some str) : refEntry r k = some str := by
  rw [refEntry, h]

theorem refEntry_of_next {r : RefDec} {k : Nat} (hk : k = 256 + r.keys.length) : refEntry r k = some (r.w ++ r.w.take 1) := by
  rw [refEntry, refString_of_ge hk.ge]
  exact if_pos hk

theorem refEntry_of_gt {r : RefDec} {k : Nat} (hk : 256 + r.keys.length < k) : refEntry r k = none := by
  rw [refEntry, refString_of_ge hk.le]
  exact if_neg hk.ne'

/-- The source's variables after a code whose entry is `entry`. -/
def refDecNext (r : RefDec) (entry : Str) : RefDec :=
  { keys := r.keys ++ [r.w ++ entry.take 1], w := entry, out := r.out ++ entry }

theorem refDecNext_keys_length (r : RefDec) (entry : Str) : (refDecNext r entry).keys.length = r.keys.length + 1 := by
  simp [refDecNext]

theorem refDecLoop_cons_of_some {r : RefDec} {k : Nat} {ks : List Nat} {entry : Str} (h : refEntry r k = some entry) :
    refDecLoop r (k :: ks) = refDecLoop (refDecNext r entry) ks := by
  rw [refDecLoop, h]
  rfl

theorem refDecLoop_cons_of_none {r : RefDec} {k : Nat} {ks : List Nat} (h : refEntry r k = none) :
    refDecLoop r (k :: ks) = .error .corruptStream := by
  rw [refDecLoop, h]

/-- The source's variables after a first code below 256 (§4.1 decompress, step 3). -/
def refDecFirst (k : Nat) : RefDec := { keys := [], w := [BitVec.ofNat 8 k], out := [BitVec.ofNat 8 k] }

theorem refDecompress_cons_of_lt {k : Nat} {ks : List Nat} (hk : k < 256) :
    refDecompress (k :: ks) = refDecLoop (refDecFirst k) ks := if_pos hk

theorem refDecompress_cons_of_ge {k : Nat} {ks : List Nat} (hk : ¬ k < 256) :
    refDecompress (k :: ks) = .error .unknownCode := if_neg hk

/-! ### The simulation, for both decoders -/

/-- The dictionary of a decode that has received a code stands where the source's variables stand: same keys, same `w`. -/
structure Tracks (depth : Nat) (b : Block) (r : RefDec) : Prop where
  core : CoreInv depth b
  firstSeen : b.firstSeen = true
  keys : KeysOf b.dmem b.nextCode.toNat r.keys
  w_denotes : Denotes b.dmem b.wCode.toNat r.w

theorem Tracks.congr {depth : Nat} {b b' : Block} {r : RefDec} (h : Tracks depth b r) (hf : b'.firstSeen = b.firstSeen)
    (hn : b'.nextCode = b.nextCode) (hw : b'.wCode = b.wCode) (hm : b'.dmem = b.dmem) : Tracks depth b' r where
  core := h.core.congr hn hw hm
  firstSeen := hf.trans h.firstSeen
  keys := by
    rw [hn, hm]
    exact h.keys
  w_denotes := by
    rw [hw, hm]
    exact h.w_denotes

/-- After a first code below 256 (R141, step 3). -/
theorem Tracks.first {depth : Nat} {b : Block} {k : Word} (h : CoreInv depth b) (hn : b.nextCode = 256) (hk : k.toNat < 256) :
    Tracks depth { b with firstSeen := true, wCode := k } (refDecFirst k.toNat) where
  core := ⟨h.depth_legal, h.next_range, hk.trans_le h.next_range.1, h.memory_wf, h.entries⟩
  firstSeen := rfl
  keys := hn ▸ KeysOf.seeds _
  w_denotes := .seed _ hk

/-- `DecStep` of a later code and the source's step 4: `CorruptStreamError` where the source has no entry, `DictFullError`, or
the source's entry (R141). -/
theorem Tracks.decStep_cases {depth : Nat} {b : Block} {r : RefDec} (h : Tracks depth b r) (k : Word) :
    (refEntry r k.toNat = none ∧ decStep depth k b = .raise .corruptStream k) ∨
    (256 + r.keys.length = depth ∧ decStep depth k b = .raise .dictFull k) ∨
    ∃ b' str, refEntry r k.toNat = some str ∧ decStep depth k b = .ok (b', str) ∧ Tracks depth b' (refDecNext r str) := by
  have hnext := h.keys.next
  rcases Nat.lt_or_ge b.nextCode.toNat k.toNat with hgt | hle
  · exact .inl ⟨refEntry_of_gt (hnext ▸ hgt), decStep_corrupt h.firstSeen hgt⟩
  refine .inr ?_
  rcases decStep_later h.core h.firstSeen hle with ⟨hfull, he⟩ | ⟨hroom, w, f, str, hw, hstr, hhead, hknown, hself, he⟩
  · exact .inl ⟨hnext.symm.trans hfull, he⟩
  obtain rfl := hw.unique h.w_denotes
  have hentry : refEntry r k.toNat = some str := by
    rcases Nat.lt_or_eq_of_le hle with hlt | heq
    · exact refEntry_of_key (h.keys.refString_of_denotes hlt (hknown hlt))
    · obtain ⟨rfl, hwhead⟩ := hself heq
      rw [refEntry_of_next (heq.trans hnext), List.take_one, hwhead, Option.toList_some]
  have hkeys : KeysOf (decoded k f b).dmem (decoded k f b).nextCode.toNat (refDecNext r str).keys := by
    rw [refDecNext, List.take_one, hhead, Option.toList_some, decoded, nextCode_add_one h.core.depth_legal.2 hroom]
    exact h.keys.write h.core.w_known h.w_denotes
  exact .inr ⟨decoded k f b, str, hentry, he, decoded_coreInv h.core hroom hle, h.firstSeen, hkeys, hstr⟩

/-! ### The commands of a generic decode, one after another (R83, R145) -/

/-- The items of a string's symbols (R142). -/
def symItems (str : Str) : List Item := str.map fun c => { kind := .sym, data := c.setWidth 32 }

/-- A generic decode that has received a code is in progress and stands where the source's variables stand; the host had
`base` before the operation. -/
structure Decodes (base : List Item) (s : State) (r : RefDec) : Prop where
  mode : s.mode = .dec
  tracks : Tracks s.cfg.dictDepth s.toBlock r
  out : stream s = base ++ symItems r.out

/-- The machine has ended a decode with the source's verdict, and on success the host has the source's symbols (R145). -/
def EndsAs (base : List Item) (result : Except ErrCode Str) (t : State) : Prop :=
  match result with
  | .ok out => t.mode = .idle ∧ t.taken = base ++ symItems out
  | .error e => FailedWith e t

/-- Once an operation has failed, its other stream commands and its END are dropped, and the host's wait changes nothing of
that. -/
theorem issueAll_settle_of_failed {α : Type} {s : State} {e : ErrCode} (h : FailedWith e s) (command : α → Instr)
    (last : Instr) (hcommand : ∀ a, isBegin (command a) = false) (hlast : isBegin last = false) (as : List α) :
    ∃ t, issueAll (as.map command ++ [last]) (settle s) = .next t ∧ FailedWith e t :=
  issueAll_of_failed (s := settle s) h
    (List.forall_mem_append.2 ⟨List.forall_mem_map.2 fun a _ => hcommand a, List.forall_mem_singleton.2 hlast⟩)

section Decodes

variable {base : List Item} {s : State} {r : RefDec}

/-- The host's wait moves items, and loses none. -/
theorem Decodes.settle (h : Decodes base s r) : Decodes base (settle s) r where
  mode := h.mode
  tracks := h.tracks.congr rfl rfl rfl rfl
  out := (settle_stream s).trans h.out

/-- What `D_CODE` emits goes to the end of the stream. -/
theorem Decodes.emitted {k : Word} {b : Block} {str : Str} (hm : s.mode = .dec)
    (hstep : decStep s.cfg.dictDepth k s.toBlock = .ok (b, str)) (ht : Tracks s.cfg.dictDepth b r)
    (hout : base ++ symItems r.out = stream s ++ symItems str) :
    Decodes base (withBlock s (emitSyms str b)) r := by
  obtain ⟨_, _, _, _, rfl⟩ := decStep_frame hstep
  refine ⟨hm, ht.congr rfl rfl rfl rfl, ?_⟩
  rw [hout]
  exact (List.append_assoc _ _ _).symm

/-- `D_CODE` of a later code is the source's step 4, or ends in `DictFullError` (R142). -/
theorem Decodes.exec_dCode (h : Decodes base s r) (k : Word) :
    ∃ t, exec (.dCode k) s = .next t ∧
      ((refEntry r k.toNat = none ∧ FailedWith .corruptStream t) ∨
        (256 + r.keys.length = s.cfg.dictDepth ∧ FailedWith .dictFull t) ∨
        ∃ str, refEntry r k.toNat = some str ∧ Decodes base t (refDecNext r str)) := by
  rcases h.tracks.decStep_cases k with ⟨hnone, he⟩ | ⟨hfull, he⟩ | ⟨b, str, hsome, he, ht⟩
  · exact ⟨_, exec_dCode_of_raise h.mode he, .inl ⟨hnone, rfl, rfl⟩⟩
  · exact ⟨_, exec_dCode_of_raise h.mode he, .inr (.inl ⟨hfull, rfl, rfl⟩)⟩
  · refine ⟨_, exec_dCode_of_ok h.mode he, .inr (.inr ⟨str, hsome, .emitted h.mode he ht ?_⟩)⟩
    simp [h.out, refDecNext, symItems]

/-- The later codes and `D_END`, from where the source's variables stand. -/
theorem Decodes.issueAll (h : Decodes base s r) (codes : List Word) :
    ∃ t, issueAll (codes.map .dCode ++ [.dEnd]) s = .next t ∧
      ((s.cfg.dictDepth < 256 + r.keys.length + codes.length ∧ FailedWith .dictFull t) ∨
        EndsAs base (refDecLoop r (codes.map BitVec.toNat)) t) := by
  induction codes generalizing s r with
  | nil => exact ⟨_, issueAll_cons_of_next [] (exec_dEnd_of_firstSeen h.mode h.tracks.firstSeen), .inr ⟨rfl, h.out⟩⟩
  | cons k codes ih =>
    obtain ⟨t, ht, hcase⟩ := h.exec_dCode k
    have hcfg := exec_cfg ht
    rw [List.map_cons, List.map_cons, List.cons_append, issueAll_cons_of_next _ ht]
    rcases hcase with ⟨hnone, hfail⟩ | ⟨hfull, hfail⟩ | ⟨str, hsome, hrun⟩
    · obtain ⟨u, hu, hfailed⟩ := issueAll_settle_of_failed hfail .dCode .dEnd (fun _ => rfl) rfl codes
      rw [refDecLoop_cons_of_none hnone]
      exact ⟨u, hu, .inr hfailed⟩
    · obtain ⟨u, hu, hfailed⟩ := issueAll_settle_of_failed hfail .dCode .dEnd (fun _ => rfl) rfl codes
      rw [List.length_cons]
      exact ⟨u, hu, .inl ⟨by omega, hfailed⟩⟩
    · obtain ⟨u, hu, hend⟩ := ih hrun.settle
      rw [refDecLoop_cons_of_some hsome, List.length_cons]
      rw [refDecNext_keys_length] at hend
      refine ⟨u, hu, hend.imp_left fun ⟨hlong, hfailed⟩ => ⟨?_, hfailed⟩⟩
      change t.cfg.dictDepth < _ at hlong
      rw [hcfg] at hlong
      omega

end Decodes

/-- `wordSym` of a code below 256 is the seed's symbol (R141, step 3). -/
theorem wordSym_eq_ofNat (k : Word) : wordSym k = BitVec.ofNat 8 k.toNat := by
  apply BitVec.eq_of_toNat_eq
  simp [wordSym]

/-- `D_CODE` of a first code is the source's step 3 (R141). -/
theorem exec_dCode_first {s : State} (h : CoreInv s.cfg.dictDepth s.toBlock) (hm : s.mode = .dec)
    (hf : s.firstSeen = false) (hn : s.nextCode = 256) (k : Word) : ∃ t, exec (.dCode k) s = .next t ∧
      ((k.toNat < 256 ∧ Decodes (stream s) t (refDecFirst k.toNat)) ∨ (¬ k.toNat < 256 ∧ FailedWith .unknownCode t)) := by
  have hstep := decStep_first (depth := s.cfg.dictDepth) (k := k) hf
  by_cases hk : k.toNat < 256
  · rw [if_pos hk] at hstep
    refine ⟨_, exec_dCode_of_ok hm hstep, .inl ⟨hk, .emitted hm hstep (.first h hn hk) ?_⟩⟩
    rw [wordSym_eq_ofNat]
    rfl
  · rw [if_neg hk] at hstep
    exact ⟨_, exec_dCode_of_raise hm hstep, .inr ⟨hk, rfl, rfl⟩⟩

/-- A generic decode ends as the source's decompress does, or in `DictFullError`, and in that only where the codes after the
first are more than the codes `DICT_DEPTH` leaves to assign (R145, R142). -/
theorem issueAll_decodeOperation {s : State} (h : Inv s) (hm : s.mode = .idle ∨ s.mode = .error) (hp : s.pend = [])
    (hq : s.outq = []) (codes : List Word) :
    ∃ t, issueAll (decodeOperation codes) s = .next t ∧
      ((s.cfg.dictDepth < 255 + codes.length ∧ FailedWith .dictFull t) ∨
        EndsAs s.taken (refDecompress (codes.map BitVec.toNat)) t) := by
  have hbegin : exec .dBegin s = .next (withBlock s (dBeginBody s.toBlock)) := beginOperation_of_legal hm
  have hinv : Inv (withBlock s (dBeginBody s.toBlock)) := h.begun nofun fun _ => ⟨rfl, rfl⟩
  have hcore : CoreInv s.cfg.dictDepth (settle (withBlock s (dBeginBody s.toBlock))).toBlock :=
    (CoreInv.of_inv hinv).congr rfl rfl rfl
  have hstream : stream (settle (withBlock s (dBeginBody s.toBlock))) = s.taken := by
    simp [settle, withBlock, dBeginBody, hp, hq]
  rw [decodeOperation, List.cons_append, issueAll_cons_of_next _ hbegin]
  cases codes with
  | nil => exact ⟨_, issueAll_cons_of_next [] (exec_dEnd_of_not_firstSeen rfl rfl), .inr ⟨rfl, rfl⟩⟩
  | cons k codes =>
    obtain ⟨t, ht, hcase⟩ := exec_dCode_first (s := settle (withBlock s (dBeginBody s.toBlock))) hcore rfl rfl rfl k
    have hcfg : t.cfg = s.cfg := (exec_cfg ht).trans rfl
    rw [hstream] at hcase
    rw [List.map_cons, List.map_cons, List.cons_append, issueAll_cons_of_next _ ht]
    rcases hcase with ⟨hk, hrun⟩ | ⟨hk, hfail⟩
    · obtain ⟨u, hu, hend⟩ := hrun.settle.issueAll codes
      rw [refDecompress_cons_of_lt hk, List.length_cons]
      refine ⟨u, hu, hend.imp_left fun ⟨hlong, hfailed⟩ => ⟨?_, hfailed⟩⟩
      change t.cfg.dictDepth < 256 + 0 + _ at hlong
      rw [hcfg] at hlong
      omega
    · obtain ⟨u, hu, hfailed⟩ := issueAll_settle_of_failed hfail .dCode .dEnd (fun _ => rfl) rfl codes
      rw [refDecompress_cons_of_ge hk]
      exact ⟨u, hu, .inr hfailed⟩

end Sys2Proof.Machine

namespace Sys2Proof.Proofs

open Sys2Proof.Machine Sys2Proof.Safety

/-- Settles O55: the operation ends as the source does, or in `DictFullError`. -/
theorem decodeMatchesTheSource : Obligations.DecodeMatchesTheSource := by
  intro s codes h hm hp hq
  obtain ⟨t, ht, ⟨-, hfull⟩ | hend⟩ := issueAll_decodeOperation h hm hp hq codes
  · exact ⟨t, ht, .inl hfull⟩
  · refine ⟨t, ht, .inr ?_⟩
    cases hres : refDecompress (codes.map BitVec.toNat) with
    | ok out =>
      rw [hres] at hend
      exact .inl ⟨out, rfl, hend⟩
    | error e =>
      rw [hres] at hend
      exact .inr ⟨e, rfl, hend⟩

end Sys2Proof.Proofs
end

section
/-!
The generic round trip (43_generic_decode.md R144). On the source's algorithms: decompress, reading the codes as compress puts
them out, is one key behind. On the block: an encode that completes has assigned as many codes as its decode will, so the
decode meets no full dictionary.
-/

namespace Sys2Proof.Machine

open Sys2Proof.Safety

/-! ### The source's codes and strings -/

/-- The source's code of a string is the code of a key with that string. -/
theorem refString_of_refCode {keys : List Str} {str : Str} {k : Nat} (h : refCode keys str = some k) :
    refString keys k = some str := by
  by_cases hlen : str.length = 1
  · obtain ⟨a, rfl⟩ := List.length_eq_one_iff.1 hlen
    obtain rfl : a.toNat = k := Option.some.inj h
    rw [refString, if_pos a.isLt, BitVec.ofNat_toNat, BitVec.setWidth_eq]
  · rw [refCode_of_length_ne_one keys hlen, Option.map_eq_some_iff] at h
    obtain ⟨i, hi, rfl⟩ := h
    obtain ⟨hlt, hkey, -⟩ := List.findIdx?_eq_some_iff_getElem.1 hi
    rw [refString, if_neg (by omega), Nat.add_sub_cancel_left, List.getElem?_eq_getElem hlt, of_decide_eq_true hkey]

theorem refString_lt {keys : List Str} {str : Str} {k : Nat} (h : refString keys k = some str) : k < 256 + keys.length := by
  by_contra hge
  cases (refString_of_ge (Nat.not_lt.1 hge)).symm.trans h

/-- With no key inserted only single symbols have a code. -/
theorem refCode_nil_eq_some {str : Str} {k : Nat} (h : refCode [] str = some k) : k < 256 ∧ str = [BitVec.ofNat 8 k] := by
  have hstr := refString_of_refCode h
  have hk : k < 256 := refString_lt hstr
  rw [refString, if_pos hk, Option.some.injEq] at hstr
  exact ⟨hk, hstr.symm⟩

/-- A decoder whose next key is already the encoder's last one has the entry of every key of the encoder that goes on with the
first symbol of the match: it is a key of its own, or the self-reference case. -/
theorem refEntry_of_refString_concat {d : RefDec} {str : Str} {k : Nat} (hw : d.w ≠ [])
    (h : refString (d.keys ++ [d.w ++ str.take 1]) k = some str) : refEntry d k = some str := by
  by_cases hlt : k < 256 + d.keys.length
  · refine refEntry_of_key ?_
    rw [← h, refString, refString]
    split_ifs
    · rfl
    · rw [List.getElem?_append_left (by omega)]
  · have hk : k = 256 + d.keys.length := by
      have := refString_lt h
      rw [List.length_append, List.length_singleton] at this
      omega
    rw [refString, if_neg (by omega), hk, Nat.add_sub_cancel_left, List.getElem?_concat_length, Option.some.injEq] at h
    have hfirst : d.w.take 1 = str.take 1 := by
      rw [← h, List.take_append_of_le_length (List.length_pos_iff.2 hw)]
    rw [refEntry_of_next hk, hfirst, h]

/-! ### Decompress runs one key behind compress -/

/-- Where decompress stands when it has read the codes compress has put out for `done`, all but the running match: before the
first code, or at variables `d` that lack the last key and the symbols of the match. -/
inductive Behind (done : Str) (r : RefEnc) : Prop where
  | start (hkeys : r.keys = []) (hout : r.out = []) (hdone : r.w = done)
  | later (d : RefDec) (hread : ∀ rest, refDecompress (r.out ++ rest) = refDecLoop d rest) (hw : d.w ≠ [])
      (hkeys : r.keys = d.keys ++ [d.w ++ r.w.take 1]) (hdone : d.out ++ r.w = done)

/-- Reading the code of the running match, decompress catches up. -/
theorem Behind.read {done : Str} {r : RefEnc} {k : Nat} (h : Behind done r) (hk : refCode r.keys r.w = some k) (rest : List Nat) :
    refDecompress (r.out ++ k :: rest) = refDecLoop { keys := r.keys, w := r.w, out := done } rest := by
  cases h with
  | start hkeys hout hdone =>
    rw [hkeys] at hk
    obtain ⟨hlt, hw⟩ := refCode_nil_eq_some hk
    rw [hout, List.nil_append, refDecompress_cons_of_lt hlt, ← hdone, hkeys, hw]
    rfl
  | later d hread hw hkeys hdone =>
    have hstr := refString_of_refCode hk
    rw [hkeys] at hstr
    rw [hread, refDecLoop_cons_of_some (refEntry_of_refString_concat hw hstr), refDecNext, ← hkeys, hdone]

/-- Compress after the symbols `done`, at least one: the match has a code, each key went with a code, and decompress is one key
behind. -/
structure Compressed (done : Str) (r : RefEnc) : Prop where
  behind : Behind done r
  w_ne_nil : r.w ≠ []
  w_key : ∃ k, refCode r.keys r.w = some k
  count : r.out.length = r.keys.length
  below : ∀ k ∈ r.out, k < 256 + r.keys.length

theorem Compressed.first (c : Sym) : Compressed [c] (refEncStep { keys := [], w := [], out := [] } c) where
  behind := .start rfl rfl rfl
  w_ne_nil := List.cons_ne_nil _ _
  w_key := ⟨c.toNat, rfl⟩
  count := rfl
  below := nofun

theorem Compressed.step {done : Str} {r : RefEnc} (h : Compressed done r) (c : Sym) : Compressed (done ++ [c]) (refEncStep r c) := by
  obtain ⟨hbehind, hne, ⟨k, hk⟩, hcount, hbelow⟩ := h
  cases hcode : refCode r.keys (r.w ++ [c]) with
  | some j =>
    rw [refEncStep_of_isSome (by rw [hcode]; rfl)]
    refine ⟨?_, by simp, ⟨j, hcode⟩, hcount, hbelow⟩
    cases hbehind with
    | start hkeys hout hdone => exact .start hkeys hout (hdone ▸ rfl)
    | later d hread hw hkeys hdone =>
      refine .later d hread hw ?_ (hdone ▸ (List.append_assoc _ _ _).symm)
      rw [List.take_append_of_le_length (List.length_pos_iff.2 hne)]
      exact hkeys
  | none =>
    rw [refEncStep_of_eq_none hcode hk]
    have hklt := refString_lt (refString_of_refCode hk)
    refine ⟨.later { keys := r.keys, w := r.w, out := done } (fun rest => ?_) hne rfl rfl, List.cons_ne_nil _ _,
      ⟨c.toNat, rfl⟩, by simp [hcount], ?_⟩
    · rw [List.append_assoc]
      exact hbehind.read hk rest
    · rw [List.length_append, List.length_singleton]
      exact List.forall_mem_append.2
        ⟨fun j hj => (hbelow j hj).trans (Nat.lt_succ_self _), List.forall_mem_singleton.2 (hklt.trans (Nat.lt_succ_self _))⟩

theorem Compressed.foldl {done : Str} {r : RefEnc} (h : Compressed done r) (str : Str) :
    Compressed (done ++ str) (str.foldl refEncStep r) := by
  induction str generalizing done r with
  | nil => simpa using h
  | cons c str ih => simpa using ih (h.step c)

/-- The keys §4.1 compress has inserted at the end of a string. -/
def refKeys (str : Str) : List Str := (str.foldl refEncStep { keys := [], w := [], out := [] }).keys

/-- Of a string that is not empty, compress puts out one code more than it inserts keys, each of them a code of a key, and
decompress gives the string back. -/
theorem refCompress_spec {str : Str} (hne : str ≠ []) : (refCompress str).length = (refKeys str).length + 1 ∧
    (∀ k ∈ refCompress str, k < 256 + (refKeys str).length) ∧ refDecompress (refCompress str) = .ok str := by
  obtain ⟨c, cs, rfl⟩ := List.exists_cons_of_ne_nil hne
  obtain ⟨hbehind, hw, ⟨k, hk⟩, hcount, hbelow⟩ := (Compressed.first c).foldl cs
  rw [← List.foldl_cons] at hbehind hw hk hcount hbelow
  rw [refCompress_eq, refFinish, if_neg hw, hk, Option.toList_some, refKeys]
  refine ⟨by rw [List.length_append, hcount, List.length_singleton], ?_, hbehind.read hk []⟩
  exact List.forall_mem_append.2 ⟨hbelow, List.forall_mem_singleton.2 (refString_lt (refString_of_refCode hk))⟩

/-! ### An encode that completes -/

/-- An encode that completes has found room for every key of the source. -/
theorem Encodes.room {base : List Item} {s t : State} {r : RefEnc} (h : Encodes .enc base s r) {str : Str}
    (ht : Machine.issueAll (str.map (fun c => .eSym (symWord c)) ++ [.eEnd]) s = .next t) (htm : t.mode = .idle) :
    256 + (str.foldl refEncStep r).keys.length ≤ s.cfg.dictDepth := by
  induction str generalizing s r with
  | nil => exact h.sim.keys.next ▸ h.sim.core.next_range.2
  | cons c str ih =>
    obtain ⟨s', hs', hcase⟩ := h.exec_eSym c
    have hcfg : s'.cfg = s.cfg := exec_cfg hs'
    rw [List.map_cons, List.cons_append, issueAll_cons_of_next _ hs'] at ht
    rcases hcase with hrun | hfull
    · exact (ih hrun.settle ht).trans_eq (congrArg Config.dictDepth hcfg)
    · obtain ⟨u, hu, hfail, -⟩ := issueAll_settle_of_failed hfull (fun c => .eSym (symWord c)) .eEnd (fun _ => rfl) rfl str
      cases hu.symm.trans ht
      cases hfail.symm.trans htm

/-- A generic encode that completes has given the host the codes of the source's compress, and `DICT_DEPTH` has room for its
keys. -/
theorem encodeOperation_completes {s t : State} {str : Str} (h : Inv s) (hm : s.mode = .idle ∨ s.mode = .error) (hp : s.pend = [])
    (hq : s.outq = []) (ht : issueAll (encodeOperation str) s = .next t) (htm : t.mode = .idle) :
    t.taken = s.taken ++ codeItems (refCompress str) ∧ 256 + (refKeys str).length ≤ s.cfg.dictDepth := by
  have hbegin : exec .eBegin s = .next (withBlock s (eBeginBody s.toBlock)) := beginOperation_of_legal hm
  have hbegun := (encodes_of_eBegin h).settle
  rw [hp, hq, List.append_nil, List.append_nil] at hbegun
  rw [encodeOperation, List.cons_append, issueAll_cons_of_next _ hbegin] at ht
  obtain ⟨t', ht', hend⟩ := hbegun.issueAll str
  cases ht'.symm.trans ht
  rcases hend with ⟨-, htaken⟩ | ⟨hfail, -⟩
  · exact ⟨htaken, hbegun.room ht htm⟩
  · cases hfail.symm.trans htm

/-- Codes that fit a command's operand are read back from their items. -/
theorem map_toNat_codeItems {ks : List Nat} (h : ∀ k ∈ ks, k < 2 ^ 32) : ((codeItems ks).map (·.data)).map BitVec.toNat = ks := by
  rw [codeItems, List.map_map, List.map_map]
  refine (List.map_congr_left fun k hk => ?_).trans (List.map_id ks)
  exact (BitVec.toNat_ofNat k 32).trans (Nat.mod_eq_of_lt (h k hk))

end Sys2Proof.Machine

namespace Sys2Proof.Proofs

open Sys2Proof.Machine Sys2Proof.Safety

/-- Settles O56: the decode reads the codes of the source's compress, which decompress undoes, and no more of them than the
encode has found room for. -/
theorem genericRoundTrip : Obligations.GenericRoundTrip := by
  intro s t u str codes h hm hp hq hu hum hup huq hdepth ht htm hcodes
  obtain ⟨htaken, hroom⟩ := encodeOperation_completes h hm hp hq ht htm
  rw [htaken, List.drop_left] at hcodes
  have hlegal : u.cfg.Legal := hu.cfg_legal
  obtain ⟨v, hv, hend⟩ := issueAll_decodeOperation hu hum hup huq codes
  refine ⟨v, hv, fun hne => ?_, fun hnil => ?_⟩
  · obtain ⟨hlen, hbelow, hback⟩ := refCompress_spec hne
    have hcount : codes.length = (refKeys str).length + 1 := by simp [hcodes, codeItems, hlen]
    have hnat : codes.map BitVec.toNat = refCompress str :=
      hcodes ▸ map_toNat_codeItems fun k hk => (hbelow k hk).trans_le (by omega)
    rw [hnat, hback] at hend
    exact hend.resolve_left fun ⟨hlong, _⟩ => by omega
  · rw [hcodes, hnil] at hend
    have hshort : ¬ u.cfg.dictDepth < 255 := Nat.not_lt.2 (Nat.le_of_succ_le hlegal.1)
    exact hend.resolve_left fun ⟨hlong, _⟩ => hshort hlong

end Sys2Proof.Proofs
end

section
/-!
The order of the pixels (44_pixel_encode.md R165, 45_pixel_decode.md R184): row-major order and reshape, and the place of a pixel.
-/

namespace Sys2Proof.Machine

section Grid

variable {α : Type} {w : Nat} {grid : List (List α)}

theorem rowMajor_cons (row : List α) (grid : List (List α)) : rowMajor (row :: grid) = row ++ rowMajor grid := rfl

theorem reshape_succ (w h : Nat) (pixels : List α) :
    reshape w (h + 1) pixels = pixels.take w :: reshape w h (pixels.drop w) := rfl

/-- Cutting rows of the grid's own width undoes row-major order (R184). -/
theorem reshape_rowMajor (hw : ∀ row ∈ grid, row.length = w) : reshape w grid.length (rowMajor grid) = grid := by
  induction grid with
  | nil => rfl
  | cons row grid ih =>
    obtain ⟨hrow, hrest⟩ := List.forall_mem_cons.1 hw
    rw [List.length_cons, reshape_succ, rowMajor_cons, List.take_left' hrow, List.drop_left' hrow, ih hrest]

/-- Pixel `i` of the stream stands at row `i div w`, column `i mod w` (R165). -/
theorem getElem?_rowMajor (hpos : 0 < w) (hw : ∀ row ∈ grid, row.length = w) (i : Nat) :
    (rowMajor grid)[i]? = (grid[i / w]?).bind (fun row => row[i % w]?) := by
  induction grid generalizing i with
  | nil => rfl
  | cons row grid ih =>
    obtain ⟨rfl, hrest⟩ := List.forall_mem_cons.1 hw
    rw [rowMajor_cons]
    rcases Nat.lt_or_ge i row.length with hlt | hge
    · rw [List.getElem?_append_left hlt, Nat.div_eq_of_lt hlt, Nat.mod_eq_of_lt hlt]
      rfl
    · rw [List.getElem?_append_right hge, ih hrest, Nat.div_eq_sub_div hpos hge, Nat.mod_eq_sub_mod hge,
        List.getElem?_cons_succ]

end Grid

end Sys2Proof.Machine

namespace Sys2Proof.Proofs

open Sys2Proof.Machine

/-- Settles O60: both by induction on the rows; a grid that has a pixel has rows of positive width. -/
theorem reshapeOfRowMajor : Obligations.ReshapeOfRowMajor := by
  rintro w h grid rfl hw
  exact ⟨reshape_rowMajor hw, fun i hi => getElem?_rowMajor (Nat.pos_of_mul_pos_right (Nat.zero_lt_of_lt hi)) hw i⟩

end Sys2Proof.Proofs
end

section
/-!
The pixel encoder (44_pixel_encode.md): `P_PIX` by the steps of its three digits (R161, R162), and a whole pixel encode against the
source's pixel compress (R164).
-/

namespace Sys2Proof.Machine

open Sys2Proof.Safety

/-! ### The three steps of a pixel (R161) -/

section PixelSteps

variable {depth : Nat} {b : Block}

/-- Three symbols in one command: three steps, or `DictFullError` at the first that finds the dictionary full. -/
theorem encSteps_three_cases (h : CoreInv depth b) (operand : Word) (x y z : Sym) :
    (∃ b1 b2 b3, EncStepRel depth x b b1 ∧ EncStepRel depth y b1 b2 ∧ EncStepRel depth z b2 b3 ∧
      encSteps depth operand [x, y, z] b = .ok b3) ∨
    ((EncFull depth x b ∨ (∃ b1, EncStepRel depth x b b1 ∧ EncFull depth y b1) ∨
        (∃ b1 b2, EncStepRel depth x b b1 ∧ EncStepRel depth y b1 b2 ∧ EncFull depth z b2)) ∧
      encSteps depth operand [x, y, z] b = .raise .dictFull operand) := by
  simp only [encSteps]
  rcases encStep_cases h operand x with ⟨b1, hx, ex⟩ | ⟨hfull, ex⟩
  · have h1 := encStepRel_coreInv h hx
    rw [ex, Res.bind_ok]
    rcases encStep_cases h1 operand y with ⟨b2, hy, ey⟩ | ⟨hfull, ey⟩
    · have h2 := encStepRel_coreInv h1 hy
      rw [ey, Res.bind_ok]
      rcases encStep_cases h2 operand z with ⟨b3, hz, ez⟩ | ⟨hfull, ez⟩
      · exact .inl ⟨b1, b2, b3, hx, hy, hz, by rw [ez, Res.bind_ok]⟩
      · exact .inr ⟨.inr (.inr ⟨b1, b2, hx, hy, hfull⟩), by rw [ez, Res.bind_raise]⟩
    · exact .inr ⟨.inr (.inl ⟨b1, hx, hfull⟩), by rw [ey, Res.bind_raise]⟩
  · exact .inr ⟨.inl hfull, by rw [ex, Res.bind_raise]⟩

/-- With room for an insert per symbol the steps complete (R161, R93). -/
theorem encSteps_completes (h : CoreInv depth b) (operand : Word) {cs : Str} (hroom : b.nextCode.toNat + cs.length ≤ depth) :
    ∃ b', encSteps depth operand cs b = .ok b' := by
  induction cs generalizing b with
  | nil => exact ⟨b, rfl⟩
  | cons c cs ih =>
    rw [List.length_cons] at hroom
    rcases encStep_cases h operand c with ⟨b1, hr, he⟩ | ⟨⟨-, -, hfull⟩, -⟩
    · have hle := (encStepRel_grows h hr).le_add
      rw [encSteps, he, Res.bind_ok]
      exact ih (encStepRel_coreInv h hr) (by omega)
    · omega

end PixelSteps

/-! ### `P_PIX` in its own mode (R162) -/

section PixelCommand

variable {v : Word} {s : State}

theorem exec_pPix_of_inRange (hm : s.mode = .penc) (hv : pixInRange v) : exec (.pPix v) s =
    finish 0x22 s ((encSteps s.cfg.dictDepth v (pixDigits (signed32 v).toNat) s.toBlock).map countPixel) := by
  have hbody : pPixBody s.cfg.dictDepth v s.toBlock =
      (serializePixel s.cfg.dictDepth v (signed32 v).toNat s.toBlock).map countPixel := if_pos hv
  exact (inOperation_own hm nofun).trans (congrArg (finish 0x22 s) hbody)

theorem exec_pPix_of_not_inRange (hm : s.mode = .penc) (hv : ¬ pixInRange v) :
    exec (.pPix v) s = .next (raiseError .pixelRange 0x22 v s) := by
  have hbody : pPixBody s.cfg.dictDepth v s.toBlock = .raise .pixelRange v := if_neg hv
  exact (inOperation_own hm nofun).trans (congrArg (finish 0x22 s) hbody)

end PixelCommand

/-! ### The source's pixel compress (R164) -/

/-- The symbols of a pixel sequence: the digits of each pixel, in order (R79). -/
def pixelSymbols (pixels : List Word) : Str := pixels.flatMap fun v => pixDigits (signed32 v).toNat

theorem pixelSymbols_cons (v : Word) (pixels : List Word) :
    pixelSymbols (v :: pixels) = pixDigits (signed32 v).toNat ++ pixelSymbols pixels := rfl

/-- The source's range check on the pixels' values is the block's on their operands (R71). -/
theorem forall_mem_map_toInt {pixels : List Word} :
    (∀ x ∈ pixels.map BitVec.toInt, 0 ≤ x ∧ x ≤ 255) ↔ ∀ v ∈ pixels, pixInRange v := List.forall_mem_map

theorem refPixelCompress_of_inRange {pixels : List Word} (h : ∀ v ∈ pixels, pixInRange v) :
    refPixelCompress (pixels.map BitVec.toInt) = .ok (refCompress (pixelSymbols pixels)) := by
  rw [refPixelCompress, if_pos (forall_mem_map_toInt.2 h), List.flatMap_map]
  rfl

theorem refPixelCompress_of_not_inRange {pixels : List Word} (h : ¬ ∀ v ∈ pixels, pixInRange v) :
    refPixelCompress (pixels.map BitVec.toInt) = .error .pixelRange := by
  rw [refPixelCompress, if_neg (forall_mem_map_toInt.not.2 h)]

/-! ### The commands of a pixel encode, one after another (R83, R164) -/

/-- A pixel encode of a `w` by `ht` image is in progress, and stands where the source's variables stand. -/
structure PixelEncodes (w ht : Dim) (base : List Item) (s : State) (r : RefEnc) : Prop extends Encodes .penc base s r where
  imgW : s.imgW = w
  imgH : s.imgH = ht

/-- `P_BEGIN` puts the block where the source starts (R160). -/
theorem pixelEncodes_of_pBegin {s : State} (h : Inv s) (w ht : Dim) : PixelEncodes w ht (s.taken ++ s.outq ++ s.pend)
    (withBlock s (pBeginBody w ht s.toBlock)) { keys := [], w := [], out := [] } where
  mode := rfl
  sim := Simulates.begun (CoreInv.of_inv (h.begun nofun (by simp) : Inv (withBlock s (pBeginBody w ht s.toBlock)))) rfl rfl
  imgW := rfl
  imgH := rfl

section PixelEncodes

variable {w ht : Dim} {base : List Item} {s : State} {r : RefEnc}

theorem PixelEncodes.settle (h : PixelEncodes w ht base s r) : PixelEncodes w ht base (settle s) r :=
  { h with toEncodes := h.toEncodes.settle }

/-- `P_PIX` of a pixel in range is the source's steps on its digits, or ends in `DictFullError`; out of range it ends in
`PixelRangeError` (R162, R204). -/
theorem PixelEncodes.exec_pPix (h : PixelEncodes w ht base s r) (v : Word) : ∃ t, exec (.pPix v) s = .next t ∧
    (pixInRange v ∧ PixelEncodes w ht base t ((pixDigits (signed32 v).toNat).foldl refEncStep r) ∨
      FailedWith .dictFull t ∨ ¬ pixInRange v ∧ FailedWith .pixelRange t) := by
  by_cases hv : pixInRange v
  · rw [exec_pPix_of_inRange h.mode hv]
    rcases encSteps_total h.sim.core v (pixDigits (signed32 v).toNat) with ⟨b, he⟩ | he
    · have hsim := h.sim.encSteps he
      have hcounted : Simulates s.cfg.dictDepth base (s.taken ++ s.outq) (countPixel b) _ :=
        { hsim with core := hsim.core.congr rfl rfl rfl }
      rw [he]
      obtain ⟨_, _, _, _, _, rfl⟩ := encSteps_frame h.sim.core he
      exact ⟨_, rfl, .inl ⟨hv, ⟨h.mode, hcounted⟩, h.imgW, h.imgH⟩⟩
    · rw [he]
      exact ⟨_, rfl, .inr (.inl ⟨rfl, rfl⟩)⟩
  · exact ⟨_, exec_pPix_of_not_inRange h.mode hv, .inr (.inr ⟨hv, rfl, rfl⟩)⟩

/-- How the rest of a pixel encode ends where the source's variables stand at `r`: with all the source's codes, in `DictFullError`,
or in `PixelRangeError` where a pixel is out of range. -/
def PixelEncodeEnds (w ht : Dim) (base : List Item) (r : RefEnc) (pixels : List Word) (t : State) : Prop :=
  ((∀ v ∈ pixels, pixInRange v) ∧ t.mode = .idle ∧ t.imgW = w ∧ t.imgH = ht ∧
    t.taken = base ++ codeItems (refFinish ((pixelSymbols pixels).foldl refEncStep r))) ∨
  FailedWith .dictFull t ∨ (¬ (∀ v ∈ pixels, pixInRange v) ∧ FailedWith .pixelRange t)

/-- `P_END` is the source's last step (R163). -/
theorem PixelEncodes.pEnd (h : PixelEncodes w ht base s r) :
    PixelEncodeEnds w ht base r [] (Machine.settle (withBlock s (pEndBody s.toBlock))) := by
  have hout := h.sim.encFlush
  rw [encFlush_eq] at hout
  rw [pEndBody, encFlush_eq]
  exact .inl ⟨List.forall_mem_nil _, rfl, h.imgW, h.imgH, hout⟩

/-- The first pixel, in range, is the source's steps on its digits; the other pixels decide how the operation ends. -/
theorem PixelEncodeEnds.cons {pixels : List Word} {t : State} {v : Word} (hv : pixInRange v)
    (h : PixelEncodeEnds w ht base ((pixDigits (signed32 v).toNat).foldl refEncStep r) pixels t) :
    PixelEncodeEnds w ht base r (v :: pixels) t := by
  rw [PixelEncodeEnds, ← List.foldl_append, ← pixelSymbols_cons] at h
  have hall : (∀ x ∈ v :: pixels, pixInRange x) ↔ ∀ x ∈ pixels, pixInRange x :=
    List.forall_mem_cons.trans (and_iff_right hv)
  rwa [PixelEncodeEnds, hall]

/-- The pixels and `P_END`, from where the source's variables stand. -/
theorem PixelEncodes.issueAll (h : PixelEncodes w ht base s r) (pixels : List Word) :
    ∃ t, issueAll (pixels.map .pPix ++ [.pEnd]) s = .next t ∧ PixelEncodeEnds w ht base r pixels t := by
  induction pixels generalizing s r with
  | nil => exact ⟨_, issueAll_cons_of_next [] (exec_pEnd_of_penc h.mode), h.pEnd⟩
  | cons v pixels ih =>
    obtain ⟨t, htv, hcase⟩ := h.exec_pPix v
    rw [List.map_cons, List.cons_append, issueAll_cons_of_next _ htv]
    have hrest : ∀ i ∈ pixels.map .pPix ++ [.pEnd], isBegin i = false :=
      List.forall_mem_append.2 ⟨List.forall_mem_map.2 fun _ _ => rfl, List.forall_mem_singleton.2 rfl⟩
    rcases hcase with ⟨hv, hrun⟩ | hfull | ⟨hv, hrange⟩
    · obtain ⟨u, hu, hend⟩ := ih hrun.settle
      exact ⟨u, hu, hend.cons hv⟩
    · obtain ⟨u, hu, hfail⟩ := issueAll_of_failed (s := Machine.settle t) hfull hrest
      exact ⟨u, hu, .inr (.inl hfail)⟩
    · obtain ⟨u, hu, hfail⟩ := issueAll_of_failed (s := Machine.settle t) hrange hrest
      exact ⟨u, hu, .inr (.inr ⟨fun hall => hv (hall v List.mem_cons_self), hfail⟩)⟩

end PixelEncodes

end Sys2Proof.Machine

namespace Sys2Proof.Proofs

open Sys2Proof.Machine Sys2Proof.Safety

/-- Settles O27: the three steps of the digits, each of which completes or finds the dictionary full; the count then changes
`PIX_COUNT` only, which no step writes. -/
theorem pixelSerializesThreeDigits : Obligations.PixelSerializesThreeDigits := by
  intro v s p h hm hv hp
  have hcore := CoreInv.of_inv h
  have hrange : pixInRange v := by
    rw [pixInRange, signed32, hv]
    omega
  have hexec := exec_pPix_of_inRange hm hrange
  rw [signed32, hv, Int.toNat_natCast] at hexec
  rw [hexec]
  refine ⟨?_, fun hroom => ?_⟩
  · rcases encSteps_three_cases hcore v (digitSym (p / 100)) (digitSym (p / 10 % 10)) (digitSym (p % 10)) with
      ⟨b1, b2, b3, h1, h2, h3, he⟩ | ⟨hfull, he⟩
    · refine .inl ⟨b1, b2, b3, h1, h2, h3, ?_⟩
      have hcount : b3.pixCount = s.pixCount := by
        obtain ⟨_, _, _, _, _, rfl⟩ := encSteps_frame hcore he
        rfl
      rw [pixDigits, he, ← hcount]
      rfl
    · refine .inr ⟨hfull, ?_⟩
      rw [pixDigits, he]
      rfl
  · obtain ⟨b, he⟩ := encSteps_completes hcore v (cs := pixDigits p) hroom
    rw [he]
    obtain ⟨_, _, _, _, _, rfl⟩ := encSteps_frame hcore he
    exact ⟨_, rfl, hm⟩

/-- Settles O57: `P_BEGIN` puts the block where the source starts, every pixel in range keeps it there or ends in `DictFullError`,
and the first pixel out of range ends both in `PixelRangeError`. -/
theorem pixelEncodeMatchesTheSource : Obligations.PixelEncodeMatchesTheSource := by
  intro s w ht pixels h hm hp hq
  have hbegun := (pixelEncodes_of_pBegin h w ht).settle
  rw [hp, hq, List.append_nil, List.append_nil] at hbegun
  obtain ⟨t, hpixels, hend⟩ := hbegun.issueAll pixels
  have hbegin : exec (.pBegin w ht) s = .next (withBlock s (pBeginBody w ht s.toBlock)) := beginOperation_of_legal hm
  refine ⟨t, (issueAll_cons_of_next _ hbegin).trans hpixels, ?_⟩
  rcases hend with ⟨hall, hidle, hw, hht, htaken⟩ | hfull | ⟨hnot, hmode, herr⟩
  · exact .inr (.inl ⟨_, refPixelCompress_of_inRange hall, hidle, hw, hht, htaken⟩)
  · exact .inl hfull
  · exact .inr (.inr ⟨_, refPixelCompress_of_not_inRange hnot, hmode, herr⟩)

end Sys2Proof.Proofs
end

section
/-!
The pixel decoder's commands (45_pixel_decode.md): `DigitPush` by what waits in `DIG_BUF` (R181), `PD_CODE` that decodes (R182), and
`PD_END` by its checks in their order (R183, R205, R206).
-/

namespace Sys2Proof.Machine

open Sys2Proof.Safety

/-! ### `DigitPush` (R181) -/

theorem digitPush_of_short {s : Sym} {b : Block} (h : b.digBuf.length ≤ 1) :
    digitPush s b = { b with digBuf := b.digBuf ++ [s] } := by
  rcases hb : b.digBuf with _ | ⟨x, _ | ⟨y, rest⟩⟩
  · rw [digitPush, hb]
    rfl
  · rw [digitPush, hb]
    rfl
  · simp [hb] at h

theorem digitPush_of_two {x y z : Sym} {b : Block} (h : b.digBuf = [x, y]) : digitPush z b = completeChunk x y z b := by
  rw [digitPush, h]
  rfl

/-! ### `PD_CODE` that decodes (R182) -/

theorem exec_pdCode_of_ok {k : Word} {s : State} {b : Block} {str : Str} (hm : s.mode = .pdec)
    (h : decStep s.cfg.dictDepth k s.toBlock = .ok (b, str)) : exec (.pdCode k) s = .next (withBlock s (digitPushes str b)) := by
  rw [exec_pdCode_of_pdec hm, pdCodeBody, h]
  rfl

/-! ### `PD_END` in its own mode: the checks in their order (R183) -/

section PixelDecodeEnd

variable {s : State}

theorem exec_pdEnd_of_pdec (hm : s.mode = .pdec) : exec .pdEnd s = finish 0x33 s (pdEndBody s.toBlock) :=
  inOperation_own hm nofun

theorem exec_pdEnd_of_not_firstSeen (hm : s.mode = .pdec) (hf : s.firstSeen = false) :
    exec .pdEnd s = .next (raiseError .emptyInput 0x33 0 s) := by
  rw [exec_pdEnd_of_pdec hm, pdEndBody, if_pos hf]
  rfl

theorem exec_pdEnd_of_malformed (hm : s.mode = .pdec) (hf : s.firstSeen = true) (hd : s.digErr = true ∨ s.digBuf ≠ []) :
    exec .pdEnd s = .next (raiseError .malformedDigitStream 0x33 (malformedArg s.toBlock) s) := by
  rw [exec_pdEnd_of_pdec hm, pdEndBody, hf, if_neg nofun, if_pos (hd.imp_right (mt List.eq_nil_of_length_eq_zero))]
  rfl

/-- The digit checks pass, and the size check decides (R183, R206). -/
theorem exec_pdEnd_of_wellFormed (hm : s.mode = .pdec) (hf : s.firstSeen = true) (he : s.digErr = false) (hb : s.digBuf = []) :
    exec .pdEnd s = if s.pixCount.toNat = s.imgW.toNat * s.imgH.toNat then .next (withBlock s { s.toBlock with mode := .idle })
      else .next (raiseError .sizeMismatch 0x33 s.pixCount s) := by
  have hfirst : ¬ s.firstSeen = false := ne_false_of_eq_true hf
  have hdig : ¬ (s.digErr = true ∨ s.digBuf.length ≠ 0) := by simp [he, hb]
  rw [exec_pdEnd_of_pdec hm, pdEndBody, if_neg hfirst, if_neg hdig, ite_not]
  split_ifs
  · rfl
  · rfl

end PixelDecodeEnd

/-- What `MalformedDigitStreamError` records (R205). -/
theorem malformedArg_eq (b : Block) :
    malformedArg b = BitVec.ofNat 32 ((if b.digErr then 1 else 0) + 2 * b.digBuf.length) := by
  rw [malformedArg, Bool.toNat, Bool.cond_eq_ite]

end Sys2Proof.Machine

namespace Sys2Proof.Proofs

open Sys2Proof.Machine Sys2Proof.Safety

/-- Settles O34: the first two symbols wait; the third completes the chunk, valid or not. -/
theorem digitPush : Obligations.DigitPush := by
  intro x y z b
  refine ⟨fun hb => ?_, fun hb => ?_, fun hb hx hx' hy hy' hz hz' hle => ?_, fun hb hbad => ?_⟩
  · rw [digitPush_of_short (by simp [hb]), hb]
    rfl
  · rw [digitPush_of_short (by simp [hb]), hb]
    rfl
  · have hvalid : chunkValid x y z := ⟨⟨⟨hx, hx'⟩, ⟨hy, hy'⟩, hz, hz'⟩, hle⟩
    rw [digitPush_of_two hb, completeChunk, if_pos hvalid]
    rfl
  · have hinvalid : ¬ chunkValid x y z := fun ⟨⟨hx, hy, hz⟩, hle⟩ => hbad ⟨hx, hy, hz, hle⟩
    rw [digitPush_of_two hb, completeChunk, if_neg hinvalid]
    rfl

/-- Settles O35: `DecStep` gives the string, and its symbols go to the deserializer, which `digitPushes_eq` describes. -/
theorem pixelCodeDeserializes : Obligations.PixelCodeDeserializes := by
  intro k s h hm
  refine ⟨fun hf hk => ?_, fun hf hk hroom => ?_⟩
  · have hstep := decStep_first (depth := s.cfg.dictDepth) (k := k) hf
    rw [if_pos hk] at hstep
    rw [exec_pdCode_of_ok hm hstep, digitPushes_eq _ _ (by exact h.dig_len)]
    rfl
  · rcases decStep_later (CoreInv.of_inv h) hf hk with ⟨hfull, -⟩ | ⟨-, w, f, str, hw, -, hhead, hknown, hself, hstep⟩
    · exact absurd hfull hroom.ne
    · refine ⟨w, str, f, hw, hhead, hknown, fun heq => ?_, ?_⟩
      · obtain ⟨hstr, hwhead⟩ := hself heq
        rw [hstr, List.take_one, hwhead, Option.toList_some]
      · rw [exec_pdCode_of_ok hm hstep, digitPushes_eq _ _ (by exact h.dig_len)]
        rfl

/-- Settles O36: R111's checks, then R183's in their order; its opcode with a non-zero operand is an illegal word. -/
theorem pixelDecodeEnd : Obligations.PixelDecodeEnd := by
  refine ⟨fun s => ⟨fun hm => exec_of_error hm rfl, inOperation_of_other, exec_pdEnd_of_not_firstSeen, fun hm hf hd => ?_,
    fun hm hf he hb hsize => ?_, fun hm hf he hb hsize => ?_⟩, rfl,
    fun _ _ hx => ⟨execWord_noOperand_of_ne_error rfl hx, execWord_illegal_of_error (legal_noOperand rfl hx)⟩, rfl, rfl⟩
  · rw [exec_pdEnd_of_malformed hm hf hd, malformedArg_eq]
    rfl
  · rw [exec_pdEnd_of_wellFormed hm hf he hb, if_neg hsize]
    rfl
  · rw [exec_pdEnd_of_wellFormed hm hf he hb, if_pos hsize]
    rfl

end Sys2Proof.Proofs
end

section
/-!
The pixel decode against the source's pixel decompress (45_pixel_decode.md R186): the deserializer cuts the digit stream as the
source does, however the codes split it, and `PD_END` finds what the source finds.
-/

namespace Sys2Proof.Machine

open Sys2Proof.Safety

/-! ### The digit stream in chunks (R181) -/

/-- Cutting a stream goes on from the rest of its beginning. -/
theorem chunks_append (xs ys : Str) : chunks (xs ++ ys) =
    ((chunks xs).1 ++ (chunks ((chunks xs).2 ++ ys)).1, (chunks ((chunks xs).2 ++ ys)).2) := by
  induction xs using chunks.induct with
  | case1 x y z rest ih => simp only [List.cons_append, chunks, ih]
  | case2 rest h =>
    have hrest : chunks rest = ([], rest) := by
      rw [chunks]
      exact h
    rw [hrest]
    rfl

/-- The source reads the pixels of a stream where each chunk is valid and no symbol is left over, and only there. -/
theorem refChunks_cases (str : Str) :
    (∃ pixels, refChunks str = some pixels ∧ chunks str = (pixels.map some, [])) ∨
    (refChunks str = none ∧ ((chunks str).1.contains none = true ∨ (chunks str).2 ≠ [])) := by
  induction str using chunks.induct with
  | case1 x y z rest ih =>
    rw [refChunks, chunks]
    by_cases hv : chunkValid x y z
    · rw [if_pos hv, if_pos hv]
      rcases ih with ⟨pixels, hread, hcut⟩ | ⟨hread, hbad⟩
      · refine .inl ⟨chunkValue x y z :: pixels, ?_⟩
        rw [hread, hcut]
        exact ⟨rfl, rfl⟩
      · rw [hread]
        exact .inr ⟨rfl, hbad⟩
    · rw [if_neg hv, if_neg hv]
      exact .inr ⟨rfl, .inl rfl⟩
  | case2 rest h =>
    rcases rest with _ | ⟨x, _ | ⟨y, _ | ⟨z, rest⟩⟩⟩
    · exact .inl ⟨[], rfl, rfl⟩
    · exact .inr ⟨rfl, .inr nofun⟩
    · exact .inr ⟨rfl, .inr nofun⟩
    · exact absurd rfl (h x y z rest)

/-- The items of a pixel sequence (R181). -/
def pixItems (pixels : List Nat) : List Item := pixels.map fun v => { kind := .pix, data := BitVec.ofNat 32 v }

theorem chunkItems_map_some (pixels : List Nat) : chunkItems (pixels.map some) = pixItems pixels := by
  rw [chunkItems, List.filterMap_map, pixItems, ← List.filterMap_eq_map]
  rfl

theorem chunkItems_append (cs cs' : List (Option Nat)) : chunkItems (cs ++ cs') = chunkItems cs ++ chunkItems cs' :=
  List.filterMap_append

/-- The saturating count meets the size of an image iff the number of pixels does (R27, R206). -/
theorem sat32_toNat_eq_dim_mul_iff (n : Nat) (w h : Dim) : (sat32 n).toNat = w.toNat * h.toNat ↔ n = w.toNat * h.toNat := by
  have hdim := dim_mul_lt w h
  have hsat : (sat32 n).toNat = min n (2 ^ 32 - 1) := by
    rw [sat32, BitVec.toNat_ofNat, Nat.mod_eq_of_lt (by omega)]
  omega

/-! ### The source's pixel decompress, by what its decompress answers (R186) -/

/-- §4.2 decompress, steps 2 and 3, on the result of step 1. -/
def refPixels (w h : Nat) : Except ErrCode Str → Except ErrCode (List Nat)
  | .error e => .error e
  | .ok str =>
    match refChunks str with
    | none => .error .malformedDigitStream
    | some pixels => if pixels.length = w * h then .ok pixels else .error .sizeMismatch

theorem refPixelDecompress_eq (w h : Nat) (codes : List Nat) :
    refPixelDecompress w h codes = refPixels w h (refDecompress codes) := by
  rw [refPixelDecompress]
  cases refDecompress codes with
  | error e => rfl
  | ok str => rfl

theorem refPixels_of_none {w h : Nat} {str : Str} (hread : refChunks str = none) :
    refPixels w h (.ok str) = .error .malformedDigitStream := by
  rw [refPixels, hread]

theorem refPixels_of_some {w h : Nat} {str : Str} {pixels : List Nat} (hread : refChunks str = some pixels) :
    refPixels w h (.ok str) = if pixels.length = w * h then .ok pixels else .error .sizeMismatch := by
  rw [refPixels, hread]

/-! ### The commands of a pixel decode, one after another (R83, R186) -/

/-- A pixel decode of a `w` by `ht` image is in progress and has cut the digit stream `str`: the deserializer and the items the
host has or will have say so. The host had `base` before the operation. -/
structure Deserializes (w ht : Dim) (base : List Item) (s : State) (str : Str) : Prop where
  mode : s.mode = .pdec
  imgW : s.imgW = w
  imgH : s.imgH = ht
  digBuf : s.digBuf = (chunks str).2
  digErr : s.digErr = (chunks str).1.contains none
  pixCount : s.pixCount = sat32 (chunks str).1.length
  out : stream s = base ++ chunkItems (chunks str).1

/-- A pixel decode that has received a code also stands where the source's variables stand. -/
structure PixelDecodes (w ht : Dim) (base : List Item) (s : State) (r : RefDec) : Prop extends Deserializes w ht base s r.out where
  tracks : Tracks s.cfg.dictDepth s.toBlock r

/-- The machine has ended a pixel decode with the source's verdict, and on success the host has the source's pixels (R186). -/
def PixelEndsAs (base : List Item) (result : Except ErrCode (List Nat)) (t : State) : Prop :=
  match result with
  | .ok pixels => t.mode = .idle ∧ t.taken = base ++ pixItems pixels
  | .error e => FailedWith e t

section PixelDecodes

variable {w ht : Dim} {base : List Item} {s : State} {str : Str} {r : RefDec}

/-- `PD_BEGIN` leaves an empty digit stream (R180). -/
theorem deserializes_of_pdBegin (w ht : Dim) (s : State) :
    Deserializes w ht (stream s) (withBlock s (pdBeginBody w ht s.toBlock)) [] where
  mode := rfl
  imgW := rfl
  imgH := rfl
  digBuf := rfl
  digErr := rfl
  pixCount := rfl
  out := (List.append_nil _).symm

/-- The host's wait moves items, and loses none. -/
theorem Deserializes.settle (h : Deserializes w ht base s str) : Deserializes w ht base (settle s) str where
  mode := h.mode
  imgW := h.imgW
  imgH := h.imgH
  digBuf := h.digBuf
  digErr := h.digErr
  pixCount := h.pixCount
  out := (settle_stream s).trans h.out

theorem PixelDecodes.settle (h : PixelDecodes w ht base s r) : PixelDecodes w ht base (settle s) r where
  toDeserializes := h.toDeserializes.settle
  tracks := h.tracks.congr rfl rfl rfl rfl

/-- The symbols of a code go to the end of the digit stream (R182). -/
theorem Deserializes.push (h : Deserializes w ht base s str) {k : Word} {b : Block} {entry : Str}
    (hstep : decStep s.cfg.dictDepth k s.toBlock = .ok (b, entry)) :
    Deserializes w ht base (withBlock s (digitPushes entry b)) (str ++ entry) := by
  have hshort : s.digBuf.length ≤ 2 := h.digBuf ▸ chunks_rest_length str
  obtain ⟨_, _, _, _, rfl⟩ := decStep_frame hstep
  rw [digitPushes_eq _ _ (by exact hshort)]
  have hcut := chunks_append str entry
  rw [← h.digBuf] at hcut
  refine ⟨h.mode, h.imgW, h.imgH, ?_, ?_, ?_, ?_⟩ <;> rw [hcut]
  · rfl
  · simp [h.digErr]
  · simp [h.pixCount, sat32_add]
  · rw [chunkItems_append, ← List.append_assoc, ← h.out]
    exact (List.append_assoc _ _ _).symm

/-- `PD_CODE` keeps the decode beside the source where `DecStep` does, and the source puts out the same symbols (R182). -/
theorem Deserializes.push_tracks (h : Deserializes w ht base s str) {k : Word} {b : Block} {entry : Str}
    (hstep : decStep s.cfg.dictDepth k s.toBlock = .ok (b, entry)) (htracks : Tracks s.cfg.dictDepth b r)
    (hout : r.out = str ++ entry) : PixelDecodes w ht base (withBlock s (digitPushes entry b)) r where
  toDeserializes := hout ▸ h.push hstep
  tracks := by
    obtain ⟨_, _, _, _, hpush⟩ := digitPushes_frame entry b
    rw [hpush]
    exact htracks.congr rfl rfl rfl rfl

/-- `PD_CODE` of a first code is the source's step 3 (R141, R182). -/
theorem Deserializes.exec_pdCode_first (h : Deserializes w ht base s []) (hcore : CoreInv s.cfg.dictDepth s.toBlock)
    (hf : s.firstSeen = false) (hn : s.nextCode = 256) (k : Word) : ∃ t, exec (.pdCode k) s = .next t ∧
      ((k.toNat < 256 ∧ PixelDecodes w ht base t (refDecFirst k.toNat)) ∨ (¬ k.toNat < 256 ∧ FailedWith .unknownCode t)) := by
  have hstep := decStep_first (depth := s.cfg.dictDepth) (k := k) hf
  by_cases hk : k.toNat < 256
  · rw [if_pos hk, wordSym_eq_ofNat] at hstep
    exact ⟨_, exec_pdCode_of_ok h.mode hstep, .inl ⟨hk, h.push_tracks hstep (.first hcore hn hk) rfl⟩⟩
  · rw [if_neg hk] at hstep
    exact ⟨_, exec_pdCode_of_raise h.mode hstep, .inr ⟨hk, rfl, rfl⟩⟩

/-- `PD_CODE` of a later code is the source's step 4, or ends in `DictFullError` (R182). -/
theorem PixelDecodes.exec_pdCode (h : PixelDecodes w ht base s r) (k : Word) : ∃ t, exec (.pdCode k) s = .next t ∧
    ((refEntry r k.toNat = none ∧ FailedWith .corruptStream t) ∨ FailedWith .dictFull t ∨
      ∃ entry, refEntry r k.toNat = some entry ∧ PixelDecodes w ht base t (refDecNext r entry)) := by
  rcases h.tracks.decStep_cases k with ⟨hnone, he⟩ | ⟨-, he⟩ | ⟨b, entry, hsome, he, htracks⟩
  · exact ⟨_, exec_pdCode_of_raise h.mode he, .inl ⟨hnone, rfl, rfl⟩⟩
  · exact ⟨_, exec_pdCode_of_raise h.mode he, .inr (.inl ⟨rfl, rfl⟩)⟩
  · exact ⟨_, exec_pdCode_of_ok h.mode he, .inr (.inr ⟨entry, hsome, h.push_tracks he htracks rfl⟩)⟩

/-- `PD_END` after a code makes the source's steps 2 and 3 on the digit stream (R183). -/
theorem Deserializes.exec_pdEnd (h : Deserializes w ht base s str) (hf : s.firstSeen = true) :
    ∃ t, exec .pdEnd s = .next t ∧ PixelEndsAs base (refPixels w.toNat ht.toNat (.ok str)) (Machine.settle t) := by
  rcases refChunks_cases str with ⟨pixels, hread, hcut⟩ | ⟨hread, hbad⟩
  · have hbuf : s.digBuf = [] := by rw [h.digBuf, hcut]
    have herr : s.digErr = false := by simp [h.digErr, hcut]
    have hsize : s.pixCount.toNat = s.imgW.toNat * s.imgH.toNat ↔ pixels.length = w.toNat * ht.toNat := by
      rw [h.pixCount, h.imgW, h.imgH, hcut, List.length_map, sat32_toNat_eq_dim_mul_iff]
    rw [exec_pdEnd_of_wellFormed h.mode hf herr hbuf, refPixels_of_some hread]
    simp only [hsize]
    split_ifs
    · refine ⟨_, rfl, rfl, h.out.trans ?_⟩
      rw [hcut, chunkItems_map_some]
    · exact ⟨_, rfl, rfl, rfl⟩
  · rw [← h.digErr, ← h.digBuf] at hbad
    rw [refPixels_of_none hread]
    exact ⟨_, exec_pdEnd_of_malformed h.mode hf hbad, rfl, rfl⟩

/-- The later codes and `PD_END`, from where the source's variables stand. -/
theorem PixelDecodes.issueAll (h : PixelDecodes w ht base s r) (codes : List Word) :
    ∃ t, issueAll (codes.map .pdCode ++ [.pdEnd]) s = .next t ∧ (FailedWith .dictFull t ∨
      PixelEndsAs base (refPixels w.toNat ht.toNat (refDecLoop r (codes.map BitVec.toNat))) t) := by
  induction codes generalizing s r with
  | nil =>
    obtain ⟨t, hexec, hend⟩ := h.exec_pdEnd h.tracks.firstSeen
    exact ⟨_, issueAll_cons_of_next [] hexec, .inr hend⟩
  | cons k codes ih =>
    obtain ⟨t, hexec, hcase⟩ := h.exec_pdCode k
    rw [List.map_cons, List.map_cons, List.cons_append, issueAll_cons_of_next _ hexec]
    rcases hcase with ⟨hnone, hfail⟩ | hfail | ⟨entry, hsome, hrun⟩
    · obtain ⟨u, hu, hfailed⟩ := issueAll_settle_of_failed hfail .pdCode .pdEnd (fun _ => rfl) rfl codes
      rw [refDecLoop_cons_of_none hnone]
      exact ⟨u, hu, .inr hfailed⟩
    · obtain ⟨u, hu, hfailed⟩ := issueAll_settle_of_failed hfail .pdCode .pdEnd (fun _ => rfl) rfl codes
      exact ⟨u, hu, .inl hfailed⟩
    · rw [refDecLoop_cons_of_some hsome]
      exact ih hrun.settle

/-- All codes and `PD_END`, from a fresh dictionary. -/
theorem Deserializes.issueAll (h : Deserializes w ht base s []) (hcore : CoreInv s.cfg.dictDepth s.toBlock)
    (hf : s.firstSeen = false) (hn : s.nextCode = 256) (codes : List Word) :
    ∃ t, issueAll (codes.map .pdCode ++ [.pdEnd]) s = .next t ∧ (FailedWith .dictFull t ∨
      PixelEndsAs base (refPixels w.toNat ht.toNat (refDecompress (codes.map BitVec.toNat))) t) := by
  cases codes with
  | nil => exact ⟨_, issueAll_cons_of_next [] (exec_pdEnd_of_not_firstSeen h.mode hf), .inr ⟨rfl, rfl⟩⟩
  | cons k codes =>
    obtain ⟨t, hexec, hcase⟩ := h.exec_pdCode_first hcore hf hn k
    rw [List.map_cons, List.map_cons, List.cons_append, issueAll_cons_of_next _ hexec]
    rcases hcase with ⟨hk, hrun⟩ | ⟨hk, hfail⟩
    · rw [refDecompress_cons_of_lt hk]
      exact hrun.settle.issueAll codes
    · obtain ⟨u, hu, hfailed⟩ := issueAll_settle_of_failed hfail .pdCode .pdEnd (fun _ => rfl) rfl codes
      rw [refDecompress_cons_of_ge hk]
      exact ⟨u, hu, .inr hfailed⟩

end PixelDecodes

end Sys2Proof.Machine

namespace Sys2Proof.Proofs

open Sys2Proof.Machine Sys2Proof.Safety

/-- Settles O58: `PD_BEGIN` leaves an empty dictionary and digit stream, every code keeps both where the source has them or ends the
operation, and `PD_END` makes the source's last steps. -/
theorem pixelDecodeMatchesTheSource : Obligations.PixelDecodeMatchesTheSource := by
  intro s w ht codes h hm hp hq
  have hinv : Inv (withBlock s (pdBeginBody w ht s.toBlock)) := h.begun nofun (by simp)
  have hcore : CoreInv s.cfg.dictDepth (settle (withBlock s (pdBeginBody w ht s.toBlock))).toBlock :=
    (CoreInv.of_inv hinv).congr rfl rfl rfl
  have hbegun := (deserializes_of_pdBegin w ht s).settle
  rw [stream, hp, hq, List.append_nil, List.append_nil] at hbegun
  obtain ⟨t, hcodes, hend⟩ := hbegun.issueAll hcore rfl rfl codes
  have hbegin : exec (.pdBegin w ht) s = .next (withBlock s (pdBeginBody w ht s.toBlock)) := beginOperation_of_legal hm
  refine ⟨t, (issueAll_cons_of_next _ hbegin).trans hcodes, hend.imp_right fun hends => ?_⟩
  rw [refPixelDecompress_eq]
  cases hres : refPixels w.toNat ht.toNat (refDecompress (codes.map BitVec.toNat)) with
  | ok pixels =>
    rw [hres] at hends
    exact .inl ⟨pixels, rfl, hends⟩
  | error e =>
    rw [hres] at hends
    exact .inr ⟨e, rfl, hends⟩

end Sys2Proof.Proofs
end

section
/-!
Errors (60_exceptions.md): the two shapes a command has (R111), the error entry and the error registers (R209, R212, R213, R215), the
range errors of operands (R202 to R204, R210), and the host's saturation (R224).
-/

namespace Sys2Proof.Machine

open Sys2Proof.Safety

/-! ### What a command that completes leaves of the error registers (R213) -/

/-- `ERR`, `ERR_OP` and `ERR_ARG` are the same in both blocks. -/
def SameErrorRegs (b b' : Block) : Prop := b'.err = b.err ∧ b'.errOp = b.errOp ∧ b'.errArg = b.errArg

theorem SameErrorRegs.refl (b : Block) : SameErrorRegs b b := ⟨rfl, rfl, rfl⟩

/-- `ERR`, `ERR_OP` and `ERR_ARG` hold no error. -/
def ErrorRegsClear (b : Block) : Prop := b.err = .noError ∧ b.errOp = 0 ∧ b.errArg = 0

/-- As `encStepRel_frame`, in every block: no invariant is asked for (R121). -/
theorem encStep_ok_frame {depth : Nat} {operand : Word} {c : Sym} {b b' : Block} (h : encStep depth operand c b = .ok b') :
    ∃ wv wc nc dm pe, b' = { b with wValid := wv, wCode := wc, nextCode := nc, dmem := dm, pend := pe } := by
  unfold encStep at h
  split_ifs at h
  · split at h
    · cases h
      exact ⟨_, _, _, _, _, rfl⟩
    · obtain ⟨b1, hins, rfl⟩ := Res.map_eq_ok h
      obtain ⟨-, -, rfl⟩ := dictInsert_eq_ok hins
      exact ⟨_, _, _, _, _, rfl⟩
  · cases h
    exact ⟨_, _, _, _, _, rfl⟩

/-- As `encSteps_frame`, in every block (R161). -/
theorem encSteps_ok_frame {depth : Nat} {operand : Word} {cs : Str} {b b' : Block} (h : encSteps depth operand cs b = .ok b') :
    ∃ wv wc nc dm pe, b' = { b with wValid := wv, wCode := wc, nextCode := nc, dmem := dm, pend := pe } := by
  induction cs generalizing b with
  | nil =>
    cases h
    exact ⟨_, _, _, _, _, rfl⟩
  | cons c cs ih =>
    obtain ⟨b1, hstep, hrest⟩ := Res.bind_eq_ok h
    obtain ⟨_, _, _, _, _, rfl⟩ := encStep_ok_frame hstep
    obtain ⟨_, _, _, _, _, rfl⟩ := ih hrest
    exact ⟨_, _, _, _, _, rfl⟩

theorem eSymBody_sameErrorRegs {depth : Nat} {c : Word} {b b' : Block} (h : eSymBody depth c b = .ok b') :
    SameErrorRegs b b' := by
  unfold eSymBody at h
  split_ifs at h
  obtain ⟨_, _, _, _, _, rfl⟩ := encStep_ok_frame h
  exact .refl _

theorem pPixBody_sameErrorRegs {depth : Nat} {v : Word} {b b' : Block} (h : pPixBody depth v b = .ok b') :
    SameErrorRegs b b' := by
  unfold pPixBody at h
  split_ifs at h
  obtain ⟨b1, hs, rfl⟩ := Res.map_eq_ok h
  obtain ⟨_, _, _, _, _, rfl⟩ := encSteps_ok_frame hs
  exact .refl _

theorem dCodeBody_sameErrorRegs {depth : Nat} {k : Word} {b b' : Block} (h : dCodeBody depth k b = .ok b') :
    SameErrorRegs b b' := by
  obtain ⟨⟨b1, str⟩, hd, rfl⟩ := Res.map_eq_ok h
  obtain ⟨_, _, _, _, rfl⟩ := decStep_frame hd
  exact .refl _

theorem pdCodeBody_sameErrorRegs {depth : Nat} {k : Word} {b b' : Block} (h : pdCodeBody depth k b = .ok b') :
    SameErrorRegs b b' := by
  obtain ⟨⟨b1, str⟩, hd, rfl⟩ := Res.map_eq_ok h
  obtain ⟨_, _, _, _, rfl⟩ := decStep_frame hd
  obtain ⟨_, _, _, _, hpush⟩ := digitPushes_frame str _
  rw [hpush]
  exact .refl _

/-- `E_END` and `P_END` (R124, R163). -/
theorem encodeEnd_sameErrorRegs (b : Block) : SameErrorRegs b { encFlush b with mode := .idle } := by
  rw [encFlush_eq]
  exact .refl _

theorem dEndBody_sameErrorRegs {b b' : Block} (h : dEndBody b = .ok b') : SameErrorRegs b b' := by
  rw [dEndBody_eq_ok h]
  exact .refl _

theorem pdEndBody_sameErrorRegs {b b' : Block} (h : pdEndBody b = .ok b') : SameErrorRegs b b' := by
  obtain ⟨-, -, rfl⟩ := pdEndBody_eq_ok h
  exact .refl _

/-! ### The two shapes of a command (R111) -/

/-- Every command is `NOP`, a BEGIN, or a stream or END command. -/
theorem instr_kinds (i : Instr) : i = .nop ∨ isBegin i = true ∨ (isBegin i = false ∧ i ≠ .nop) := by
  by_cases hn : i = .nop
  · exact .inl hn
  · cases hb : isBegin i with
    | true => exact .inr (.inl rfl)
    | false => exact .inr (.inr ⟨rfl, hn⟩)

/-- A BEGIN is `beginOperation` with its own opcode and operand; it enters its mode and clears the error registers (R119). -/
theorem exec_eq_beginOperation {i : Instr} (hb : isBegin i = true) (s : State) :
    ∃ body, exec i s = beginOperation i.opcode i.operand body s ∧ (body s.toBlock).mode = ownMode i ∧
      ErrorRegsClear (body s.toBlock) := by
  cases i with
  | eBegin => exact ⟨eBeginBody, rfl, rfl, rfl, rfl, rfl⟩
  | dBegin => exact ⟨dBeginBody, rfl, rfl, rfl, rfl, rfl⟩
  | pBegin w h => exact ⟨pBeginBody w h, rfl, rfl, rfl, rfl, rfl⟩
  | pdBegin w h => exact ⟨pdBeginBody w h, rfl, rfl, rfl, rfl, rfl⟩
  | nop | eSym | eEnd | dCode | dEnd | pPix | pEnd | pdCode | pdEnd => cases hb

/-- A stream or END command is `inOperation` with its own mode, opcode and operand; in its mode its rule ends as R112 has it, and where
it completes the error registers are kept. -/
theorem exec_eq_inOperation {i : Instr} (hb : isBegin i = false) (hn : i ≠ .nop) (s : State) :
    ∃ body, exec i s = inOperation (ownMode i) i.opcode i.operand body s ∧
      (s.mode = ownMode i → EndsOwn i (body s.toBlock)) ∧ ∀ b, body s.toBlock = .ok b → SameErrorRegs s.toBlock b := by
  cases i with
  | nop => exact absurd rfl hn
  | eBegin | dBegin | pBegin | pdBegin => cases hb
  | eSym c => exact ⟨_, rfl, eSymBody_endsOwn s.cfg.dictDepth c, fun _ => eSymBody_sameErrorRegs⟩
  | eEnd =>
    refine ⟨fun b => .ok (eEndBody b), rfl, fun _ => .of_ok rfl, ?_⟩
    rintro _ ⟨⟩
    exact encodeEnd_sameErrorRegs _
  | dCode k => exact ⟨_, rfl, dCodeBody_endsOwn s.cfg.dictDepth k, fun _ => dCodeBody_sameErrorRegs⟩
  | dEnd => exact ⟨_, rfl, fun _ => dEndBody_endsOwn _, fun _ => dEndBody_sameErrorRegs⟩
  | pPix v => exact ⟨_, rfl, pPixBody_endsOwn s.cfg.dictDepth v, fun _ => pPixBody_sameErrorRegs⟩
  | pEnd =>
    refine ⟨fun b => .ok (pEndBody b), rfl, fun _ => .of_ok rfl, ?_⟩
    rintro _ ⟨⟩
    exact encodeEnd_sameErrorRegs _
  | pdCode k => exact ⟨_, rfl, pdCodeBody_endsOwn s.cfg.dictDepth k, fun _ => pdCodeBody_sameErrorRegs⟩
  | pdEnd => exact ⟨_, rfl, fun _ => pdEndBody_endsOwn _, fun _ => pdEndBody_sameErrorRegs⟩

/-! ### A command in a mode that does not allow it (R209) -/

theorem legalIn_begin_eq_false {i : Instr} {m : Mode} (hb : isBegin i = true) (hl : legalIn i m = false) :
    ¬ (m = .idle ∨ m = .error) := by
  cases i with
  | eBegin | dBegin | pBegin | pdBegin => simpa [legalIn, isBegin] using hl
  | nop | eSym | eEnd | dCode | dEnd | pPix | pEnd | pdCode | pdEnd => cases hb

theorem legalIn_operation_eq_false {i : Instr} {m : Mode} (hb : isBegin i = false) (hl : legalIn i m = false) :
    m ≠ ownMode i := by
  cases i with
  | nop => cases hl
  | eBegin | dBegin | pBegin | pdBegin => cases hb
  | eSym | eEnd | dCode | dEnd | pPix | pEnd | pdCode | pdEnd => simpa [legalIn, isBegin] using hl

theorem beginOperation_of_illegal {op : BitVec 8} {x : Word} {body : Block → Block} {s : State}
    (h : ¬ (s.mode = .idle ∨ s.mode = .error)) : beginOperation op x body s = .next (raiseError .protocol op x s) := if_neg h

/-- Outside its modes a legal command raises `ProtocolError`; in `ERROR` R215 takes its place. -/
theorem exec_of_not_legalIn {i : Instr} {s : State} (he : s.mode ≠ .error) (hl : legalIn i s.mode = false) :
    exec i s = .next (raiseError .protocol i.opcode i.operand s) := by
  rcases instr_kinds i with rfl | hb | ⟨hb, hn⟩
  · cases hl
  · obtain ⟨body, hexec, -⟩ := exec_eq_beginOperation hb s
    rw [hexec, beginOperation_of_illegal (legalIn_begin_eq_false hb hl)]
  · obtain ⟨body, hexec, -⟩ := exec_eq_inOperation hb hn s
    rw [hexec, inOperation_of_other he (legalIn_operation_eq_false hb hl)]

/-! ### The error entry is all a raise does (R212) -/

theorem doneMode_ne_error (i : Instr) : doneMode i ≠ .error := by
  unfold doneMode
  split_ifs
  · nofun
  · exact ownMode_ne_error i

/-- A command that reaches `ERROR` from another mode has taken the error entry, with `ProtocolError` or an error of its own: where its
rule completes it leaves another mode. -/
theorem exec_raises {i : Instr} {s t : State} (ht : exec i s = .next t) (hs : s.mode ≠ .error) (htm : t.mode = .error) :
    ∃ e a, t = raiseError e i.opcode a s ∧ (e = .protocol ∨ e ∈ ownErrors i) := by
  rcases instr_kinds i with rfl | hb | ⟨hb, hn⟩
  · cases ht
    exact absurd htm hs
  · obtain ⟨body, hexec, hmode, -⟩ := exec_eq_beginOperation hb s
    rcases beginOperation_cases (hexec ▸ ht) with ⟨-, rfl⟩ | ⟨-, -, rfl⟩
    · exact absurd (hmode.symm.trans htm) (ownMode_ne_error i)
    · exact ⟨_, _, rfl, .inl rfl⟩
  · obtain ⟨body, hexec, hends, -⟩ := exec_eq_inOperation hb hn s
    rcases inOperation_cases (hexec ▸ ht) with ⟨herr, -⟩ | ⟨-, -, rfl⟩ | ⟨-, hm, b, hok, rfl⟩ | ⟨-, hm, e, a, hraise, rfl⟩
    · exact absurd herr hs
    · exact ⟨_, _, rfl, .inl rfl⟩
    · exact absurd (((hends hm).ok b hok).symm.trans htm) (doneMode_ne_error i)
    · exact ⟨e, a, rfl, .inr ((hends hm).raise e a hraise)⟩

/-! ### An operand out of its command's range (R204, R210) -/

theorem exec_eSym_of_not_inRange {c : Word} {s : State} (hm : s.mode = .enc) (hc : ¬ symInRange c) :
    exec (.eSym c) s = .next (raiseError .symbolRange 0x02 c s) := by
  have hbody : eSymBody s.cfg.dictDepth c s.toBlock = .raise .symbolRange c := if_neg hc
  exact (inOperation_own hm nofun).trans (congrArg (finish 0x02 s) hbody)

/-! ### Saturation of the host's integers (R224) -/

theorem saturateUnsigned_of_ge {n : Nat} (h : 2 ^ 32 ≤ n) : saturateUnsigned n = 0xFFFFFFFF := by
  rw [saturateUnsigned, Nat.min_eq_right (by omega)]
  rfl

theorem saturateUnsigned_toNat {n : Nat} (h : n < 2 ^ 32) : (saturateUnsigned n).toNat = n := by
  rw [saturateUnsigned, Nat.min_eq_left (by omega), BitVec.toNat_ofNat, Nat.mod_eq_of_lt h]

theorem saturatePixel_of_gt {v : Int} (h : 2 ^ 31 - 1 < v) : saturatePixel v = 0x7FFFFFFF := by
  have hv : max (-(2 ^ 31)) (min v (2 ^ 31 - 1)) = 2 ^ 31 - 1 := by omega
  rw [saturatePixel, hv]
  rfl

theorem saturatePixel_of_lt {v : Int} (h : v < -(2 ^ 31)) : saturatePixel v = 0x80000000 := by
  have hv : max (-(2 ^ 31)) (min v (2 ^ 31 - 1)) = -(2 ^ 31) := by omega
  rw [saturatePixel, hv]
  rfl

theorem saturatePixel_toInt {v : Int} (hlo : -(2 ^ 31) ≤ v) (hhi : v ≤ 2 ^ 31 - 1) : (saturatePixel v).toInt = v := by
  have hv : max (-(2 ^ 31)) (min v (2 ^ 31 - 1)) = v := by omega
  rw [saturatePixel, hv]
  exact BitVec.toInt_ofInt_eq_self (by decide) hlo (by omega)

/-- `NEXT_CODE` is at most `DICT_DEPTH`, which R5 keeps below the largest word. -/
theorem nextCode_lt_max {s : State} (h : Inv s) : s.nextCode.toNat < (0xFFFFFFFF : Word).toNat := by
  have hmax : (0xFFFFFFFF : Word).toNat = 2 ^ 32 - 1 := rfl
  have hdepth := h.cfg_legal.2.1
  have hnext := h.next_range.2
  omega

end Sys2Proof.Machine

namespace Sys2Proof.Proofs

open Sys2Proof.Machine Sys2Proof.Safety

/-- Settles O18: a BEGIN in progress and a stream or END command outside its mode, by the two shapes of a command. -/
theorem protocolErrors : Obligations.ProtocolErrors := ⟨fun _ _ => exec_of_not_legalIn, rfl⟩

/-- Settles O19: a command that reaches `ERROR` has taken the error entry, which writes four registers. -/
theorem errorEntryKeepsTheRest : Obligations.ErrorEntryKeepsTheRest := by
  intro i s t ht hs htm
  obtain ⟨e, a, rfl, herr⟩ := exec_raises ht hs htm
  exact ⟨rfl, herr⟩

/-- Settles O20: a BEGIN that does not raise clears the registers, the rule of every other command keeps them. -/
theorem errorRegistersOnlyByErrorEntry : Obligations.ErrorRegistersOnlyByErrorEntry := by
  intro i s t ht htm
  rcases instr_kinds i with rfl | hb | ⟨hb, hn⟩
  · cases ht
    exact ⟨fun _ => ⟨rfl, rfl, rfl⟩, nofun⟩
  · obtain ⟨body, hexec, -, hclear⟩ := exec_eq_beginOperation hb s
    refine ⟨fun hb' => (nomatch hb.symm.trans hb'), fun _ => ?_⟩
    rcases beginOperation_cases (hexec ▸ ht) with ⟨-, rfl⟩ | ⟨-, -, rfl⟩
    · exact hclear
    · exact absurd rfl htm
  · obtain ⟨body, hexec, -, hsame⟩ := exec_eq_inOperation hb hn s
    obtain ⟨-, b, hok, rfl⟩ := inOperation_completes (hexec ▸ ht) htm
    exact ⟨fun _ => hsame b hok, fun hb' => (nomatch hb.symm.trans hb')⟩

/-- Settles O59: a value too wide saturates to the bound of its field, which has the value's verdict; a value that fits is kept. -/
theorem saturationKeepsTheVerdict : Obligations.SaturationKeepsTheVerdict := by
  refine ⟨fun n s h hn => ?_, fun _ => saturateUnsigned_toNat, fun v hv => ?_, fun v hv => ?_, fun _ => saturatePixel_toInt⟩
  · rw [saturateUnsigned_of_ge hn]
    exact ⟨rfl, by decide, nextCode_lt_max h⟩
  · rw [saturatePixel_of_gt hv]
    exact ⟨rfl, by decide⟩
  · rw [saturatePixel_of_lt hv]
    exact ⟨rfl, by decide⟩

/-- Settles O17: R111's drop of a command and of an illegal word. -/
theorem errorModeDropsCommands : Obligations.ErrorModeDropsCommands :=
  ⟨fun _ _ => exec_of_error, fun _ _ hm hl => execWord_illegal_of_error hl hm⟩

/-- Settles O24: the range check of `E_SYM` fails from 256 up. -/
theorem symbolRangeErrors : Obligations.SymbolRangeErrors :=
  ⟨fun _ _ hm hc => exec_eSym_of_not_inRange hm (Nat.not_lt.2 hc), rfl⟩

/-- Settles O26: the range check of `P_PIX` fails below 0 and above 255. -/
theorem pixelRangeErrors : Obligations.PixelRangeErrors := by
  refine ⟨fun v s hm hv => exec_pPix_of_not_inRange hm ?_, rfl⟩
  rintro ⟨hlo, hhi⟩
  rcases hv with hv | hv
  · exact absurd hlo (not_le.2 hv)
  · exact absurd hhi (not_le.2 hv)

/-- Settles O29: `DecStep` on a first code, in both decode modes; the symbol it emits is the code itself. -/
theorem firstCode : Obligations.FirstCode := by
  intro k s hf
  have hstep := decStep_first (depth := s.cfg.dictDepth) (k := k) hf
  have hraise (hk : 256 ≤ k.toNat) : decStep s.cfg.dictDepth k s.toBlock = .raise .unknownCode k :=
    hstep.trans (if_neg (Nat.not_lt.2 hk))
  refine ⟨fun hm hk => ?_, fun hm hk => exec_dCode_of_raise hm (hraise hk), fun hm hk => exec_pdCode_of_raise hm (hraise hk), rfl⟩
  have hsym : (wordSym k).setWidth 32 = k := symWord_wordSym hk
  rw [exec_dCode_of_ok hm (hstep.trans (if_pos hk)), emitSyms, List.map_singleton, hsym]
  rfl

/-- Settles O31: `DecStep` classifies a later code before it inserts, in both decode modes. -/
theorem corruptCodes : Obligations.CorruptCodes := fun _ _ hf hk =>
  ⟨fun hm => exec_dCode_of_raise hm (decStep_corrupt hf hk), fun hm => exec_pdCode_of_raise hm (decStep_corrupt hf hk), rfl⟩

end Sys2Proof.Proofs
end

section
/-!
Reset (70_reset_and_hazards.md section 1, 10_state.md section 5): the step on a reset event (R118), and what it leaves (R38, R230).
-/

namespace Sys2Proof.Machine

theorem step_of_reset {s : State} {rest : List Event} (h : s.agenda = .reset :: rest) :
    step s = .next (resetStep { s with agenda := rest }) := by
  rw [step, agendaStep, h]

end Sys2Proof.Machine

namespace Sys2Proof.Proofs

open Sys2Proof.Machine

/-- Settles O12: the step puts `Block.reset`, R38's values, in place of the block; the memory it leaves lists no entry (R40). -/
theorem resetSetsEveryElement : Obligations.ResetSetsEveryElement := fun _ _ ha =>
  ⟨Block.reset.dmem, step_of_reset ha⟩

end Sys2Proof.Proofs
end

section
/-!
Every step answers (41_control.md R110, R111): under the invariant no procedure of a command reaches one of the model's own faults, so
every command and every event has a next state, and that state has the invariant too.
-/

namespace Sys2Proof.Machine

open Sys2Proof.Safety

/-! ### No procedure stops -/

/-- The procedure completes or raises: it reaches none of the model's own faults. -/
def Res.Answers {α : Type} (r : Res α) : Prop := ∀ f, r ≠ .fault f

theorem Res.Answers.of_ok {α : Type} {r : Res α} {a : α} (h : r = .ok a) : r.Answers := by
  rintro f rfl
  cases h

theorem Res.Answers.of_raise {α : Type} {r : Res α} {e : ErrCode} {x : Word} (h : r = .raise e x) : r.Answers := by
  rintro f rfl
  cases h

theorem Res.Answers.map {α β : Type} {r : Res α} (h : r.Answers) (f : α → β) : (r.map f).Answers := by
  cases r with
  | ok a => exact .of_ok rfl
  | raise e x => exact .of_raise rfl
  | fault x => exact absurd rfl (h x)

section Procedures

variable {depth : Nat} {b : Block}

theorem encStep_answers (h : CoreInv depth b) (operand : Word) (c : Sym) : (encStep depth operand c b).Answers := by
  rcases encStep_cases h operand c with ⟨b', -, hok⟩ | ⟨-, hfull⟩
  · exact .of_ok hok
  · exact .of_raise hfull

theorem encSteps_answers (h : CoreInv depth b) (operand : Word) (cs : Str) : (encSteps depth operand cs b).Answers := by
  rcases encSteps_total h operand cs with ⟨b', hok⟩ | hfull
  · exact .of_ok hok
  · exact .of_raise hfull

theorem decStep_answers (h : CoreInv depth b) (k : Word) : (decStep depth k b).Answers := by
  rcases decStep_total h k with ⟨b', str, hok, -⟩ | ⟨e, hraise, -⟩
  · exact .of_ok hok
  · exact .of_raise hraise

theorem eSymBody_answers (h : CoreInv depth b) (c : Word) : (eSymBody depth c b).Answers := by
  unfold eSymBody
  split_ifs
  · exact encStep_answers h c _
  · exact .of_raise rfl

theorem pPixBody_answers (h : CoreInv depth b) (v : Word) : (pPixBody depth v b).Answers := by
  unfold pPixBody
  split_ifs
  · exact (encSteps_answers h v _).map _
  · exact .of_raise rfl

theorem dEndBody_answers (b : Block) : (dEndBody b).Answers := by
  unfold dEndBody
  split_ifs
  · exact .of_ok rfl
  · exact .of_raise rfl

theorem pdEndBody_answers (b : Block) : (pdEndBody b).Answers := by
  unfold pdEndBody
  split_ifs
  · exact .of_raise rfl
  · exact .of_raise rfl
  · exact .of_raise rfl
  · exact .of_ok rfl

end Procedures

/-! ### No command stops (R111) -/

theorem finish_answers {r : Res Block} (h : r.Answers) (op : BitVec 8) (s : State) : ∃ t, finish op s r = .next t := by
  cases r with
  | ok b => exact ⟨_, rfl⟩
  | raise e x => exact ⟨_, rfl⟩
  | fault f => exact absurd rfl (h f)

theorem inOperation_answers {m : Mode} {op : BitVec 8} {x : Word} {body : Block → Res Block} {s : State}
    (h : (body s.toBlock).Answers) : ∃ t, inOperation m op x body s = .next t := by
  unfold inOperation
  split_ifs
  · exact ⟨_, rfl⟩
  · exact finish_answers h op s
  · exact ⟨_, rfl⟩

theorem beginOperation_answers {op : BitVec 8} {x : Word} {body : Block → Block} {s : State} :
    ∃ t, beginOperation op x body s = .next t := by
  unfold beginOperation
  split_ifs
  · exact ⟨_, rfl⟩
  · exact ⟨_, rfl⟩

theorem exec_answers {s : State} (h : Inv s) (i : Instr) : ∃ t, exec i s = .next t := by
  have hcore := CoreInv.of_inv h
  cases i with
  | nop => exact ⟨s, rfl⟩
  | eBegin | dBegin | pBegin | pdBegin => exact beginOperation_answers
  | eSym c => exact inOperation_answers (eSymBody_answers hcore c)
  | eEnd => exact inOperation_answers (body := fun b => .ok (eEndBody b)) (.of_ok rfl)
  | dCode k => exact inOperation_answers ((decStep_answers hcore k).map _)
  | dEnd => exact inOperation_answers (dEndBody_answers _)
  | pPix v => exact inOperation_answers (pPixBody_answers hcore v)
  | pEnd => exact inOperation_answers (body := fun b => .ok (pEndBody b)) (.of_ok rfl)
  | pdCode k => exact inOperation_answers ((decStep_answers hcore k).map _)
  | pdEnd => exact inOperation_answers (pdEndBody_answers _)

/-- An illegal word is dropped or raises, so only a legal word needs the invariant. -/
theorem execWord_answers {s : State} (h : Inv s) (cmd : Cmd) : ∃ t, execWord cmd s = .next t := by
  cases hl : legal cmd with
  | true =>
    obtain ⟨i, hi⟩ := (legal_iff_decode cmd).1 hl
    rw [execWord_of_decode hi]
    exact exec_answers h i
  | false =>
    by_cases hm : s.mode = .error
    · exact ⟨_, execWord_illegal_of_error hl hm⟩
    · exact ⟨_, execWord_illegal_of_ne_error hl hm⟩

/-! ### No step stops (R110) -/

/-- Without `READY` the word stays on the channel and the core takes its own step. -/
theorem step_of_issue_waiting {s : State} {cmd : Cmd} {rest : List Event} (h : s.agenda = .issue cmd :: rest)
    (hp : s.pend ≠ []) : step s = .next (drainStep s) := by
  rw [step, agendaStep, h]
  exact if_neg (mt (ready_iff s.toBlock).1 hp)

theorem step_answers {s : State} (h : Inv s) : ∃ t, step s = .next t := by
  rcases ha : s.agenda with _ | ⟨event, rest⟩
  · exact ⟨_, step_of_agenda_nil ha⟩
  cases event with
  | issue cmd =>
    by_cases hp : s.pend = []
    · rw [step_of_issue_ready ha hp]
      exact execWord_answers (s := { s with agenda := rest }) (h.of_block rfl rfl) cmd
    · exact ⟨_, step_of_issue_waiting ha hp⟩
  | drain => exact ⟨_, step_of_drain ha⟩
  | pop => exact ⟨_, step_of_pop ha⟩
  | read raddr => exact ⟨_, step_of_read ha⟩
  | reset => exact ⟨_, step_of_reset ha⟩

end Sys2Proof.Machine

namespace Sys2Proof.Proofs

open Sys2Proof.Machine Sys2Proof.Safety

/-- Settles O50: the invariant per event, an accepted word by the command it decodes to or the error entry. -/
theorem everyStepKeepsInv : Obligations.EveryStepKeepsInv := fun _ _ => Inv.step

/-- Settles O49: R38's values meet every clause, and the invariant does not speak of the agenda. -/
theorem invAtReset : Obligations.InvAtReset := fun cfg agenda h =>
  Inv.reset (s := { State.resetWith cfg with agenda := agenda }) h

/-- Settles O51: of all events only an accepted legal word could stop, and its procedures do not under the invariant. -/
theorem noStepStops : Obligations.NoStepStops := fun _ => step_answers

/-- Settles O6: the word waits, and the core's own step is a drain or nothing. -/
theorem commandWaitsUntilReady : Obligations.CommandWaitsUntilReady := by
  intro s cmd rest item items ha hp
  have hstep := step_of_issue_waiting ha (hp ▸ List.cons_ne_nil item items)
  refine ⟨fun hroom => ?_, fun hfull => ?_⟩
  · rw [hstep, drainStep_of_enabled hp hroom]
  · rw [hstep, drainStep_of_disabled (.inr hfull)]

end Sys2Proof.Proofs
end

section
/-!
Frames: what the commands of each operation leave as it was (42_generic_encode.md to 45_pixel_decode.md), and what every command leaves
(00_scope.md section 4, 41_control.md section 1).
-/

namespace Sys2Proof.Machine

open Sys2Proof.Safety

/-! ### The frames, as relations between the block before and after -/

/-- At most one entry is stored, at the next free code, and none where `NEXT_CODE` stays (R93). -/
def StoresNext (b b' : Block) : Prop :=
  ∀ c, b'.nextCode = b.nextCode ∨ c ≠ b.nextCode.toNat → Memory.read b'.dmem c = Memory.read b.dmem c

theorem StoresNext.of_dmem_eq {b b' : Block} (h : b'.dmem = b.dmem) : StoresNext b b' := fun c _ => by rw [h]

/-- What the commands of an encode operation leave. -/
structure EncoderFrame (b b' : Block) : Prop where
  firstSeen : b'.firstSeen = b.firstSeen
  imgW : b'.imgW = b.imgW
  imgH : b'.imgH = b.imgH
  digBuf : b'.digBuf = b.digBuf
  digErr : b'.digErr = b.digErr
  outq : b'.outq = b.outq

/-- What the commands of a decode operation leave. -/
structure DecoderFrame (b b' : Block) : Prop where
  wValid : b'.wValid = b.wValid
  imgW : b'.imgW = b.imgW
  imgH : b'.imgH = b.imgH
  outq : b'.outq = b.outq
  stores : StoresNext b b'

/-- What the commands of a generic operation leave, beside their codec's frame. -/
structure GenericFrame (b b' : Block) : Prop where
  pixCount : b'.pixCount = b.pixCount
  digBuf : b'.digBuf = b.digBuf
  digErr : b'.digErr = b.digErr
  stores : StoresNext b b'

/-- What `E_END` and `P_END` leave, beside their codec's frame (R123). -/
structure EncodeEndFrame (b b' : Block) : Prop where
  nextCode : b'.nextCode = b.nextCode
  wValid : b'.wValid = b.wValid
  wCode : b'.wCode = b.wCode
  pixCount : b'.pixCount = b.pixCount
  dmem : b'.dmem = b.dmem

/-! ### The one store of a command (R93, R121, R141) -/

theorem dictInsert_storesNext {depth : Nat} {operand p : Word} {s : Sym} {b b' : Block}
    (h : dictInsert depth operand p s b = .ok b') : StoresNext b b' := by
  obtain ⟨-, -, rfl⟩ := dictInsert_eq_ok h
  rintro c (hstay | hc)
  · exact absurd hstay (by simp)
  · exact Memory.read_write_other _ _ _ _ hc

theorem encStep_storesNext {depth : Nat} {operand : Word} {c : Sym} {b b' : Block} (h : encStep depth operand c b = .ok b') :
    StoresNext b b' := by
  unfold encStep at h
  split_ifs at h
  · split at h
    · cases h
      exact .of_dmem_eq rfl
    · obtain ⟨b1, hins, rfl⟩ := Res.map_eq_ok h
      have hstores := dictInsert_storesNext hins
      exact hstores
  · cases h
    exact .of_dmem_eq rfl

theorem decStep_storesNext {depth : Nat} {k : Word} {b b' : Block} {str : Str} (h : decStep depth k b = .ok (b', str)) :
    StoresNext b b' := by
  cases hf : b.firstSeen with
  | false =>
    rw [decStep_first hf] at h
    split_ifs at h
    cases h
    exact .of_dmem_eq rfl
  | true =>
    rw [decStep, if_pos hf] at h
    obtain ⟨f, -, h⟩ := Res.bind_eq_ok h
    obtain ⟨b1, hins, h⟩ := Res.bind_eq_ok h
    obtain ⟨str', -, h⟩ := Res.map_eq_ok h
    cases h
    have hstores := dictInsert_storesNext hins
    exact hstores

/-! ### The frame of each rule where it completes -/

theorem eSymBody_frame {depth : Nat} {c : Word} {b b' : Block} (h : eSymBody depth c b = .ok b') :
    EncoderFrame b b' ∧ GenericFrame b b' := by
  unfold eSymBody at h
  split_ifs at h
  have hstores := encStep_storesNext h
  obtain ⟨_, _, _, _, _, rfl⟩ := encStep_ok_frame h
  exact ⟨⟨rfl, rfl, rfl, rfl, rfl, rfl⟩, rfl, rfl, rfl, hstores⟩

theorem pPixBody_frame {depth : Nat} {v : Word} {b b' : Block} (h : pPixBody depth v b = .ok b') : EncoderFrame b b' := by
  unfold pPixBody at h
  split_ifs at h
  obtain ⟨b1, hs, rfl⟩ := Res.map_eq_ok h
  obtain ⟨_, _, _, _, _, rfl⟩ := encSteps_ok_frame hs
  exact ⟨rfl, rfl, rfl, rfl, rfl, rfl⟩

/-- `E_END` and `P_END` (R124, R163). -/
theorem encodeEnd_frame (b : Block) :
    EncoderFrame b { encFlush b with mode := .idle } ∧ EncodeEndFrame b { encFlush b with mode := .idle } := by
  rw [encFlush_eq]
  exact ⟨⟨rfl, rfl, rfl, rfl, rfl, rfl⟩, rfl, rfl, rfl, rfl, rfl⟩

theorem dCodeBody_frame {depth : Nat} {k : Word} {b b' : Block} (h : dCodeBody depth k b = .ok b') :
    DecoderFrame b b' ∧ GenericFrame b b' := by
  obtain ⟨⟨b1, str⟩, hd, rfl⟩ := Res.map_eq_ok h
  have hstores := decStep_storesNext hd
  obtain ⟨_, _, _, _, rfl⟩ := decStep_frame hd
  exact ⟨⟨rfl, rfl, rfl, rfl, hstores⟩, rfl, rfl, rfl, hstores⟩

theorem pdCodeBody_frame {depth : Nat} {k : Word} {b b' : Block} (h : pdCodeBody depth k b = .ok b') : DecoderFrame b b' := by
  obtain ⟨⟨b1, str⟩, hd, rfl⟩ := Res.map_eq_ok h
  have hstores := decStep_storesNext hd
  obtain ⟨_, _, _, _, rfl⟩ := decStep_frame hd
  obtain ⟨_, _, _, _, hpush⟩ := digitPushes_frame str _
  rw [hpush]
  exact ⟨rfl, rfl, rfl, rfl, hstores⟩

/-! ### The frame of each command: dropped, raised or completed (R111) -/

/-- A relation that looks neither at the mode nor at the error registers holds over a stream or END command as soon as it holds over its
rule where that completes. -/
theorem inOperation_frame {R : Block → Block → Prop} {m : Mode} {op : BitVec 8} {x : Word} {body : Block → Res Block}
    {s t : State} (ht : inOperation m op x body s = .next t)
    (hregs : ∀ mo er eo ea, R s.toBlock { s.toBlock with mode := mo, err := er, errOp := eo, errArg := ea })
    (hok : ∀ b, body s.toBlock = .ok b → R s.toBlock b) : R s.toBlock t.toBlock := by
  rcases inOperation_cases ht with ⟨-, rfl⟩ | ⟨-, -, rfl⟩ | ⟨-, -, b, hb, rfl⟩ | ⟨-, -, e, a, -, rfl⟩
  · exact hregs _ _ _ _
  · exact hregs _ _ _ _
  · exact hok b hb
  · exact hregs _ _ _ _

section ErrorRegisters

variable (b : Block) (mo : Mode) (er : ErrCode) (eo : BitVec 8) (ea : Word)

theorem EncoderFrame.of_errorRegs : EncoderFrame b { b with mode := mo, err := er, errOp := eo, errArg := ea } :=
  ⟨rfl, rfl, rfl, rfl, rfl, rfl⟩

theorem DecoderFrame.of_errorRegs : DecoderFrame b { b with mode := mo, err := er, errOp := eo, errArg := ea } :=
  ⟨rfl, rfl, rfl, rfl, .of_dmem_eq rfl⟩

theorem GenericFrame.of_errorRegs : GenericFrame b { b with mode := mo, err := er, errOp := eo, errArg := ea } :=
  ⟨rfl, rfl, rfl, .of_dmem_eq rfl⟩

theorem EncodeEndFrame.of_errorRegs : EncodeEndFrame b { b with mode := mo, err := er, errOp := eo, errArg := ea } :=
  ⟨rfl, rfl, rfl, rfl, rfl⟩

end ErrorRegisters

section Commands

variable {s t : State}

theorem exec_eSym_frame {c : Word} (ht : exec (.eSym c) s = .next t) :
    EncoderFrame s.toBlock t.toBlock ∧ GenericFrame s.toBlock t.toBlock :=
  inOperation_frame (R := fun b b' => EncoderFrame b b' ∧ GenericFrame b b') ht
    (fun _ _ _ _ => ⟨.of_errorRegs _ _ _ _ _, .of_errorRegs _ _ _ _ _⟩) fun _ => eSymBody_frame

theorem exec_pPix_frame {v : Word} (ht : exec (.pPix v) s = .next t) : EncoderFrame s.toBlock t.toBlock :=
  inOperation_frame ht (.of_errorRegs _) fun _ => pPixBody_frame

/-- `E_END` and `P_END` have one rule (R124, R163). -/
theorem inOperation_encodeEnd_frame {m : Mode} {op : BitVec 8} {x : Word}
    (ht : inOperation m op x (fun b => .ok { encFlush b with mode := .idle }) s = .next t) :
    EncoderFrame s.toBlock t.toBlock ∧ EncodeEndFrame s.toBlock t.toBlock := by
  refine inOperation_frame (R := fun b b' => EncoderFrame b b' ∧ EncodeEndFrame b b') ht
    (fun _ _ _ _ => ⟨.of_errorRegs _ _ _ _ _, .of_errorRegs _ _ _ _ _⟩) ?_
  rintro _ ⟨⟩
  exact encodeEnd_frame _

theorem exec_eEnd_frame (ht : exec .eEnd s = .next t) : EncoderFrame s.toBlock t.toBlock ∧ EncodeEndFrame s.toBlock t.toBlock :=
  inOperation_encodeEnd_frame ht

theorem exec_pEnd_frame (ht : exec .pEnd s = .next t) : EncoderFrame s.toBlock t.toBlock ∧ EncodeEndFrame s.toBlock t.toBlock :=
  inOperation_encodeEnd_frame ht

theorem exec_dCode_frame {k : Word} (ht : exec (.dCode k) s = .next t) :
    DecoderFrame s.toBlock t.toBlock ∧ GenericFrame s.toBlock t.toBlock :=
  inOperation_frame (R := fun b b' => DecoderFrame b b' ∧ GenericFrame b b') ht
    (fun _ _ _ _ => ⟨.of_errorRegs _ _ _ _ _, .of_errorRegs _ _ _ _ _⟩) fun _ => dCodeBody_frame

theorem exec_pdCode_frame {k : Word} (ht : exec (.pdCode k) s = .next t) : DecoderFrame s.toBlock t.toBlock :=
  inOperation_frame ht (.of_errorRegs _) fun _ => pdCodeBody_frame

/-- An END of a decode operation writes the mode and the error registers only, whether it succeeds or raises (R143, R183). -/
theorem inOperation_decodeEnd_frame {m : Mode} {op : BitVec 8} {x : Word} {body : Block → Res Block}
    (ht : inOperation m op x body s = .next t) (hok : ∀ b, body s.toBlock = .ok b → b = { s.toBlock with mode := .idle }) :
    ∃ mo er eo ea, t = { s with mode := mo, err := er, errOp := eo, errArg := ea } := by
  rcases inOperation_cases ht with ⟨-, rfl⟩ | ⟨-, -, rfl⟩ | ⟨-, -, b, hb, rfl⟩ | ⟨-, -, e, a, -, rfl⟩
  · exact ⟨_, _, _, _, rfl⟩
  · exact ⟨_, _, _, _, rfl⟩
  · obtain rfl := hok b hb
    exact ⟨_, _, _, _, rfl⟩
  · exact ⟨_, _, _, _, rfl⟩

theorem exec_dEnd_frame (ht : exec .dEnd s = .next t) :
    ∃ mo er eo ea, t = { s with mode := mo, err := er, errOp := eo, errArg := ea } :=
  inOperation_decodeEnd_frame ht fun _ => dEndBody_eq_ok

theorem exec_pdEnd_frame (ht : exec .pdEnd s = .next t) :
    ∃ mo er eo ea, t = { s with mode := mo, err := er, errOp := eo, errArg := ea } :=
  inOperation_decodeEnd_frame ht fun _ hb => (pdEndBody_eq_ok hb).2.2

/-! ### What every command leaves -/

/-- A command changes the block only. -/
theorem exec_withBlock {i : Instr} (ht : exec i s = .next t) : ∃ b, t = withBlock s b := by
  rcases instr_kinds i with rfl | hb | ⟨hb, hn⟩
  · cases ht
    exact ⟨_, rfl⟩
  · obtain ⟨body, hexec, -⟩ := exec_eq_beginOperation hb s
    rcases beginOperation_cases (hexec ▸ ht) with ⟨-, rfl⟩ | ⟨-, -, rfl⟩
    · exact ⟨_, rfl⟩
    · exact ⟨_, rfl⟩
  · obtain ⟨body, hexec, -⟩ := exec_eq_inOperation hb hn s
    rcases inOperation_cases (hexec ▸ ht) with ⟨-, rfl⟩ | ⟨-, -, rfl⟩ | ⟨-, -, b, -, rfl⟩ | ⟨-, -, e, a, -, rfl⟩
    · exact ⟨_, rfl⟩
    · exact ⟨_, rfl⟩
    · exact ⟨_, rfl⟩
    · exact ⟨_, rfl⟩

theorem exec_outq {i : Instr} (ht : exec i s = .next t) : t.outq = s.outq := by
  cases i with
  | nop =>
    cases ht
    rfl
  | eBegin | dBegin | pBegin | pdBegin => exact (exec_begin_sameStores ht rfl).2.2
  | eSym c => exact (exec_eSym_frame ht).1.outq
  | eEnd => exact (exec_eEnd_frame ht).1.outq
  | dCode k => exact (exec_dCode_frame ht).1.outq
  | dEnd =>
    obtain ⟨_, _, _, _, rfl⟩ := exec_dEnd_frame ht
    rfl
  | pPix v => exact (exec_pPix_frame ht).outq
  | pEnd => exact (exec_pEnd_frame ht).1.outq
  | pdCode k => exact (exec_pdCode_frame ht).outq
  | pdEnd =>
    obtain ⟨_, _, _, _, rfl⟩ := exec_pdEnd_frame ht
    rfl

end Commands

end Sys2Proof.Machine

namespace Sys2Proof.Proofs

open Sys2Proof.Machine Sys2Proof.Safety

/-- Settles O43: a command gives the machine a new block only, adds to `PEND` what it emits, and leaves `OUTQ`. -/
theorem commandsLeaveTheHostSide : Obligations.CommandsLeaveTheHostSide := by
  intro i s t ht
  obtain ⟨items, hpend, -⟩ := exec_emits ht
  have houtq := exec_outq ht
  obtain ⟨b, rfl⟩ := exec_withBlock ht
  exact ⟨rfl, rfl, rfl, rfl, houtq, items, hpend.symm⟩

/-- Settles O45: the encoder's frame and that of a generic operation; `E_END` inserts nothing. -/
theorem genericEncodeFrame : Obligations.GenericEncodeFrame := by
  intro i s t ht hi
  have herr := errorRegistersOnlyByErrorEntry i s t ht
  rcases hi with ⟨c, rfl⟩ | rfl
  · obtain ⟨henc, hgen⟩ := exec_eSym_frame ht
    exact ⟨henc.firstSeen, henc.imgW, henc.imgH, hgen.pixCount, henc.digBuf, henc.digErr, henc.outq, fun hm => (herr hm).1 rfl,
      hgen.stores, nofun⟩
  · obtain ⟨henc, hend⟩ := exec_eEnd_frame ht
    exact ⟨henc.firstSeen, henc.imgW, henc.imgH, hend.pixCount, henc.digBuf, henc.digErr, henc.outq, fun hm => (herr hm).1 rfl,
      StoresNext.of_dmem_eq hend.dmem, fun _ => ⟨hend.nextCode, hend.wValid, hend.wCode, hend.dmem⟩⟩

/-- Settles O46: the encoder's frame, and `exec_grows` for the stores of `P_PIX`; `P_END` inserts nothing. -/
theorem pixelEncodeFrame : Obligations.PixelEncodeFrame := by
  intro i s t h ht hi
  have herr := errorRegistersOnlyByErrorEntry i s t ht
  rcases hi with ⟨v, rfl⟩ | rfl
  · have henc := exec_pPix_frame ht
    exact ⟨henc.firstSeen, henc.imgW, henc.imgH, henc.digBuf, henc.digErr, henc.outq, fun hm => (herr hm).1 rfl,
      (exec_grows h ht rfl).read_eq, nofun⟩
  · obtain ⟨henc, hend⟩ := exec_pEnd_frame ht
    exact ⟨henc.firstSeen, henc.imgW, henc.imgH, henc.digBuf, henc.digErr, henc.outq, fun hm => (herr hm).1 rfl,
      (exec_grows h ht rfl).read_eq, fun _ => ⟨hend.nextCode, hend.wValid, hend.wCode, hend.pixCount, hend.dmem⟩⟩

/-- Settles O47: the decoder's frame and that of a generic operation; `D_END` writes the mode and the error registers only. -/
theorem genericDecodeFrame : Obligations.GenericDecodeFrame := by
  intro i s t ht hi
  have herr := errorRegistersOnlyByErrorEntry i s t ht
  rcases hi with ⟨k, rfl⟩ | rfl
  · obtain ⟨hdec, hgen⟩ := exec_dCode_frame ht
    exact ⟨hdec.wValid, hdec.imgW, hdec.imgH, hgen.pixCount, hgen.digBuf, hgen.digErr, hdec.outq, fun hm => (herr hm).1 rfl,
      hdec.stores, nofun⟩
  · obtain ⟨_, _, _, _, rfl⟩ := exec_dEnd_frame ht
    exact ⟨rfl, rfl, rfl, rfl, rfl, rfl, rfl, fun hm => (herr hm).1 rfl, fun _ _ => rfl, fun _ => rfl⟩

/-- Settles O48: the decoder's frame; `PD_END` writes the mode and the error registers only. -/
theorem pixelDecodeFrame : Obligations.PixelDecodeFrame := by
  intro i s t ht hi
  have herr := errorRegistersOnlyByErrorEntry i s t ht
  rcases hi with ⟨k, rfl⟩ | rfl
  · have hdec := exec_pdCode_frame ht
    exact ⟨hdec.wValid, hdec.imgW, hdec.imgH, hdec.outq, fun hm => (herr hm).1 rfl, hdec.stores, nofun⟩
  · obtain ⟨_, _, _, _, rfl⟩ := exec_pdEnd_frame ht
    exact ⟨rfl, rfl, rfl, rfl, fun hm => (herr hm).1 rfl, fun _ _ => rfl, fun _ => rfl⟩

end Sys2Proof.Proofs
end

section
/-!
The command words that 95_test_vectors.md 2.1 and the opcode map (30_encoding.md R70 to R73) write out.
-/

namespace Sys2Proof.Proofs

open Sys2Proof.Machine

/-- Settles O1: ten fixed words, each decoded by evaluation. -/
theorem handWrittenWordsDecode : Obligations.HandWrittenWordsDecode :=
  ⟨rfl, rfl, rfl, rfl, rfl, rfl, rfl, rfl, rfl, rfl⟩

end Sys2Proof.Proofs
end
